-- ==== Sys2Proof/Word.lean ====
section
/-! DEFINITION. The word types of the FFQ block (spec/00_scope.md R10, R13, rule R8 for the widths). -/

namespace Sys2Proof

/-- A `u8`: a selector of the command word, a buffer byte, a header byte. -/
abbrev Byte := BitVec 8

/-- A 32-bit operand, result or CSR word (00_scope.md R13). -/
abbrev Word := BitVec 32

/-- A human value, an `s64` (00_scope.md R8, HVW = 64). -/
abbrev HVal := BitVec 64

/-- A queue sample. SAMPLE_W is at most 255 and a sample travels in at most eight words (00_scope.md R8), so 256
bits hold every sample; the bits at and above SAMPLE_W of a stored one are 0 (43_queue.md R231). -/
abbrev Sample := BitVec 256

end Sys2Proof
end

