-- ==== Sys2Proof/Config.lean ====
section
/-! DEFINITION. What an implementation fixes (the synthesis parameters of spec/00_scope.md R8) and the free values:
what the spec leaves open, as constants without a body. -/

namespace Sys2Proof

/-- The synthesis parameters of 00_scope.md R8, "a synthesis-time constant that a model takes as an argument".
CWB, SW and the fixed widths are derived from them or fixed. -/
structure Params where
  /-- NF, the number of field descriptor slots -/
  nf : Nat
  /-- NC, the number of container descriptor slots -/
  nc : Nat
  /-- CMAX, the largest container payload in bytes -/
  cmax : Nat
  /-- XT_SIZE, the transform-table entries -/
  xtSize : Nat
  /-- DBUF_SIZE, the decode-buffer bytes -/
  dbufSize : Nat
  /-- QCAP, the queue capacity in slots -/
  qcap : Nat
  /-- SAMPLE_W, the sample width in bits -/
  sampleW : Nat
deriving DecidableEq, Repr

/-- The legal ranges of 00_scope.md R8. -/
def Params.legal (p : Params) : Bool :=
  decide (1 ≤ p.nf) && decide (p.nf ≤ 256) && decide (1 ≤ p.nc) && decide (p.nc ≤ 256)
    && decide (1 ≤ p.cmax) && decide (p.cmax ≤ 32)
    && decide (1 ≤ p.xtSize) && decide (p.xtSize ≤ 65535)
    && decide (1 ≤ p.dbufSize) && decide (p.dbufSize ≤ 65535)
    && decide (2 ≤ p.qcap) && decide (p.qcap ≤ 65535)
    && decide (1 ≤ p.sampleW) && decide (p.sampleW ≤ 255)

/-- The parameters of `State.reset`: the defaults of 00_scope.md R8 and, for the two OPEN ones, QCAP = 4 and
SAMPLE_W = 32, the values 95_test_vectors.md section 1 uses.
DESIGN CHOICE (log 1), unsafe for a claim about this one value: the statements range over every legal `Params`. -/
def Params.chosen : Params :=
  { nf := 64, nc := 32, cmax := 32, xtSize := 256, dbufSize := 512, qcap := 4, sampleW := 32 }

/-- The byte that DBUF[a] holds after reset event `draw` until it is written (10_state.md R37,
93_implementation_defined.md I1: "any value, one byte each, drawn at reset"). FREE VALUE, log 2. -/
opaque Config.dbufDraw (draw a : Nat) : Byte

/-- The entry XT[k] after reset event `draw` until it is written (10_state.md R36,
93_implementation_defined.md I2). FREE VALUE, log 3. -/
opaque Config.xtDraw (draw k : Nat) : HVal

/-- The bits of SLOT[k] after reset event `draw` until it is written (10_state.md R38,
93_implementation_defined.md I3). FREE VALUE, log 4. -/
opaque Config.slotDraw (draw k : Nat) : Sample

/-- The bits of CDT[c], but VALID, after reset event `draw` until it is written (10_state.md R31,
93_implementation_defined.md I4). FREE VALUE, log 5. -/
opaque Config.cdtDraw (draw c : Nat) : Word

/-- The bits of word `w` of FDT[f], but VALID, after reset event `draw` until it is written (10_state.md R32,
93_implementation_defined.md I4). FREE VALUE, log 5. -/
opaque Config.fdtDraw (draw f w : Nat) : Word

/-- What unpacking `raw` through a reserved XFORM code 4..7 would give (`low` is the code's low two bits).
10_state.md R34 gives these codes no transform and CFGCOMMIT refuses them, so no run reaches it. FREE VALUE, log 10. -/
opaque Config.reservedUnpack (low : BitVec 2) (raw : Nat) : HVal

/-- What packing `hv` through a reserved XFORM code 4..7 would give, as `Config.reservedUnpack`. FREE VALUE, log 10. -/
opaque Config.reservedPack (low : BitVec 2) (hv : HVal) : Nat

/-- Membership in an allowed set of the reserved ALLOW code 3, which 10_state.md R35 gives no members and CFGCOMMIT
refuses, so no run reaches it. FREE VALUE, log 10. -/
opaque Config.reservedAllowed (alo ahi hv : HVal) : Bool

/-- INFO of BAD_LENGTH sub 1 for an operand list of `n` words, where `n` does not fit the 32-bit INFO word:
60_exceptions.md R282 gives the number and no cut to 32 bits. DESIGN CHOICE of its form: FREE VALUE, log 15. -/
opaque Config.longCountInfo (n : Nat) : Word

end Sys2Proof
end

