-- ==== Sys2Proof/Syntax.lean ====
section
/-! DEFINITION. The commands of the FFQ block with their operands (spec/30_encoding.md R88, R91), one constructor per row of
spec/opcode_table.json, and the command as it is presented on the port: a command word and an operand list (R81). -/

namespace Sys2Proof

/-- The value a write names: the field's default (UD = 1) or an `s64` (UD = 0) (30_encoding.md R85, R91). -/
inductive FieldArg where
  | useDefault
  | value (v : HVal)
deriving DecidableEq, Repr

/-- An override entry of CPACKU or CPACKR (30_encoding.md R85). -/
structure Override where
  /-- the field index f -/
  field : Byte
  /-- the value, or the "use default" marker -/
  arg : FieldArg
deriving DecidableEq, Repr

/-- The eight words W0..W7 of a field descriptor (10_state.md R32). -/
structure FieldWords where
  w0 : Word
  w1 : Word
  w2 : Word
  w3 : Word
  w4 : Word
  w5 : Word
  w6 : Word
  w7 : Word
deriving DecidableEq, Repr

/-- The 24 commands, each with the operands 30_encoding.md R91 assembles for it. -/
inductive Instr where
  | nop
  | csrr (csr : Byte)
  | csrw (csr : Byte) (v : Word)
  | cfgclr
  | cfgc (c : Byte) (word : Word)
  | cfgf (f : Byte) (ws : FieldWords)
  | cfgx (idx : BitVec 16) (value : HVal)
  | cfgcommit
  | funpack (f : Byte) (bytes : List Byte)
  | fpack (f : Byte) (arg : FieldArg)
  | cunpack (c : Byte) (bytes : List Byte)
  | cpacku (c : Byte) (bytes : List Byte) (ovr : List Override)
  | cpackr (c : Byte) (ovr : List Override)
  | dbwr (a : Word) (bytes : List Byte)
  | dbrd (a : Word) (n : Byte)
  | dstart (len : Word)
  | dnext
  | qput (sample : Sample) (ts : Word)
  | qget
  | qsize
  | qempty
  | qfull
  | qreset
  | qdisc
deriving DecidableEq, Repr

/-- The opcodes of 30_encoding.md R88, without their operands. -/
inductive Opcode where
  | nop | csrr | csrw
  | cfgclr | cfgc | cfgf | cfgx | cfgcommit
  | funpack | fpack | cunpack | cpacku | cpackr
  | dbwr | dbrd | dstart | dnext
  | qput | qget | qsize | qempty | qfull | qreset | qdisc
deriving DecidableEq, Repr

/-- A command as the host presents it: "CW plus an operand list" (30_encoding.md R81). -/
structure Command where
  /-- CW, the command word -/
  cw : Word
  /-- the operand words op[0], op[1], ... -/
  ops : List Word
deriving DecidableEq, Repr

/-- Why a presented command is no command, in the order of the checks (44_control.md R263, 60_exceptions.md R283). -/
inductive DecodeError where
  /-- OPC is not in the opcode map (30_encoding.md R89): ILLEGAL_OPCODE sub 1 -/
  | illegalOpcode
  /-- a reserved field of CW is not 0 (30_encoding.md R90): ILLEGAL_OPCODE sub 2 -/
  | reservedField
  /-- the operand list's length is not NOPS (30_encoding.md R81): BAD_LENGTH sub 1 -/
  | badLength
deriving DecidableEq, Repr

end Sys2Proof
end

