-- ==== Sys2Proof/WellFormed.lean ====
section
/-! DEFINITION. Which instructions an encoding can carry: the counts that B and C hold in eight bits (spec/30_encoding.md R80,
R91) and the sample that SW operand words hold (R91). Every other operand fits its field by its type. -/

namespace Sys2Proof

/-- A byte list whose count fits B (30_encoding.md R91: n = zext(B)). -/
def bytesFit (bytes : List Byte) : Bool := decide (bytes.length ≤ 255)

/-- An override list whose count fits C (30_encoding.md R91: k = zext(C)). -/
def overridesFit (ovr : List Override) : Bool := decide (ovr.length ≤ 255)

/-- A sample that SW = ceil(SAMPLE_W / 32) operand words hold (30_encoding.md R91, 00_scope.md R8). -/
def sampleFits (p : Params) (sample : Sample) : Bool :=
  decide (sample.toNat < 2 ^ (32 * ((p.sampleW + 31) / 32)))

/-- The instructions a command can carry on a block with parameters `p`. -/
def Instr.wf (p : Params) : Instr → Bool
  | .nop => true
  | .csrr _ => true
  | .csrw _ _ => true
  | .cfgclr => true
  | .cfgc _ _ => true
  | .cfgf _ _ => true
  | .cfgx _ _ => true
  | .cfgcommit => true
  | .funpack _ bytes => bytesFit bytes
  | .fpack _ _ => true
  | .cunpack _ bytes => bytesFit bytes
  | .cpacku _ bytes ovr => bytesFit bytes && overridesFit ovr
  | .cpackr _ ovr => overridesFit ovr
  | .dbwr _ bytes => bytesFit bytes
  | .dbrd _ _ => true
  | .dstart _ => true
  | .dnext => true
  | .qput sample _ => sampleFits p sample
  | .qget => true
  | .qsize => true
  | .qempty => true
  | .qfull => true
  | .qreset => true
  | .qdisc => true

end Sys2Proof
end

