-- ==== Sys2Proof/Decode.lean ====
section
/-! DEFINITION. The decoder and, after it, the encoder (spec/30_encoding.md R80 to R91, R95): the fields of the command word, the
packing of bytes, `s64` values and samples into words (spec/00_scope.md R13), the opcode map and the operand counts. -/

namespace Sys2Proof

/-! ### The command word (30_encoding.md R80) -/

/-- OPC = CW[7:0]. -/
def cwOpc (cw : Word) : Byte := cw.extractLsb' 0 8

/-- A = CW[15:8]. -/
def cwA (cw : Word) : Byte := cw.extractLsb' 8 8

/-- B = CW[23:16]. -/
def cwB (cw : Word) : Byte := cw.extractLsb' 16 8

/-- C = CW[31:24]. -/
def cwC (cw : Word) : Byte := cw.extractLsb' 24 8

/-- {C, B, A, OPC}. -/
def mkCw (opc a b c : Byte) : Word := c ++ b ++ a ++ opc

/-! ### Packing into words (00_scope.md R13) -/

/-- nb(n) = ceil(n/4), the words that carry n bytes (30_encoding.md R88). -/
def wordCount (n : Nat) : Nat := (n + 3) / 4

/-- Byte k of a byte-carrying word list: bits [8·(k mod 4)+7 : 8·(k mod 4)] of word floor(k/4). -/
def byteOfWords (ws : List Word) (k : Nat) : Byte := (ws.getD (k / 4) 0).extractLsb' (8 * (k % 4)) 8

/-- The first `n` bytes a word list carries; the pad bytes of the last word are ignored (30_encoding.md R84). -/
def bytesOfWords (ws : List Word) (n : Nat) : List Byte := (List.range n).map (byteOfWords ws)

/-- Word j of a byte list, with zeros past its end. -/
def wordOfBytes (bytes : List Byte) (j : Nat) : Word :=
  bytes.getD (4 * j + 3) 0 ++ bytes.getD (4 * j + 2) 0 ++ bytes.getD (4 * j + 1) 0 ++ bytes.getD (4 * j) 0

/-- The nb(n) words that carry a list of n bytes. -/
def wordsOfBytes (bytes : List Byte) : List Word :=
  (List.range (wordCount bytes.length)).map (wordOfBytes bytes)

/-- v[31:0], the word of a 64-bit value that travels first. -/
def loWord (v : HVal) : Word := v.extractLsb' 0 32

/-- v[63:32], the word of a 64-bit value that travels second. -/
def hiWord (v : HVal) : Word := v.extractLsb' 32 32

/-- {hi, lo}, the 64-bit value of two words. -/
def valueOfWords (lo hi : Word) : HVal := hi ++ lo

/-- SW = ceil(SAMPLE_W / 32) (00_scope.md R8). -/
def sampleWords (p : Params) : Nat := (p.sampleW + 31) / 32

/-- The `k` words of a multi-word value, word 0 least significant (30_encoding.md R91). -/
def wordsOfNat : Nat → Nat → List Word
  | 0, _ => []
  | k + 1, x => BitVec.ofNat 32 x :: wordsOfNat k (x / 2 ^ 32)

/-- The multi-word value of a word list, word 0 least significant (30_encoding.md R91). -/
def natOfWords : List Word → Nat
  | [] => 0
  | w :: ws => w.toNat + 2 ^ 32 * natOfWords ws

/-! ### The opcode map (30_encoding.md R88) -/

/-- The opcode byte of a command. -/
def Opcode.code : Opcode → Byte
  | .nop => 0x00
  | .csrr => 0x01
  | .csrw => 0x02
  | .cfgclr => 0x10
  | .cfgc => 0x11
  | .cfgf => 0x12
  | .cfgx => 0x13
  | .cfgcommit => 0x14
  | .funpack => 0x20
  | .fpack => 0x21
  | .cunpack => 0x22
  | .cpacku => 0x23
  | .cpackr => 0x24
  | .dbwr => 0x30
  | .dbrd => 0x31
  | .dstart => 0x32
  | .dnext => 0x33
  | .qput => 0x40
  | .qget => 0x41
  | .qsize => 0x42
  | .qempty => 0x43
  | .qfull => 0x44
  | .qreset => 0x45
  | .qdisc => 0x46

/-- Every opcode of the map. -/
def opcodeMap : List Opcode :=
  [.nop, .csrr, .csrw, .cfgclr, .cfgc, .cfgf, .cfgx, .cfgcommit, .funpack, .fpack, .cunpack, .cpacku, .cpackr,
    .dbwr, .dbrd, .dstart, .dnext, .qput, .qget, .qsize, .qempty, .qfull, .qreset, .qdisc]

/-- The opcode a byte stands for; none where it is not in the map (30_encoding.md R89). -/
def opcodeOf (b : Byte) : Option Opcode := opcodeMap.find? fun op => op.code == b

/-- The reserved fields of CW are 0: the "-" entries of 30_encoding.md R88 and B[7:1] of FPACK (R90). -/
def reservedZero (op : Opcode) (cw : Word) : Bool :=
  match op with
  | .csrr | .csrw | .cfgc | .cfgf => cwB cw == 0 && cwC cw == 0
  | .cfgx | .funpack | .cunpack => cwC cw == 0
  | .fpack => (cwB cw).extractLsb' 1 7 == 0 && cwC cw == 0
  | .cpacku => true
  | .cpackr => cwB cw == 0
  | .dbwr | .dbrd => cwA cw == 0 && cwC cw == 0
  | .nop | .cfgclr | .cfgcommit | .dstart | .dnext | .qput | .qget | .qsize | .qempty | .qfull | .qreset | .qdisc =>
      cwA cw == 0 && cwB cw == 0 && cwC cw == 0

/-- UD = B[0] of FPACK (30_encoding.md R91). -/
def cwUseDefault (cw : Word) : Bool := (cwB cw).getLsbD 0

/-- NOPS, the operand words of a command (30_encoding.md R88). -/
def operandCount (p : Params) (op : Opcode) (cw : Word) : Nat :=
  match op with
  | .csrw | .cfgc | .dbrd | .dstart => 1
  | .cfgf => 8
  | .cfgx => 2
  | .funpack | .cunpack => wordCount (cwB cw).toNat
  | .fpack => if cwUseDefault cw then 0 else 2
  | .cpacku => wordCount (cwB cw).toNat + 3 * (cwC cw).toNat
  | .cpackr => 3 * (cwC cw).toNat
  | .dbwr => 1 + wordCount (cwB cw).toNat
  | .qput => sampleWords p + 1
  | .nop | .csrr | .cfgclr | .cfgcommit | .dnext | .qget | .qsize | .qempty | .qfull | .qreset | .qdisc => 0

/-! ### Operand assembly (30_encoding.md R85, R91) -/

/-- The override entry of three words; O0[31:9] and, with UD = 1, the value words are ignored (R84, R85). -/
def overrideOfWords (o0 o1 o2 : Word) : Override :=
  { field := o0.extractLsb' 0 8
    arg := if o0.getLsbD 8 then .useDefault else .value (valueOfWords o1 o2) }

/-- The override entries of a word list, three words each. -/
def overridesOfWords : List Word → List Override
  | o0 :: o1 :: o2 :: rest => overrideOfWords o0 o1 o2 :: overridesOfWords rest
  | _ => []

/-- The instruction that an opcode, a command word and its operand words stand for (R91). -/
def assemble (p : Params) (op : Opcode) (cw : Word) (ops : List Word) : Instr :=
  let word (k : Nat) : Word := ops.getD k 0
  match op with
  | .nop => .nop
  | .csrr => .csrr (cwA cw)
  | .csrw => .csrw (cwA cw) (word 0)
  | .cfgclr => .cfgclr
  | .cfgc => .cfgc (cwA cw) (word 0)
  | .cfgf => .cfgf (cwA cw) ⟨word 0, word 1, word 2, word 3, word 4, word 5, word 6, word 7⟩
  | .cfgx => .cfgx (cwB cw ++ cwA cw) (valueOfWords (word 0) (word 1))
  | .cfgcommit => .cfgcommit
  | .funpack => .funpack (cwA cw) (bytesOfWords ops (cwB cw).toNat)
  | .fpack => .fpack (cwA cw) (if cwUseDefault cw then .useDefault else .value (valueOfWords (word 0) (word 1)))
  | .cunpack => .cunpack (cwA cw) (bytesOfWords ops (cwB cw).toNat)
  | .cpacku =>
      .cpacku (cwA cw) (bytesOfWords ops (cwB cw).toNat) (overridesOfWords (ops.drop (wordCount (cwB cw).toNat)))
  | .cpackr => .cpackr (cwA cw) (overridesOfWords ops)
  | .dbwr => .dbwr (word 0) (bytesOfWords (ops.drop 1) (cwB cw).toNat)
  | .dbrd => .dbrd (word 0) (cwB cw)
  | .dstart => .dstart (word 0)
  | .dnext => .dnext
  | .qput => .qput (BitVec.ofNat 256 (natOfWords (ops.take (sampleWords p)))) (word (sampleWords p))
  | .qget => .qget
  | .qsize => .qsize
  | .qempty => .qempty
  | .qfull => .qfull
  | .qreset => .qreset
  | .qdisc => .qdisc

/-- The decoder: the three generic checks of 44_control.md R263 in their order, then operand assembly. -/
def decode (p : Params) (c : Command) : Except DecodeError Instr :=
  match opcodeOf (cwOpc c.cw) with
  | none => .error .illegalOpcode
  | some op =>
      if !reservedZero op c.cw then .error .reservedField
      else if c.ops.length ≠ operandCount p op c.cw then .error .badLength
      else .ok (assemble p op c.cw c.ops)

/-! ### The encoder -/

/-- The opcode of an instruction. -/
def Instr.opcode : Instr → Opcode
  | .nop => .nop
  | .csrr _ => .csrr
  | .csrw _ _ => .csrw
  | .cfgclr => .cfgclr
  | .cfgc _ _ => .cfgc
  | .cfgf _ _ => .cfgf
  | .cfgx _ _ => .cfgx
  | .cfgcommit => .cfgcommit
  | .funpack _ _ => .funpack
  | .fpack _ _ => .fpack
  | .cunpack _ _ => .cunpack
  | .cpacku _ _ _ => .cpacku
  | .cpackr _ _ => .cpackr
  | .dbwr _ _ => .dbwr
  | .dbrd _ _ => .dbrd
  | .dstart _ => .dstart
  | .dnext => .dnext
  | .qput _ _ => .qput
  | .qget => .qget
  | .qsize => .qsize
  | .qempty => .qempty
  | .qfull => .qfull
  | .qreset => .qreset
  | .qdisc => .qdisc

/-- UD of a value that a write names. -/
def FieldArg.ud : FieldArg → Byte
  | .useDefault => 1
  | .value _ => 0

/-- The value words of an FPACK operand: none with UD = 1 (30_encoding.md R88). -/
def FieldArg.words : FieldArg → List Word
  | .useDefault => []
  | .value v => [loWord v, hiWord v]

/-- The three words of an override entry (30_encoding.md R85); the ignored value words of a default are sent as 0. -/
def Override.words (o : Override) : List Word :=
  match o.arg with
  | .useDefault => [(0 : BitVec 16) ++ (1 : Byte) ++ o.field, 0, 0]
  | .value v => [(0 : BitVec 24) ++ o.field, loWord v, hiWord v]

/-- The command word of an instruction (30_encoding.md R88). -/
def encodeCw (i : Instr) : Word :=
  let opc := i.opcode.code
  match i with
  | .csrr csr => mkCw opc csr 0 0
  | .csrw csr _ => mkCw opc csr 0 0
  | .cfgc c _ => mkCw opc c 0 0
  | .cfgf f _ => mkCw opc f 0 0
  | .cfgx idx _ => mkCw opc (idx.extractLsb' 0 8) (idx.extractLsb' 8 8) 0
  | .funpack f bytes => mkCw opc f (BitVec.ofNat 8 bytes.length) 0
  | .fpack f arg => mkCw opc f arg.ud 0
  | .cunpack c bytes => mkCw opc c (BitVec.ofNat 8 bytes.length) 0
  | .cpacku c bytes ovr => mkCw opc c (BitVec.ofNat 8 bytes.length) (BitVec.ofNat 8 ovr.length)
  | .cpackr c ovr => mkCw opc c 0 (BitVec.ofNat 8 ovr.length)
  | .dbwr _ bytes => mkCw opc 0 (BitVec.ofNat 8 bytes.length) 0
  | .dbrd _ n => mkCw opc 0 n 0
  | .nop | .cfgclr | .cfgcommit | .dstart _ | .dnext | .qput _ _ | .qget | .qsize | .qempty | .qfull | .qreset
  | .qdisc => mkCw opc 0 0 0

/-- The operand words of an instruction (30_encoding.md R88, R91). -/
def encodeOps (p : Params) (i : Instr) : List Word :=
  match i with
  | .csrw _ v => [v]
  | .cfgc _ word => [word]
  | .cfgf _ ws => [ws.w0, ws.w1, ws.w2, ws.w3, ws.w4, ws.w5, ws.w6, ws.w7]
  | .cfgx _ value => [loWord value, hiWord value]
  | .funpack _ bytes => wordsOfBytes bytes
  | .fpack _ arg => arg.words
  | .cunpack _ bytes => wordsOfBytes bytes
  | .cpacku _ bytes ovr => wordsOfBytes bytes ++ ovr.flatMap Override.words
  | .cpackr _ ovr => ovr.flatMap Override.words
  | .dbwr a bytes => a :: wordsOfBytes bytes
  | .dbrd a _ => [a]
  | .dstart len => [len]
  | .qput sample ts => wordsOfNat (sampleWords p) sample.toNat ++ [ts]
  | .nop | .csrr _ | .cfgclr | .cfgcommit | .dnext | .qget | .qsize | .qempty | .qfull | .qreset | .qdisc => []

/-- The command of a well-formed instruction. -/
def encode (p : Params) (i : Instr) : Command := { cw := encodeCw i, ops := encodeOps p i }

/-! ### The opcode table's numbering -/

/-- The command whose bits are `w`, numbered as spec/opcode_table.json numbers them: the command word is bits 31..0, operand
word k is bits 32·(k+1)+31 .. 32·(k+1), and every bit at or above `nbits` is 0. It has the operand words that its
opcode asks for, and none where its opcode is not in the map. -/
def commandOfBits (p : Params) (nbits w : Nat) : Command :=
  let bits := w % 2 ^ nbits
  let cw := BitVec.ofNat 32 bits
  match opcodeOf (cwOpc cw) with
  | none => { cw := cw, ops := [] }
  | some op => { cw := cw, ops := wordsOfNat (operandCount p op cw) (bits / 2 ^ 32) }

/-- The instruction the decoder reads from a command whose bits are `w`, on a block with the parameters of reset. -/
def decodeTableWord (nbits w : Nat) : Option Instr :=
  (decode Params.chosen (commandOfBits Params.chosen nbits w)).toOption

end Sys2Proof
end

