-- ==== Sys2Proof/Machine/State.lean ====
section
/-! DEFINITION. The state of the FFQ block (spec/10_state.md R20 to R40), the shape of its responses
(spec/30_encoding.md R82, R83), the reasons a step could stop, and the state after reset (spec/70_reset_and_hazards.md R311). -/

namespace Sys2Proof.Machine

/-! ### Descriptors (10_state.md R31 to R35) -/

/-- CDT.TYPE (R31). -/
inductive ContainerType where
  | register
  | frame
deriving DecidableEq, Repr

/-- CDT.PERM (R31): 0 read-only, 1 write-only, 2 read-write, 3 reserved. -/
inductive Permission where
  | readOnly
  | writeOnly
  | readWrite
  | reserved
deriving DecidableEq, Repr

/-- A container descriptor: every field of the 32-bit word of R31, the reserved bits too ("stored, not checked"). -/
structure ContainerDesc where
  /-- bit 0 -/
  valid : Bool
  /-- bit 1, TYPE -/
  type : ContainerType
  /-- bits 3:2 -/
  perm : Permission
  /-- bits 7:4, reserved -/
  resv7to4 : BitVec 4
  /-- bits 15:8 -/
  size : Byte
  /-- bits 22:16, stored for the host; the block never uses it -/
  addr : BitVec 7
  /-- bit 23, reserved -/
  resv23 : Bool
  /-- bits 31:24 -/
  header : Byte
deriving DecidableEq, Repr

/-- FDT.KIND (R33). -/
inductive FieldKind where
  | config
  | data
  | framePayload
  | command
deriving DecidableEq, Repr

/-- FDT.XFORM (R34); a reserved code 4..7 keeps its low two bits, so that the descriptor word is stored whole. -/
inductive Xform where
  | identity
  | shl
  | table
  | external
  | reserved (low : BitVec 2)
deriving DecidableEq, Repr

/-- FDT.ALLOW (R35). -/
inductive AllowKind where
  | none
  | range
  | set
  | reserved
deriving DecidableEq, Repr

/-- A field descriptor: every field of the eight words of R32, the reserved bit too. -/
structure FieldDesc where
  /-- W0[7:0], the index of the owning container -/
  cont : Byte
  /-- W0[15:8], the bit offset within the container integer -/
  offset : Byte
  /-- W0[21:16], the bit width -/
  width : BitVec 6
  /-- W0[23:22] -/
  kind : FieldKind
  /-- W0[26:24] -/
  xform : Xform
  /-- W0[28:27] -/
  allow : AllowKind
  /-- W0[29], the field has a default -/
  defp : Bool
  /-- W0[30] -/
  valid : Bool
  /-- W0[31], reserved -/
  resv31 : Bool
  /-- W1, the transform parameter XPARAM -/
  xparam : Word
  /-- {W3, W2}, DEFAULT -/
  default : HVal
  /-- {W5, W4}, ALO -/
  alo : HVal
  /-- {W7, W6}, AHI -/
  ahi : HVal
deriving DecidableEq, Repr

/-! ### The command port -/

/-- CTRL.ENDIAN (10_state.md R24): the byte order of container integers. -/
inductive Endian where
  | little
  | big
deriving DecidableEq, Repr

/-- The status codes of 60_exceptions.md R280. -/
inductive StatusCode where
  | ok
  | illegalOpcode
  | badLength
  | notConfigured
  | locked
  | busy
  | unknownField
  | unknownContainer
  | invalidValue
  | notWritable
  | configError
  | badCsr
deriving DecidableEq, Repr

/-- The arguments of `raise Status(code, sub, info)` (60_exceptions.md R281). -/
structure Failure where
  code : StatusCode
  sub : Byte
  info : Word
deriving DecidableEq, Repr

/-- One response: the status word and the result words (30_encoding.md R82, R83). -/
structure Response where
  status : Word
  results : List Word
deriving DecidableEq, Repr

/-- What reaches the block between two commands: a command of the host (00_scope.md R3) or the platform's reset event
(70_reset_and_hazards.md R310). DEDUCED (log 9): the reset event stands in the same order as the commands. -/
inductive PortEvent where
  | command (c : Command)
  | reset
deriving DecidableEq, Repr

/-! ### Stores and State -/

/-- A store indexed by number, as the list of the entries written since reset with their indices, the indices strictly
rising (`tableWf` of Machine/Ops.lean). -/
abbrev Table (α : Type) := List (Nat × α)

/-- The state of the block (10_state.md R20), after the model's own fields `params`, `draw`, `port` and `responses`. -/
structure State where
  /-- MODEL's own: the synthesis parameters, an argument of the model (00_scope.md R8); no step changes them (log 1) -/
  params : Params
  /-- MODEL's own: how many reset events there were; the free values take it as an argument (log 6) -/
  draw : Nat
  /-- MODEL's own: what is presented on the command port and not yet taken, oldest first (log 7) -/
  port : List PortEvent
  /-- MODEL's own: the responses returned so far, oldest first (log 8) -/
  responses : List Response
  /-- CTRL.ENDIAN (R24) -/
  endian : Endian
  /-- CFG_OK (R30) -/
  cfgOk : Bool
  /-- STATUS.LAST_ERR (R25) -/
  lastErr : Byte
  /-- STATUS.LAST_SUB (R25) -/
  lastSub : Byte
  /-- CFG_ERR (R26) -/
  cfgErr : Word
  /-- CDT (R31), the entries written since reset -/
  cdt : Table ContainerDesc
  /-- FDT (R32), the entries written since reset -/
  fdt : Table FieldDesc
  /-- XT (R36), the entries written since reset -/
  xt : Table HVal
  /-- DBUF (R37), the bytes written since reset -/
  dbuf : List Host.Cell
  /-- DEC_LEN (R37) -/
  decLen : BitVec 16
  /-- DEC_POS (R37) -/
  decPos : BitVec 16
  /-- DEC_ACTIVE (R37) -/
  decActive : Bool
  /-- SLOT (R38), the slots written since reset -/
  slots : Table Sample
  /-- RD (R38) -/
  rd : BitVec 16
  /-- WR (R38) -/
  wr : BitVec 16
  /-- DISC_CNT (R38) -/
  discCnt : Word
  /-- DISC_TS (R38) -/
  discTs : Word
deriving DecidableEq, Repr

/-- The reasons a step stops with a fault: none. "No behaviour of the block traps or hangs: every command returns one
response" (93_implementation_defined.md, Treatments; 44_control.md R263); an access outside a store is a status
(20_memory.md R61). An empty type is safe: it promises that the model never stops where the block goes on. -/
inductive Fault where
deriving DecidableEq, Repr

/-- The reasons the model has no meaning to give. -/
inductive Refusal where
  /-- Raised by an arm of `exec` for an instruction without a meaning in this model, named by its mnemonic; safe, since a
  refused step claims nothing about the block. No arm raises it: every row of the table has its meaning. -/
  | notModelled (mnemonic : String)
deriving DecidableEq, Repr

/-- Every field at its value after reset event number `draw` (70_reset_and_hazards.md R311), on a block with parameters
`p`: nothing is written, so every VALID is 0 and the unspecified contents are the free values. -/
def State.afterReset (p : Params) (draw : Nat) (port : List PortEvent) (responses : List Response) : State :=
  { params := p
    draw := draw
    port := port
    responses := responses
    endian := .little
    cfgOk := false
    lastErr := 0
    lastSub := 0
    cfgErr := 0
    cdt := []
    fdt := []
    xt := []
    dbuf := []
    decLen := 0
    decPos := 0
    decActive := false
    slots := []
    rd := 0
    wr := 0
    discCnt := 0
    discTs := 0 }

/-- The block right after power-on (70_reset_and_hazards.md R310, R311), with nothing presented on its port. -/
def State.reset : State := State.afterReset Params.chosen 0 [] []

end Sys2Proof.Machine
end

