-- ==== Sys2Proof/Machine/Flags.lean ====
section
/-! DEFINITION. Every flag and status the block computes: the status word and its FLAGS (spec/30_encoding.md R83, R86), the flag
bits of a view entry and of a decode record (R87, R92), the STATUS, CFG_ERR and PARAM registers' fields (spec/10_state.md R23 to
R26). The block has no persistent flags (R39): these live in responses, but for the error registers. -/

namespace Sys2Proof.Machine

/-- The code byte of a status (60_exceptions.md R280). -/
def statusByte : StatusCode → Byte
  | .ok => 0x00
  | .illegalOpcode => 0x01
  | .badLength => 0x02
  | .notConfigured => 0x03
  | .locked => 0x04
  | .busy => 0x05
  | .unknownField => 0x06
  | .unknownContainer => 0x07
  | .invalidValue => 0x08
  | .notWritable => 0x09
  | .configError => 0x0A
  | .badCsr => 0x0B

/-- The bit of a Bool. -/
def bit (b : Bool) : BitVec 1 := BitVec.ofBool b

/-- The FLAGS field of the status word, bits 19..16: reserved 0, EXT, UNMAPPED, EMPTY (30_encoding.md R86). -/
def flagsField (empty unmapped ext : Bool) : BitVec 4 := (0 : BitVec 1) ++ bit ext ++ bit unmapped ++ bit empty

/-- The status word: NRES[31:20], FLAGS[19:16], SUB[15:8], STATUS[7:0] (30_encoding.md R83). -/
def statusWord (code : StatusCode) (sub : Byte) (flags : BitVec 4) (nres : Nat) : Word :=
  BitVec.ofNat 12 nres ++ flags ++ sub ++ statusByte code

/-- E0 of a view entry: the field index, UNMAPPED in bit 8, EXT in bit 9 (30_encoding.md R87). -/
def viewWord (f : Nat) (unmapped ext : Bool) : Word :=
  (0 : BitVec 22) ++ bit ext ++ bit unmapped ++ BitVec.ofNat 8 f

/-- The KIND of a decode record (30_encoding.md R92). -/
inductive RecordKind where
  | done
  | frame
  | invalid
  | trunc
deriving DecidableEq, Repr

/-- KIND, REC0[1:0]: 0 END, 1 FRAME, 2 INVALID, 3 TRUNC (30_encoding.md R92). -/
def recordKindBits : RecordKind → BitVec 2
  | .done => 0
  | .frame => 1
  | .invalid => 2
  | .trunc => 3

/-- REC0 (30_encoding.md R92). -/
def recordWord (kind : RecordKind) (hasValue unmapped ext : Bool) (cont hdr : Byte) : Word :=
  (0 : Byte) ++ hdr ++ cont ++ (0 : BitVec 3) ++ bit ext ++ bit unmapped ++ bit hasValue ++ recordKindBits kind

/-- CFG_ERR: IS_FIELD[24], CODE[23:16], IDX[15:0] (10_state.md R26). -/
def cfgErrWord (isField : Bool) (code : Byte) (idx : Nat) : Word :=
  (0 : BitVec 7) ++ bit isField ++ code ++ BitVec.ofNat 16 idx

/-- RD = WR (43_queue.md R233). -/
def queueEmpty (s : State) : Bool := s.rd == s.wr

/-- (k + 1) mod N, N = QCAP (43_queue.md R231). -/
def nextSlot (p : Params) (k : BitVec 16) : BitVec 16 := BitVec.ofNat 16 ((k.toNat + 1) % p.qcap)

/-- (WR + 1) mod N = RD (43_queue.md R234). -/
def queueFull (s : State) : Bool := nextSlot s.params s.wr == s.rd

/-- (WR - RD) mod N, the mathematical modulo (43_queue.md R235, 00_scope.md R10). -/
def queueSize (s : State) : Nat := (((s.wr.toNat : Int) - (s.rd.toNat : Int)) % (s.params.qcap : Int)).toNat

/-- STATUS: LAST_SUB[23:16], LAST_ERR[15:8], and the views Q_FULL, Q_EMPTY, DEC_ACTIVE, CFG_OK in bits 3..0
(10_state.md R25). -/
def statusRegister (s : State) : Word :=
  (0 : Byte) ++ s.lastSub ++ s.lastErr ++ (0 : BitVec 4)
    ++ bit (queueFull s) ++ bit (queueEmpty s) ++ bit s.decActive ++ bit s.cfgOk

/-- ENDIAN as a bit: 0 = LITTLE, 1 = BIG (10_state.md R24). -/
def endianBit : Endian → Bool
  | .little => false
  | .big => true

/-- The ENDIAN a bit stands for (10_state.md R24). -/
def endianOfBit (b : Bool) : Endian := if b then .big else .little

/-- CTRL as read: ENDIAN in bit 0, CLR_ERR and the reserved bits 0 (10_state.md R24). -/
def ctrlRegister (s : State) : Word := (0 : BitVec 31) ++ bit (endianBit s.endian)

/-- PARAM0: NC[31:16], NF[15:0] (10_state.md R23). -/
def param0Register (p : Params) : Word := BitVec.ofNat 16 p.nc ++ BitVec.ofNat 16 p.nf

/-- PARAM1: DBUF_SIZE[31:16], XT_SIZE[15:0] (10_state.md R23). -/
def param1Register (p : Params) : Word := BitVec.ofNat 16 p.dbufSize ++ BitVec.ofNat 16 p.xtSize

/-- PARAM2: SAMPLE_W[31:24], CMAX[23:16], QCAP[15:0] (10_state.md R23). -/
def param2Register (p : Params) : Word := BitVec.ofNat 8 p.sampleW ++ BitVec.ofNat 8 p.cmax ++ BitVec.ofNat 16 p.qcap

/-- ID (10_state.md R22). -/
def idRegister : Word := 0x46460007

end Sys2Proof.Machine
end

