-- ==== Sys2Proof/Machine/Operands.lean ====
section
/-! DEFINITION. The operand forms: descriptor words (spec/10_state.md R31 to R35), byte sequences as container integers
(spec/00_scope.md R12), indices as words, samples as words (spec/30_encoding.md R91, spec/43_queue.md R231, R232). -/

namespace Sys2Proof.Machine

/-- `zext_32` of an index or a queue size, each of them below 2^32 on a block with legal parameters (00_scope.md R8). -/
def indexWord (k : Nat) : Word := BitVec.ofNat 32 k

/-! ### Container descriptors (10_state.md R31) -/

/-- TYPE of a descriptor bit. -/
def containerTypeOf (b : Bool) : ContainerType := if b then .frame else .register

/-- The bit of a TYPE. -/
def containerTypeBit : ContainerType → Bool
  | .register => false
  | .frame => true

/-- PERM of two descriptor bits. -/
def permissionOf (b : BitVec 2) : Permission :=
  if b = 0 then .readOnly else if b = 1 then .writeOnly else if b = 2 then .readWrite else .reserved

/-- The two bits of a PERM. -/
def permissionBits : Permission → BitVec 2
  | .readOnly => 0
  | .writeOnly => 1
  | .readWrite => 2
  | .reserved => 3

/-- The descriptor a CFGC word holds (R31). -/
def containerOfWord (w : Word) : ContainerDesc :=
  { valid := w.getLsbD 0
    type := containerTypeOf (w.getLsbD 1)
    perm := permissionOf (w.extractLsb' 2 2)
    resv7to4 := w.extractLsb' 4 4
    size := w.extractLsb' 8 8
    addr := w.extractLsb' 16 7
    resv23 := w.getLsbD 23
    header := w.extractLsb' 24 8 }

/-- The 32-bit word that holds a descriptor (R31). -/
def wordOfContainer (d : ContainerDesc) : Word :=
  d.header ++ bit d.resv23 ++ d.addr ++ d.size ++ d.resv7to4 ++ permissionBits d.perm
    ++ bit (containerTypeBit d.type) ++ bit d.valid

/-- PayloadBytes of a descriptor: SIZE for a register, SIZE - 1 for a frame (20_memory.md R64; log 11
for a frame of SIZE 0). -/
def payloadBytes (d : ContainerDesc) : Nat :=
  match d.type with
  | .register => d.size.toNat
  | .frame => d.size.toNat - 1

/-- PayloadBits of a descriptor (20_memory.md R64). -/
def payloadBits (d : ContainerDesc) : Nat := 8 * payloadBytes d

/-! ### Field descriptors (10_state.md R32 to R35) -/

/-- KIND of two descriptor bits (R33). -/
def fieldKindOf (b : BitVec 2) : FieldKind :=
  if b = 0 then .config else if b = 1 then .data else if b = 2 then .framePayload else .command

/-- The two bits of a KIND. -/
def fieldKindBits : FieldKind → BitVec 2
  | .config => 0
  | .data => 1
  | .framePayload => 2
  | .command => 3

/-- XFORM of three descriptor bits (R34). -/
def xformOf (b : BitVec 3) : Xform :=
  if b = 0 then .identity else if b = 1 then .shl else if b = 2 then .table else if b = 3 then .external
  else .reserved (b.extractLsb' 0 2)

/-- The three bits of an XFORM. -/
def xformBits : Xform → BitVec 3
  | .identity => 0
  | .shl => 1
  | .table => 2
  | .external => 3
  | .reserved low => (1 : BitVec 1) ++ low

/-- ALLOW of two descriptor bits (R35). -/
def allowOf (b : BitVec 2) : AllowKind :=
  if b = 0 then .none else if b = 1 then .range else if b = 2 then .set else .reserved

/-- The two bits of an ALLOW. -/
def allowBits : AllowKind → BitVec 2
  | .none => 0
  | .range => 1
  | .set => 2
  | .reserved => 3

/-- The descriptor the eight CFGF words hold (R32). -/
def fieldOfWords (ws : FieldWords) : FieldDesc :=
  { cont := ws.w0.extractLsb' 0 8
    offset := ws.w0.extractLsb' 8 8
    width := ws.w0.extractLsb' 16 6
    kind := fieldKindOf (ws.w0.extractLsb' 22 2)
    xform := xformOf (ws.w0.extractLsb' 24 3)
    allow := allowOf (ws.w0.extractLsb' 27 2)
    defp := ws.w0.getLsbD 29
    valid := ws.w0.getLsbD 30
    resv31 := ws.w0.getLsbD 31
    xparam := ws.w1
    default := valueOfWords ws.w2 ws.w3
    alo := valueOfWords ws.w4 ws.w5
    ahi := valueOfWords ws.w6 ws.w7 }

/-- The eight words that hold a descriptor (R32). -/
def wordsOfField (d : FieldDesc) : FieldWords :=
  { w0 := bit d.resv31 ++ bit d.valid ++ bit d.defp ++ allowBits d.allow ++ xformBits d.xform ++ fieldKindBits d.kind
      ++ d.width ++ d.offset ++ d.cont
    w1 := d.xparam
    w2 := loWord d.default
    w3 := hiWord d.default
    w4 := loWord d.alo
    w5 := hiWord d.alo
    w6 := loWord d.ahi
    w7 := hiWord d.ahi }

/-- PACK_EN: the "writable kinds" config and command (R33). -/
def packEnabled (d : FieldDesc) : Bool :=
  match d.kind with
  | .config => true
  | .data => false
  | .framePayload => false
  | .command => true

/-- K, the scale of a SHL transform (R34). -/
def shlScale (d : FieldDesc) : Nat := d.xparam.toNat

/-- BASE = XPARAM[15:0] of a TABLE transform (R34). -/
def tableBase (d : FieldDesc) : Nat := (d.xparam.extractLsb' 0 16).toNat

/-- LEN = XPARAM[31:16] of a TABLE transform (R34). -/
def tableLen (d : FieldDesc) : Nat := (d.xparam.extractLsb' 16 16).toNat

/-! ### Byte sequences and container integers (00_scope.md R12) -/

/-- Σ b[k]·2^(8k): `BytesToInt` under LITTLE. -/
def littleToInt : List Byte → Nat
  | [] => 0
  | b :: bs => b.toNat + 256 * littleToInt bs

/-- `BytesToInt(b, e)`. -/
def bytesToInt (bytes : List Byte) : Endian → Nat
  | .little => littleToInt bytes
  | .big => littleToInt bytes.reverse

/-- The `n` bytes of an integer, the least significant first: `IntToBytes` under LITTLE. -/
def intToLittle : Nat → Nat → List Byte
  | _, 0 => []
  | x, n + 1 => BitVec.ofNat 8 x :: intToLittle (x / 256) n

/-- `IntToBytes(x, n, e)`. -/
def intToBytes (x n : Nat) : Endian → List Byte
  | .little => intToLittle x n
  | .big => (intToLittle x n).reverse

/-- The words of a container image: the payload bytes, packed into words (20_memory.md R62, R66). -/
def imageWords (x n : Nat) (e : Endian) : List Word := wordsOfBytes (intToBytes x n e)

/-! ### Samples (43_queue.md R231, R232) -/

/-- sample[SAMPLE_W-1:0]. -/
def truncSample (p : Params) (x : Sample) : Sample := BitVec.ofNat 256 (x.toNat % 2 ^ p.sampleW)

/-- A sample as SW result words, word 0 least significant. -/
def sampleResult (p : Params) (x : Sample) : List Word := wordsOfNat (sampleWords p) x.toNat

end Sys2Proof.Machine
end

