-- ==== Sys2Proof/Machine/Ops.lean ====
section
/-! DEFINITION. The named operations over the stores and the registers, and the two ends every command comes to: success and
`raise Status` (spec/44_control.md R263, spec/60_exceptions.md R281), which is what the block has in place of an exception. -/

namespace Sys2Proof.Machine

/-! ### Stores -/

/-- The entry listed at index `k`. -/
def tableFind {α : Type} : Table α → Nat → Option α
  | [], _ => none
  | (j, v) :: t, k => if j = k then some v else tableFind t k

/-- Write index `k`: the list stays in rising order and lists `k` once. -/
def tableWrite {α : Type} : Table α → Nat → α → Table α
  | [], k, v => [(k, v)]
  | (j, w) :: t, k, v =>
      if k < j then (k, v) :: (j, w) :: t
      else if k = j then (k, v) :: t
      else (j, w) :: tableWrite t k v

/-- The canonical form of a store of `size` entries: indices strictly rising and below `size`. -/
def tableWf {α : Type} (size : Nat) : Table α → Bool
  | [] => true
  | (k, _) :: t => decide (k < size) && t.all (fun e => decide (k < e.1)) && tableWf size t

/-- What an unlisted address of DBUF holds: no byte written since reset (10_state.md R37). It is no byte, so no listed
entry can equal it, and a write removes no entry. -/
def memoryUnlisted : Option Byte := none

/-- The byte written at `a` since reset, if any. -/
def memoryFind (m : List Host.Cell) (a : Nat) : Option Byte := (tableFind m a).or memoryUnlisted

/-- The canonical form of the decode buffer's memory: addresses strictly rising and below DBUF_SIZE. -/
def memoryWf (size : Nat) (m : List Host.Cell) : Bool := tableWf size m

/-- `MemWrite(DBUF, a, n, bytes)` (00_scope.md R11): the bytes at a, a + 1, ... -/
def memoryWrite : List Host.Cell → Nat → List Byte → List Host.Cell
  | m, _, [] => m
  | m, a, b :: bs => memoryWrite (tableWrite m a b) (a + 1) bs

/-- DBUF[a]: the byte written since reset, or else the free value drawn at reset (10_state.md R37; log 2). -/
def dbufAt (s : State) (a : Nat) : Byte := (memoryFind s.dbuf a).getD (Config.dbufDraw s.draw a)

/-- `MemRead(DBUF, a, n)` (00_scope.md R11). -/
def dbufRead (s : State) (a n : Nat) : List Byte := (List.range n).map fun k => dbufAt s (a + k)

/-- XT[k] (10_state.md R36; log 3). -/
def xtAt (s : State) (k : Nat) : HVal := (tableFind s.xt k).getD (Config.xtDraw s.draw k)

/-- SLOT[k] (10_state.md R38; log 4). -/
def slotAt (s : State) (k : Nat) : Sample :=
  (tableFind s.slots k).getD (truncSample s.params (Config.slotDraw s.draw k))

/-- A container descriptor with VALID 0, its other bits as they were. -/
def invalidContainer (d : ContainerDesc) : ContainerDesc := { d with valid := false }

/-- A field descriptor with VALID 0, its other bits as they were. -/
def invalidField (d : FieldDesc) : FieldDesc := { d with valid := false }

/-- CDT[c] before anything wrote it: VALID = 0, every other bit the free value (10_state.md R31; log 5). -/
def unwrittenContainer (s : State) (c : Nat) : ContainerDesc :=
  invalidContainer (containerOfWord (Config.cdtDraw s.draw c))

/-- CDT[c] (10_state.md R31). -/
def containerAt (s : State) (c : Nat) : ContainerDesc := (tableFind s.cdt c).getD (unwrittenContainer s c)

/-- FDT[f] before anything wrote it: VALID = 0, every other bit the free value (10_state.md R32; log 5). -/
def unwrittenField (s : State) (f : Nat) : FieldDesc :=
  let w (k : Nat) : Word := Config.fdtDraw s.draw f k
  invalidField (fieldOfWords ⟨w 0, w 1, w 2, w 3, w 4, w 5, w 6, w 7⟩)

/-- FDT[f] (10_state.md R32). -/
def fieldAt (s : State) (f : Nat) : FieldDesc := (tableFind s.fdt f).getD (unwrittenField s f)

/-- Container `c` exists: c < NC and CDT[c].VALID = 1 (60_exceptions.md R280, UNKNOWN_CONTAINER). -/
def containerExists (s : State) (c : Nat) : Bool := decide (c < s.params.nc) && (containerAt s c).valid

/-- Field `f` exists: f < NF and FDT[f].VALID = 1 (60_exceptions.md R280, UNKNOWN_FIELD). -/
def fieldExists (s : State) (f : Nat) : Bool := decide (f < s.params.nf) && (fieldAt s f).valid

/-- The container that owns field `f`. -/
def ownerOf (s : State) (f : Nat) : Nat := (fieldAt s f).cont.toNat

/-- Fields(c): the valid fields of container `c` in ascending order (41_config.md R172). -/
def fieldsOf (s : State) (c : Nat) : List Nat :=
  (List.range s.params.nf).filter fun f => (fieldAt s f).valid && decide (ownerOf s f = c)

/-- PayloadBytes(c) (00_scope.md R12). -/
def payloadOf (s : State) (c : Nat) : Nat := payloadBytes (containerAt s c)

/-- Container `c` is a valid frame whose header is `h`. -/
def isFrameOf (s : State) (h : Byte) (c : Nat) : Bool :=
  (containerAt s c).valid && decide ((containerAt s c).type = .frame) && decide ((containerAt s c).header = h)

/-- FrameOf(h) (41_config.md R178). In a committed Device Model it is unique; elsewhere the least such c (log 12). -/
def frameOf (s : State) (h : Byte) : Option Nat := (List.range s.params.nc).find? (isFrameOf s h)

/-! ### Registers -/

/-- The value of an implemented CSR (10_state.md R21 to R28); none for a reserved number (R29). -/
def csrRead (s : State) (csr : Byte) : Option Word :=
  match csr.toNat with
  | 0x00 => some idRegister
  | 0x01 => some (param0Register s.params)
  | 0x02 => some (param1Register s.params)
  | 0x03 => some (param2Register s.params)
  | 0x04 => some (ctrlRegister s)
  | 0x05 => some (statusRegister s)
  | 0x06 => some s.cfgErr
  | 0x08 => some (s.decLen.setWidth 32)
  | 0x09 => some (s.decPos.setWidth 32)
  | 0x0C => some (s.rd.setWidth 32)
  | 0x0D => some (s.wr.setWidth 32)
  | 0x0E => some s.discCnt
  | 0x0F => some s.discTs
  | _ => none

/-- The number of CTRL, the one CSR that can be written (44_control.md R262). -/
def ctrlNumber : Byte := 0x04

/-- What a write of `v` to CTRL does: ENDIAN from bit 0, and with bit 1 (CLR_ERR) the error registers become 0; bits
31..2 are ignored (44_control.md R262). -/
def writeCtrl (s : State) (v : Word) : State :=
  { s with
    endian := endianOfBit (v.getLsbD 0)
    lastErr := if v.getLsbD 1 then 0 else s.lastErr
    lastSub := if v.getLsbD 1 then 0 else s.lastSub }

/-- DISC_CNT + 1, saturating at 0xFFFFFFFF (43_queue.md R230). -/
def saturatingSucc (n : Word) : Word := BitVec.ofNat 32 (min (n.toNat + 1) 0xFFFFFFFF)

/-- Set the decoder's cursor, and DEC_ACTIVE with it: DEC_ACTIVE = (DEC_POS < DEC_LEN) (10_state.md R37). -/
def setCursor (s : State) (pos : Nat) : State :=
  { s with
    decPos := BitVec.ofNat 16 pos
    decActive := decide (pos < s.decLen.toNat) }

/-! ### The two ends of a command (44_control.md R263) -/

/-- Return one response to the host (30_encoding.md R82). -/
def respond (s : State) (r : Response) : State := { s with responses := s.responses ++ [r] }

/-- The response of a success: {OK, 0, flags, number of results} and the results (44_control.md R263). -/
def okResponse (flags : BitVec 4) (results : List Word) : Response :=
  { status := statusWord .ok 0 flags results.length, results := results }

/-- The response of a failure: {code, sub, FLAGS = 0, NRES = 1} and INFO (60_exceptions.md R281). -/
def failureResponse (f : Failure) : Response :=
  { status := statusWord f.code f.sub 0 1, results := [f.info] }

/-- A command succeeds: `s'` holds the writes of its rule (44_control.md R263). -/
def succeed (s' : State) (flags : BitVec 4) (results : List Word) : Host.Outcome State Fault Refusal :=
  .next (respond s' (okResponse flags results))

/-- The state after `raise Status(code, sub, info)`: LAST_ERR and LAST_SUB are written and the failure response is
returned, nothing else (60_exceptions.md R281, 00_scope.md R14). -/
def raiseState (s : State) (f : Failure) : State :=
  respond { s with lastErr := statusByte f.code, lastSub := f.sub } (failureResponse f)

/-- `raise Status(code, sub, info)` (60_exceptions.md R281). -/
def raise (s : State) (f : Failure) : Host.Outcome State Fault Refusal := .next (raiseState s f)

/-- INFO of BAD_LENGTH sub 1: the number of operand words received (60_exceptions.md R282). The spec states no INFO word for
a number of 2^32 or more; DESIGN CHOICE (log 15): a free value. -/
def countInfo (n : Nat) : Word := if n < 2 ^ 32 then BitVec.ofNat 32 n else Config.longCountInfo n

/-- The failure of a command that is not well formed (44_control.md R263): INFO is CW for ILLEGAL_OPCODE and the number
of operand words received, as `countInfo` (log 15), for BAD_LENGTH sub 1 (60_exceptions.md R282). -/
def decodeFailure (c : Command) : DecodeError → Failure
  | .illegalOpcode => ⟨.illegalOpcode, 1, c.cw⟩
  | .reservedField => ⟨.illegalOpcode, 2, c.cw⟩
  | .badLength => ⟨.badLength, 1, countInfo c.ops.length⟩

/-! ### What is presented on the port -/

/-- The next event on the port and the state in which it has been taken (00_scope.md R3; log 7). -/
def takeEvent (s : State) : Option (PortEvent × State) :=
  match s.port with
  | [] => none
  | e :: rest => some (e, { s with port := rest })

/-- The platform's reset event: every piece of state at its reset value, all at once, with a new draw of the
unspecified contents (70_reset_and_hazards.md R310, R311; log 9). -/
def resetEvent (s : State) : State := State.afterReset s.params (s.draw + 1) s.port s.responses

/-- Present a command as the next one on the port. -/
def presentCommand (s : State) (c : Command) : State := { s with port := .command c :: s.port }

end Sys2Proof.Machine
end

