-- ==== Sys2Proof/Machine/Control.lean ====
section
/-! DEFINITION. The control commands NOP, CSRR and CSRW (spec/44_control.md R260 to R262). -/

namespace Sys2Proof.Machine

/-- `NOP` (44_control.md R260). -/
def execNop (s : State) : Host.Outcome State Fault Refusal := succeed s 0 []

/-- `CSRR csr` (44_control.md R261). -/
def execCsrr (csr : Byte) (s : State) : Host.Outcome State Fault Refusal :=
  match csrRead s csr with
  | none => raise s ⟨.badCsr, 1, csr.setWidth 32⟩
  | some v => succeed s 0 [v]

/-- `CSRW csr, v` (44_control.md R262). -/
def execCsrw (csr : Byte) (v : Word) (s : State) : Host.Outcome State Fault Refusal :=
  if (csrRead s csr).isNone then raise s ⟨.badCsr, 1, csr.setWidth 32⟩
  else if csr ≠ ctrlNumber then raise s ⟨.badCsr, 2, csr.setWidth 32⟩
  else if s.cfgOk && (v.getLsbD 0 != endianBit s.endian) then raise s ⟨.locked, 0, csr.setWidth 32⟩
  else succeed (writeCtrl s v) 0 []

end Sys2Proof.Machine
end

