-- ==== Sys2Proof/Machine/DeviceModel.lean ====
section
/-! DEFINITION. The configuration commands CFGCLR, CFGC, CFGF, CFGX and CFGCOMMIT and the seven commit checks
(spec/41_config.md R170 to R183). -/

namespace Sys2Proof.Machine

/-! ### The commit checks (41_config.md R183) -/

/-- A failed commit check: IS_FIELD, the check code and the offending index (10_state.md R26). -/
structure CommitFailure where
  isField : Bool
  code : Byte
  idx : Nat
deriving DecidableEq, Repr

/-- Check 1 fails for a valid container: its SIZE or its PERM is out of range. -/
def badContainer (p : Params) (d : ContainerDesc) : Bool :=
  match d.type with
  | .register => decide (d.size.toNat < 1) || decide (p.cmax < d.size.toNat) || decide (d.perm = .reserved)
  | .frame => decide (d.size.toNat < 1) || decide (p.cmax + 1 < d.size.toNat)

/-- Check 2 fails for `c2`: it is a valid frame and so is some c1 < c2 with the same HEADER. -/
def duplicateHeader (s : State) (c2 : Nat) : Bool :=
  let h := (containerAt s c2).header
  isFrameOf s h c2 && (List.range c2).any (isFrameOf s h)

/-- 2^63 - 1, the greatest `s64`. -/
def maxHuman : Nat := 2 ^ 63 - 1

/-- K·2^(2^WIDTH - 1) <= 2^63 - 1, for K >= 1, computed exactly: from WIDTH = 6 on the power alone is at least 2^63. -/
def shlFits (k width : Nat) : Bool := decide (width ≤ 5) && decide (k * 2 ^ (2 ^ width - 1) ≤ maxHuman)

/-- Check 6 fails: a reserved transform, or parameters out of range. -/
def badXform (p : Params) (d : FieldDesc) : Bool :=
  match d.xform with
  | .identity => false
  | .external => false
  | .shl => decide (shlScale d = 0) || !shlFits (shlScale d) d.width.toNat
  | .table =>
      decide (tableLen d < 1) || decide (2 ^ d.width.toNat < tableLen d)
        || decide (p.xtSize < tableBase d + tableLen d)
  | .reserved _ => true

/-- Check 7 fails: a reserved allowed-set kind, or parameters out of range; the sums are exact. -/
def badAllow (p : Params) (d : FieldDesc) : Bool :=
  match d.allow with
  | .none => false
  | .range => decide (d.ahi.toInt < d.alo.toInt)
  | .set =>
      decide (d.ahi.toInt < 1) || decide (d.alo.toInt < 0) || decide ((p.xtSize : Int) < d.alo.toInt + d.ahi.toInt)
  | .reserved => true

/-- The first of checks 3 to 7 that fails for a valid field. -/
def fieldCheck (s : State) (d : FieldDesc) : Option Byte :=
  let c := d.cont.toNat
  let owner := containerAt s c
  if !containerExists s c then some 3
  else if decide (d.kind = .framePayload) != decide (owner.type = .frame) then some 4
  else if decide (d.width.toNat < 1) || decide (payloadBits owner < d.offset.toNat + d.width.toNat) then some 5
  else if badXform s.params d then some 6
  else if badAllow s.params d then some 7
  else none

/-- Check 1 over every valid container, ascending. -/
def checkContainers (s : State) : Option CommitFailure :=
  ((List.range s.params.nc).find? fun c => (containerAt s c).valid && badContainer s.params (containerAt s c)).map
    fun c => ⟨false, 1, c⟩

/-- Check 2 over every valid frame, ascending. -/
def checkHeaders (s : State) : Option CommitFailure :=
  ((List.range s.params.nc).find? (duplicateHeader s)).map fun c => ⟨false, 2, c⟩

/-- Checks 3 to 7 of field `f`, if it is valid. -/
def checkField (s : State) (f : Nat) : Option CommitFailure :=
  if (fieldAt s f).valid then (fieldCheck s (fieldAt s f)).map fun code => ⟨true, code, f⟩ else none

/-- Checks 3 to 7 over every valid field, ascending. -/
def checkFields (s : State) : Option CommitFailure := (List.range s.params.nf).findSome? (checkField s)

/-- The first failing check in the scan order of R183; none where the descriptors form a Device Model. -/
def commitCheck (s : State) : Option CommitFailure :=
  ((checkContainers s).or (checkHeaders s)).or (checkFields s)

/-- The new CFG_ERR word of a failed commit (R183). -/
def commitWord (e : CommitFailure) : Word := cfgErrWord e.isField e.code e.idx

/-- `fail(code, idx, isf)`: CFG_ERR, then `raise Status(CONFIG_ERROR, code, CFG_ERR)` (R183). -/
def raiseCommit (s : State) (e : CommitFailure) : Host.Outcome State Fault Refusal :=
  raise { s with cfgErr := commitWord e } ⟨.configError, e.code, commitWord e⟩

/-! ### The commands -/

/-- CDT with every VALID 0, the other bits as they were. -/
def invalidateContainers (t : Table ContainerDesc) : Table ContainerDesc :=
  t.map fun e => (e.1, invalidContainer e.2)

/-- FDT with every VALID 0, the other bits as they were. -/
def invalidateFields (t : Table FieldDesc) : Table FieldDesc :=
  t.map fun e => (e.1, invalidField e.2)

/-- The state CFGCLR leaves (41_config.md R174). -/
def clearModel (s : State) : State :=
  { s with
    cdt := invalidateContainers s.cdt
    fdt := invalidateFields s.fdt
    cfgOk := false
    cfgErr := 0
    decLen := 0
    decPos := 0
    decActive := false }

/-- `CFGCLR` (41_config.md R174). -/
def execCfgclr (s : State) : Host.Outcome State Fault Refusal := succeed (clearModel s) 0 []

/-- `CFGC c, word` (41_config.md R175). -/
def execCfgc (c : Byte) (word : Word) (s : State) : Host.Outcome State Fault Refusal :=
  if s.cfgOk then raise s ⟨.locked, 0, 0⟩
  else if s.params.nc ≤ c.toNat then raise s ⟨.unknownContainer, 1, c.setWidth 32⟩
  else succeed { s with cdt := tableWrite s.cdt c.toNat (containerOfWord word) } 0 []

/-- `CFGF f, w0, ..., w7` (41_config.md R176). -/
def execCfgf (f : Byte) (ws : FieldWords) (s : State) : Host.Outcome State Fault Refusal :=
  if s.cfgOk then raise s ⟨.locked, 0, 0⟩
  else if s.params.nf ≤ f.toNat then raise s ⟨.unknownField, 1, f.setWidth 32⟩
  else succeed { s with fdt := tableWrite s.fdt f.toNat (fieldOfWords ws) } 0 []

/-- `CFGX idx, value64` (41_config.md R177). -/
def execCfgx (idx : BitVec 16) (value : HVal) (s : State) : Host.Outcome State Fault Refusal :=
  if s.cfgOk then raise s ⟨.locked, 0, 0⟩
  else if s.params.xtSize ≤ idx.toNat then raise s ⟨.badLength, 3, idx.setWidth 32⟩
  else succeed { s with xt := tableWrite s.xt idx.toNat value } 0 []

/-- `CFGCOMMIT` (41_config.md R183). -/
def execCfgcommit (s : State) : Host.Outcome State Fault Refusal :=
  if s.cfgOk then raise s ⟨.locked, 0, 0⟩
  else
    match commitCheck s with
    | some e => raiseCommit s e
    | none => succeed { s with cfgOk := true, cfgErr := 0 } 0 []

end Sys2Proof.Machine
end

