-- ==== Sys2Proof/Machine/Codec.lean ====
section
/-! DEFINITION. The codec: the field primitives Unpack and Pack, the container merge, and the commands FUNPACK, FPACK, CUNPACK,
CPACKU and CPACKR (spec/40_codec.md R120 to R136). A container integer is an exact natural number (log 13). -/

namespace Sys2Proof.Machine

/-! ### Unpack (40_codec.md R121, R122, R125) -/

/-- mask(W) = (1 << W) - 1 (00_scope.md R10). -/
def mask (w : Nat) : Nat := (1 <<< w) - 1

/-- `FieldRaw(f, cint)` = (cint >> O) & mask(W) (R121). -/
def fieldRaw (d : FieldDesc) (cint : Nat) : Nat := (cint >>> d.offset.toNat) &&& mask d.width.toNat

/-- What Unpack returns: a human value and its flags. -/
structure Unpacked where
  value : HVal
  unmapped : Bool
  ext : Bool
deriving DecidableEq, Repr

/-- `XUnpack(f, r)` (R122). -/
def xUnpack (s : State) (d : FieldDesc) (r : Nat) : Unpacked :=
  match d.xform with
  | .identity => ⟨BitVec.ofNat 64 r, false, false⟩
  | .shl => ⟨BitVec.ofNat 64 (shlScale d * 2 ^ r), false, false⟩
  | .table =>
      if r < tableLen d then ⟨xtAt s (tableBase d + r), false, false⟩ else ⟨BitVec.ofNat 64 r, true, false⟩
  | .external => ⟨BitVec.ofNat 64 r, false, true⟩
  | .reserved low => ⟨Config.reservedUnpack low r, false, false⟩

/-- `Unpack(f, cint)` (R125). -/
def unpackField (s : State) (f cint : Nat) : Unpacked := xUnpack s (fieldAt s f) (fieldRaw (fieldAt s f) cint)

/-! ### Pack (40_codec.md R122, R123, R124, R126) -/

/-- `Allowed(f, hv)` (R124). -/
def allowed (s : State) (d : FieldDesc) (hv : HVal) : Bool :=
  match d.allow with
  | .none => true
  | .range => decide (d.alo.toInt ≤ hv.toInt) && decide (hv.toInt ≤ d.ahi.toInt)
  | .set => (List.range d.ahi.toInt.toNat).any fun j => xtAt s (d.alo.toInt + (j : Int)).toNat == hv
  | .reserved => Config.reservedAllowed d.alo d.ahi hv

/-- The e in 0..2^W - 1 with K·2^e = hv. An `s64` is below 2^63, so an e of 63 or more never fits K >= 1
(log 11). -/
def shlExponent (k width : Nat) (hv : HVal) : Option Nat :=
  (List.range (min (2 ^ width) 63)).find? fun e => decide (((k * 2 ^ e : Nat) : Int) = hv.toInt)

/-- The smallest j in 0..LEN-1 with XT[BASE + j] = hv. -/
def tableIndex (s : State) (base len : Nat) (hv : HVal) : Option Nat :=
  (List.range len).find? fun j => xtAt s (base + j) == hv

/-- `XPack(f, hv)`; none where the value has no raw encoding (R122). -/
def xPack (s : State) (d : FieldDesc) (hv : HVal) : Option Nat :=
  match d.xform with
  | .identity => some hv.toNat
  | .shl => shlExponent (shlScale d) d.width.toNat hv
  | .table => tableIndex s (tableBase d) (tableLen d) hv
  | .external => some hv.toNat
  | .reserved low => some (Config.reservedPack low hv)

/-- The human value a write resolves to; none for a default that the field does not have (R123). -/
def resolveArg (d : FieldDesc) : FieldArg → Option HVal
  | .useDefault => if d.defp then some d.default else none
  | .value v => some v

/-- A packed field: its bits in place, and the human value they stand for. -/
structure Packed where
  partialInt : Nat
  value : HVal
deriving DecidableEq, Repr

/-- `Pack(f, ud, v)`: default, allowed set, transform, mask, shift, in this order (R126). -/
def packField (s : State) (f : Nat) (arg : FieldArg) : Except Failure Packed :=
  let d := fieldAt s f
  match resolveArg d arg with
  | none => .error ⟨.invalidValue, 2, indexWord f⟩
  | some hv =>
      if !allowed s d hv then .error ⟨.invalidValue, 1, indexWord f⟩
      else
        match xPack s d hv with
        | none => .error ⟨.invalidValue, 3, indexWord f⟩
        | some r => .ok ⟨(r &&& mask d.width.toNat) <<< d.offset.toNat, hv⟩

/-! ### ContainerPack (40_codec.md R127) -/

/-- UPDATE, over the current container integer, or REPLACE. -/
inductive MergeMode where
  | update (cur : Nat)
  | replace
deriving DecidableEq, Repr

/-- The base or the overlay of one field: UNMAP, or a value to pack. -/
inductive MergeValue where
  | unmap
  | write (arg : FieldArg)
deriving DecidableEq, Repr

/-- The merge base of field `f`: its current value, UNMAP where that has no table entry, or its default. -/
def mergeBase (s : State) (mode : MergeMode) (f : Nat) : MergeValue :=
  match mode with
  | .update cur =>
      let u := unpackField s f cur
      if u.unmapped then .unmap else .write (.value u.value)
  | .replace => .write .useDefault

/-- The overlay: a later override of `f` wins. -/
def overlay (base : MergeValue) (ovr : List Override) (f : Nat) : MergeValue :=
  ovr.foldl (fun b o => if o.field.toNat = f then .write o.arg else b) base

/-- One entry of the view: the field, its resolved value, EXT. -/
structure ViewEntry where
  field : Nat
  value : HVal
  ext : Bool
deriving DecidableEq, Repr

/-- A packed container: the image's integer and the view. -/
structure Merged where
  image : Nat
  view : List ViewEntry
deriving DecidableEq, Repr

/-- EXT of a view entry: the field's transform is EXTERNAL. -/
def isExternal (d : FieldDesc) : Bool := decide (d.xform = .external)

/-- The packing loop of ContainerPack over the fields in order; the first failure ends it. -/
def mergeFields (s : State) (mode : MergeMode) (ovr : List Override) : List Nat → Except Failure Merged
  | [] => .ok ⟨0, []⟩
  | f :: fs =>
      match overlay (mergeBase s mode f) ovr f with
      | .unmap => .error ⟨.invalidValue, 3, indexWord f⟩
      | .write arg =>
          match packField s f arg with
          | .error e => .error e
          | .ok pk =>
              match mergeFields s mode ovr fs with
              | .error e => .error e
              | .ok m => .ok ⟨pk.partialInt ||| m.image, ⟨f, pk.value, isExternal (fieldAt s f)⟩ :: m.view⟩

/-- `ContainerPack(c, mode, cur, ovr)`: writability of every field first, then the merge (R127). -/
def containerPack (s : State) (c : Nat) (mode : MergeMode) (ovr : List Override) : Except Failure Merged :=
  match (fieldsOf s c).find? fun f => !packEnabled (fieldAt s f) with
  | some f => .error ⟨.notWritable, 1, indexWord f⟩
  | none => mergeFields s mode ovr (fieldsOf s c)

/-! ### The checks the commands share -/

/-- The failure of an override entry that names no valid field of container `c` (R133). -/
def overrideFailure (s : State) (c : Nat) (o : Override) : Option Failure :=
  if !fieldExists s o.field.toNat then some ⟨.unknownField, 1, o.field.setWidth 32⟩
  else if ownerOf s o.field.toNat ≠ c then some ⟨.unknownField, 2, o.field.setWidth 32⟩
  else none

/-- A frame or a read-only register cannot be written whole (R133). -/
def containerWritable (d : ContainerDesc) : Bool :=
  match d.type with
  | .frame => false
  | .register => decide (d.perm ≠ .readOnly)

/-- The three words of a view entry (30_encoding.md R87). -/
def entryWords (f : Nat) (unmapped ext : Bool) (value : HVal) : List Word :=
  [viewWord f unmapped ext, loWord value, hiWord value]

/-- The result words of a packed container: the image, then the view (R133). -/
def mergedWords (s : State) (c : Nat) (m : Merged) : List Word :=
  imageWords m.image (payloadOf s c) s.endian ++ m.view.flatMap fun e => entryWords e.field false e.ext e.value

/-- The end CPACKU and CPACKR share: the overrides' fields, then ContainerPack (R133, R134). -/
def finishPack (s : State) (c : Nat) (mode : MergeMode) (ovr : List Override) : Host.Outcome State Fault Refusal :=
  match ovr.findSome? (overrideFailure s c) with
  | some e => raise s e
  | none =>
      match containerPack s c mode ovr with
      | .error e => raise s e
      | .ok m => succeed s 0 (mergedWords s c m)

/-- The view entry of an unpacked field (R132). -/
def unpackedEntry (s : State) (cint f : Nat) : List Word :=
  let u := unpackField s f cint
  entryWords f u.unmapped u.ext u.value

/-! ### The commands -/

/-- `FUNPACK f, [bytes]` (40_codec.md R130). -/
def execFunpack (f : Byte) (bytes : List Byte) (s : State) : Host.Outcome State Fault Refusal :=
  if !s.cfgOk then raise s ⟨.notConfigured, 0, 0⟩
  else if !fieldExists s f.toNat then raise s ⟨.unknownField, 1, f.setWidth 32⟩
  else if bytes.length ≠ payloadOf s (ownerOf s f.toNat) then raise s ⟨.badLength, 2, f.setWidth 32⟩
  else
    let u := unpackField s f.toNat (bytesToInt bytes s.endian)
    succeed s (flagsField false u.unmapped u.ext) [loWord u.value, hiWord u.value]

/-- `FPACK f, value` and `FPACK f, DEFAULT` (40_codec.md R131). -/
def execFpack (f : Byte) (arg : FieldArg) (s : State) : Host.Outcome State Fault Refusal :=
  if !s.cfgOk then raise s ⟨.notConfigured, 0, 0⟩
  else if !fieldExists s f.toNat then raise s ⟨.unknownField, 1, f.setWidth 32⟩
  else if !packEnabled (fieldAt s f.toNat) then raise s ⟨.notWritable, 1, f.setWidth 32⟩
  else
    match packField s f.toNat arg with
    | .error e => raise s e
    | .ok pk => succeed s 0 (imageWords pk.partialInt (payloadOf s (ownerOf s f.toNat)) s.endian)

/-- `CUNPACK c, [bytes]` (40_codec.md R132). -/
def execCunpack (c : Byte) (bytes : List Byte) (s : State) : Host.Outcome State Fault Refusal :=
  if !s.cfgOk then raise s ⟨.notConfigured, 0, 0⟩
  else if !containerExists s c.toNat then raise s ⟨.unknownContainer, 1, c.setWidth 32⟩
  else if bytes.length ≠ payloadOf s c.toNat then raise s ⟨.badLength, 2, c.setWidth 32⟩
  else succeed s 0 ((fieldsOf s c.toNat).flatMap (unpackedEntry s (bytesToInt bytes s.endian)))

/-- `CPACKU c, [bytes], overrides` (40_codec.md R133). -/
def execCpacku (c : Byte) (bytes : List Byte) (ovr : List Override) (s : State) : Host.Outcome State Fault Refusal :=
  if !s.cfgOk then raise s ⟨.notConfigured, 0, 0⟩
  else if !containerExists s c.toNat then raise s ⟨.unknownContainer, 1, c.setWidth 32⟩
  else if !containerWritable (containerAt s c.toNat) then raise s ⟨.notWritable, 2, c.setWidth 32⟩
  else if bytes.length ≠ payloadOf s c.toNat then raise s ⟨.badLength, 2, c.setWidth 32⟩
  else finishPack s c.toNat (.update (bytesToInt bytes s.endian)) ovr

/-- `CPACKR c, overrides` (40_codec.md R134). -/
def execCpackr (c : Byte) (ovr : List Override) (s : State) : Host.Outcome State Fault Refusal :=
  if !s.cfgOk then raise s ⟨.notConfigured, 0, 0⟩
  else if !containerExists s c.toNat then raise s ⟨.unknownContainer, 1, c.setWidth 32⟩
  else if !containerWritable (containerAt s c.toNat) then raise s ⟨.notWritable, 2, c.setWidth 32⟩
  else finishPack s c.toNat .replace ovr

end Sys2Proof.Machine
end

