-- ==== Sys2Proof/Machine/FrameDecoder.lean ====
section
/-! DEFINITION. The frame decoder: DBWR, DBRD, DSTART and DNEXT (spec/42_decoder.md R200 to R210) and the decode record
(spec/30_encoding.md R92). -/

namespace Sys2Proof.Machine

/-- A DBUF range a .. a+n-1 that DBWR and DBRD take: n >= 1 and a + n <= DBUF_SIZE, without wrap-around (R200, R201). -/
def rangeFits (p : Params) (a n : Nat) : Bool := decide (1 ≤ n) && decide (a + n ≤ p.dbufSize)

/-- The four record words (30_encoding.md R92). -/
def recordWords (rec0 : Word) (pos : BitVec 16) (value : HVal) : List Word :=
  [rec0, pos.setWidth 32, loWord value, hiWord value]

/-- The record of a decode that has ended (R204). -/
def endRecord (s : State) : List Word := recordWords (recordWord .done false false false 0 0) s.decPos 0

/-- The record of a byte that is no known header (R204). -/
def invalidRecord (s : State) (h : Byte) : List Word := recordWords (recordWord .invalid false false false 0 h) s.decPos 0

/-- The record of a frame that runs past DEC_LEN (R206). -/
def truncRecord (s : State) (c : Nat) (h : Byte) : List Word :=
  recordWords (recordWord .trunc false false false (BitVec.ofNat 8 c) h) s.decPos 0

/-- The FRAME record: the value of the first field of the frame's container, if it has one (R205). -/
def frameRecord (s : State) (c : Nat) (h : Byte) (cint : Nat) : List Word :=
  match fieldsOf s c with
  | [] => recordWords (recordWord .frame false false false (BitVec.ofNat 8 c) h) s.decPos 0
  | f :: _ =>
      let u := unpackField s f cint
      recordWords (recordWord .frame true u.unmapped u.ext (BitVec.ofNat 8 c) h) s.decPos u.value

/-- The payload integer of a frame of container `c` that starts at position `i` (R204). -/
def framePayload (s : State) (c i : Nat) : Nat := bytesToInt (dbufRead s (i + 1) (payloadOf s c)) s.endian

/-- The next record of an active decode, and the cursor after it (R204). -/
def decodeStep (s : State) : List Word × Nat :=
  let i := s.decPos.toNat
  let h := dbufAt s i
  match frameOf s h with
  | none => (invalidRecord s h, i + 1)
  | some c =>
      let size := (containerAt s c).size.toNat
      if s.decLen.toNat < i + size then (truncRecord s c h, s.decLen.toNat)
      else (frameRecord s c h (framePayload s c i), i + size)

/-- `DBWR addr, [bytes]` (42_decoder.md R200). -/
def execDbwr (a : Word) (bytes : List Byte) (s : State) : Host.Outcome State Fault Refusal :=
  if s.decActive then raise s ⟨.busy, 0, 0⟩
  else if !rangeFits s.params a.toNat bytes.length then raise s ⟨.badLength, 3, a⟩
  else succeed { s with dbuf := memoryWrite s.dbuf a.toNat bytes } 0 []

/-- `DBRD addr, n` (42_decoder.md R201). -/
def execDbrd (a : Word) (n : Byte) (s : State) : Host.Outcome State Fault Refusal :=
  if !rangeFits s.params a.toNat n.toNat then raise s ⟨.badLength, 3, a⟩
  else succeed s 0 (wordsOfBytes (dbufRead s a.toNat n.toNat))

/-- `DSTART len` (42_decoder.md R203). -/
def execDstart (len : Word) (s : State) : Host.Outcome State Fault Refusal :=
  if !s.cfgOk then raise s ⟨.notConfigured, 0, 0⟩
  else if s.params.dbufSize < len.toNat then raise s ⟨.badLength, 3, len⟩
  else succeed (setCursor { s with decLen := BitVec.ofNat 16 len.toNat } 0) 0 []

/-- `DNEXT` (42_decoder.md R204). -/
def execDnext (s : State) : Host.Outcome State Fault Refusal :=
  if !s.cfgOk then raise s ⟨.notConfigured, 0, 0⟩
  else if !s.decActive then succeed s 0 (endRecord s)
  else succeed (setCursor s (decodeStep s).2) 0 (decodeStep s).1

end Sys2Proof.Machine
end

