-- ==== Sys2Proof/Machine/Queue.lean ====
section
/-! DEFINITION. The bounded sample queue: QPUT, QGET, QSIZE, QEMPTY, QFULL, QRESET and QDISC (spec/43_queue.md R230 to R242). -/

namespace Sys2Proof.Machine

/-- The slot write and the advance of WR of a QPUT (43_queue.md R231). -/
def enqueue (s : State) (sample : Sample) : State :=
  { s with
    slots := tableWrite s.slots s.wr.toNat (truncSample s.params sample)
    wr := nextSlot s.params s.wr }

/-- The eviction of a QPUT that filled the last slot: the oldest sample goes and is counted (43_queue.md R230, R231). -/
def evict (s : State) (ts : Word) : State :=
  { s with
    rd := nextSlot s.params s.rd
    discCnt := saturatingSucc s.discCnt
    discTs := ts }

/-- A result word that is 1 or 0. -/
def boolWord (b : Bool) : Word := if b then 1 else 0

/-- `QPUT [sample], ts` (43_queue.md R231). -/
def execQput (sample : Sample) (ts : Word) (s : State) : Host.Outcome State Fault Refusal :=
  let s' := enqueue s sample
  succeed (if s'.wr = s'.rd then evict s' ts else s') 0 []

/-- `QGET` (43_queue.md R232). -/
def execQget (s : State) : Host.Outcome State Fault Refusal :=
  if queueEmpty s then succeed s (flagsField true false false) []
  else succeed { s with rd := nextSlot s.params s.rd } 0 (sampleResult s.params (slotAt s s.rd.toNat))

/-- `QSIZE` (43_queue.md R235). -/
def execQsize (s : State) : Host.Outcome State Fault Refusal := succeed s 0 [indexWord (queueSize s)]

/-- `QEMPTY` (43_queue.md R233). -/
def execQempty (s : State) : Host.Outcome State Fault Refusal := succeed s 0 [boolWord (queueEmpty s)]

/-- `QFULL` (43_queue.md R234). -/
def execQfull (s : State) : Host.Outcome State Fault Refusal := succeed s 0 [boolWord (queueFull s)]

/-- `QRESET` (43_queue.md R236). -/
def execQreset (s : State) : Host.Outcome State Fault Refusal := succeed { s with rd := 0, wr := 0 } 0 []

/-- `QDISC` (43_queue.md R237). -/
def execQdisc (s : State) : Host.Outcome State Fault Refusal :=
  succeed { s with discCnt := 0, discTs := 0 } 0 [s.discCnt, s.discTs]

end Sys2Proof.Machine
end

