-- ==== Sys2Proof/Machine/Dispatch.lean ====
section
/-! DEFINITION. One arm per command (spec/30_encoding.md R88). -/

namespace Sys2Proof.Machine

/-- The effect of a decoded command. -/
def exec (i : Instr) (s : State) : Host.Outcome State Fault Refusal :=
  match i with
  | .nop => Sys2Proof.Machine.execNop s
  | .csrr csr => Sys2Proof.Machine.execCsrr csr s
  | .csrw csr v => Sys2Proof.Machine.execCsrw csr v s
  | .cfgclr => Sys2Proof.Machine.execCfgclr s
  | .cfgc c word => Sys2Proof.Machine.execCfgc c word s
  | .cfgf f ws => Sys2Proof.Machine.execCfgf f ws s
  | .cfgx idx value => Sys2Proof.Machine.execCfgx idx value s
  | .cfgcommit => Sys2Proof.Machine.execCfgcommit s
  | .funpack f bytes => Sys2Proof.Machine.execFunpack f bytes s
  | .fpack f arg => Sys2Proof.Machine.execFpack f arg s
  | .cunpack c bytes => Sys2Proof.Machine.execCunpack c bytes s
  | .cpacku c bytes ovr => Sys2Proof.Machine.execCpacku c bytes ovr s
  | .cpackr c ovr => Sys2Proof.Machine.execCpackr c ovr s
  | .dbwr a bytes => Sys2Proof.Machine.execDbwr a bytes s
  | .dbrd a n => Sys2Proof.Machine.execDbrd a n s
  | .dstart len => Sys2Proof.Machine.execDstart len s
  | .dnext => Sys2Proof.Machine.execDnext s
  | .qput sample ts => Sys2Proof.Machine.execQput sample ts s
  | .qget => Sys2Proof.Machine.execQget s
  | .qsize => Sys2Proof.Machine.execQsize s
  | .qempty => Sys2Proof.Machine.execQempty s
  | .qfull => Sys2Proof.Machine.execQfull s
  | .qreset => Sys2Proof.Machine.execQreset s
  | .qdisc => Sys2Proof.Machine.execQdisc s

end Sys2Proof.Machine
end

