-- ==== Sys2Proof/Machine/Port.lean ====
section
/-! DEFINITION. What the block does with one event of its port: the command step of spec/44_control.md R263 and the reset event
of spec/70_reset_and_hazards.md R310. -/

namespace Sys2Proof.Machine

/-- A command that has been taken from the port: the generic checks, then its rule (R263). -/
def runCommand (c : Command) (s : State) : Host.Outcome State Fault Refusal :=
  match decode s.params c with
  | .error e => raise s (decodeFailure c e)
  | .ok i => exec i s

/-- An event that has been taken from the port. -/
def runEvent (e : PortEvent) (s : State) : Host.Outcome State Fault Refusal :=
  match e with
  | .command c => runCommand c s
  | .reset => .next (resetEvent s)

end Sys2Proof.Machine
end

