-- ==== Sys2Proof/Machine/Step.lean ====
section
/-! DEFINITION. One step: the next event on the port is taken and runs to completion (spec/44_control.md R263, R264). -/

namespace Sys2Proof.Machine

/-- One step. With nothing presented the block "holds its state and does nothing" (60_exceptions.md R295). -/
def step (s : State) : Host.Outcome State Fault Refusal :=
  match takeEvent s with
  | none => .next s
  | some (e, s') => runEvent e s'

/-- `s` with the command whose bits are `w` presented as the next one on the port (log 7). -/
def State.withFetchWord (s : State) (nbits w : Nat) : State := presentCommand s (commandOfBits s.params nbits w)

end Sys2Proof.Machine
end

