-- ==== Sys2Proof/Safety.lean ====
section
/-! DEFINITION. What counts as a safe state and a safe run: the invariants the spec states of the block after every command
(spec/10_state.md R37, R38; spec/43_queue.md R238; spec/41_config.md R183 for a committed Device Model). -/

namespace Sys2Proof.Machine

/-- The invariant of the stores: each lists its indices in canonical form and inside its size, and every stored sample
is SAMPLE_W bits wide (20_memory.md R60, R61; 10_state.md R38). -/
def storesWf (s : State) : Bool :=
  tableWf s.params.nc s.cdt && tableWf s.params.nf s.fdt && tableWf s.params.xtSize s.xt
    && memoryWf s.params.dbufSize s.dbuf && tableWf s.params.qcap s.slots
    && s.slots.all fun e => decide (e.2.toNat < 2 ^ s.params.sampleW)

/-- The decoder's invariant: DEC_ACTIVE = (DEC_POS < DEC_LEN), DEC_POS <= DEC_LEN <= DBUF_SIZE, and a decode needs a
committed Device Model (10_state.md R37; 42_decoder.md R209; 41_config.md R174). -/
def decoderWf (s : State) : Bool :=
  (s.decActive == decide (s.decPos.toNat < s.decLen.toNat)) && decide (s.decPos.toNat ≤ s.decLen.toNat)
    && decide (s.decLen.toNat ≤ s.params.dbufSize) && (s.cfgOk || !s.decActive)

/-- The slot of the j-th live sample (10_state.md R38). -/
def liveSlot (s : State) (j : Nat) : Nat := (s.rd.toNat + j) % s.params.qcap

/-- The live samples, oldest first: SLOT[RD], SLOT[RD+1], ..., up to but not including SLOT[WR] (10_state.md R38). -/
def liveSamples (s : State) : List Sample := (List.range (queueSize s)).map fun j => slotAt s (liveSlot s j)

/-- The queue's invariant: both cursors are slots, and every live slot was written by a QPUT since reset (43_queue.md
R238; 93_implementation_defined.md I3). -/
def queueWf (s : State) : Bool :=
  decide (s.rd.toNat < s.params.qcap) && decide (s.wr.toNat < s.params.qcap)
    && (List.range (queueSize s)).all fun j => (tableFind s.slots (liveSlot s j)).isSome

/-- CFG_OK = 1 only over descriptors that pass every commit check (10_state.md R30). -/
def modelWf (s : State) : Bool := !s.cfgOk || (commitCheck s).isNone

/-- The state invariant of the block. -/
def State.inv (s : State) : Bool :=
  s.params.legal && storesWf s && decoderWf s && queueWf s && modelWf s

/-- A run of `k` steps ends in a next state: "no behaviour of the block traps or hangs" (93_implementation_defined.md). -/
def runsOn (s : State) : Nat → Prop
  | 0 => True
  | k + 1 => ∃ t, step s = .next t ∧ runsOn t k

end Sys2Proof.Machine
end

