-- ==== Sys2Proof/Certificates/Slice0/Obligations.lean ====
section
/-! DEFINITION. The statements for the provers. Each says what a rule of spec/ says of the model; the definitions before them
write the rules' own terms (a transform, an allowed set, the commit checks, a run of commands) once, as propositions.
The fields `params`, `draw`, `port` and `responses` of State are the model's own (notes/assumptions 1, 6, 7, 8, 9): where a
statement names one, the rule it cites says what the block does with a command, a response or a reset event, and the list
that holds it is the model's form. -/

open Sys2Proof Sys2Proof.Machine

namespace Sys2Proof.Cert

/-! ### Outcomes -/

/-- A success: `t` holds the writes, and one response with this status word and these results is returned. -/
def okWith (t : State) (status : Word) (results : List Word) : Host.Outcome State Fault Refusal :=
  .next (respond t ⟨status, results⟩)

/-- A failure with this status word: LAST_ERR and LAST_SUB take its two low bytes, one response with INFO is returned, and
everything else is as it was (60_exceptions.md R281). -/
def failWith (s : State) (status info : Word) : Host.Outcome State Fault Refusal :=
  .next (respond { s with lastErr := status.extractLsb' 0 8, lastSub := status.extractLsb' 8 8 } ⟨status, [info]⟩)

/-- The status word of a success without flags and with `n` result words. -/
def okStatus (n : Nat) : Word := BitVec.ofNat 32 (n * 2 ^ 20)

/-- STATUS[7:0] of a response. -/
def statusOf (r : Response) : Byte := r.status.extractLsb' 0 8

/-- SUB[15:8] of a response. -/
def subOf (r : Response) : Byte := r.status.extractLsb' 8 8

/-- A Bool as 0 or 1. -/
def asNat (b : Bool) : Nat := if b then 1 else 0

/-! ### The opcode table (spec/opcode_table.json) -/

/-- The "mask" of a row. -/
def tableMask : Opcode → Word
  | .nop | .cfgclr | .cfgcommit | .dstart | .dnext => 0xFFFFFFFF
  | .qput | .qget | .qsize | .qempty | .qfull | .qreset | .qdisc => 0xFFFFFFFF
  | .csrr | .csrw | .cfgc | .cfgf => 0xFFFF00FF
  | .cfgx | .funpack | .cunpack => 0xFF0000FF
  | .fpack => 0xFFFE00FF
  | .cpacku => 0x000000FF
  | .cpackr => 0x00FF00FF
  | .dbwr | .dbrd => 0xFF00FFFF

/-- The "match" of a row. -/
def tableMatch : Opcode → Word
  | .nop => 0x00000000
  | .csrr => 0x00000001
  | .csrw => 0x00000002
  | .cfgclr => 0x00000010
  | .cfgc => 0x00000011
  | .cfgf => 0x00000012
  | .cfgx => 0x00000013
  | .cfgcommit => 0x00000014
  | .funpack => 0x00000020
  | .fpack => 0x00000021
  | .cunpack => 0x00000022
  | .cpacku => 0x00000023
  | .cpackr => 0x00000024
  | .dbwr => 0x00000030
  | .dbrd => 0x00000031
  | .dstart => 0x00000032
  | .dnext => 0x00000033
  | .qput => 0x00000040
  | .qget => 0x00000041
  | .qsize => 0x00000042
  | .qempty => 0x00000043
  | .qfull => 0x00000044
  | .qreset => 0x00000045
  | .qdisc => 0x00000046

/-- The opcodes of 30_encoding.md R89: every one that is not listed in R88. -/
def unlistedOpcode (b : Nat) : Prop :=
  (0x03 ≤ b ∧ b ≤ 0x0F) ∨ (0x15 ≤ b ∧ b ≤ 0x1F) ∨ (0x25 ≤ b ∧ b ≤ 0x2F) ∨ (0x34 ≤ b ∧ b ≤ 0x3F)
    ∨ (0x47 ≤ b ∧ b ≤ 0xFF)

/-- NOPS of 30_encoding.md R88, from B = `b`, C = `c` and SAMPLE_W. -/
def tableNops (p : Params) (op : Opcode) (b c : Nat) : Nat :=
  match op with
  | .nop | .csrr | .cfgclr | .cfgcommit | .dnext | .qget | .qsize | .qempty | .qfull | .qreset | .qdisc => 0
  | .csrw | .cfgc | .dbrd | .dstart => 1
  | .cfgf => 8
  | .cfgx => 2
  | .funpack | .cunpack => (b + 3) / 4
  | .fpack => if b % 2 = 1 then 0 else 2
  | .cpacku => (b + 3) / 4 + 3 * c
  | .cpackr => 3 * c
  | .dbwr => 1 + (b + 3) / 4
  | .qput => (p.sampleW + 31) / 32 + 1

/-- INFO for a wrong operand count: the number of operand words received (60_exceptions.md R282). The spec states no INFO for
2^32 words or more, where it is the model's free value (DESIGN CHOICE, log 15). -/
def receivedCount (c : Command) : Word :=
  if c.ops.length < 2 ^ 32 then BitVec.ofNat 32 c.ops.length else Config.longCountInfo c.ops.length

/-! ### The codec's terms (40_codec.md R121 to R126) -/

/-- Bits O+W-1..O of a container integer, as a number (R121). -/
def rawOf (d : FieldDesc) (cint : Nat) : Nat := cint / 2 ^ d.offset.toNat % 2 ^ d.width.toNat

/-- Unpack(f, cint) is the value `v` with these flags (R122, R125); no reserved transform reads. -/
def Reads (s : State) (f cint : Nat) (v : HVal) (unmapped ext : Bool) : Prop :=
  let d := fieldAt s f
  let raw := rawOf d cint
  match d.xform with
  | .identity => v = BitVec.ofNat 64 raw ∧ unmapped = false ∧ ext = false
  | .shl => v = BitVec.ofNat 64 (d.xparam.toNat * 2 ^ raw) ∧ unmapped = false ∧ ext = false
  | .table =>
      if raw < d.xparam.toNat / 2 ^ 16 then v = xtAt s (d.xparam.toNat % 2 ^ 16 + raw) ∧ unmapped = false ∧ ext = false
      else v = BitVec.ofNat 64 raw ∧ unmapped = true ∧ ext = false
  | .external => v = BitVec.ofNat 64 raw ∧ unmapped = false ∧ ext = true
  | .reserved _ => False

/-- `v` is in the field's allowed set (R124); nothing is in a reserved one. -/
def IsAllowed (s : State) (d : FieldDesc) (v : HVal) : Prop :=
  match d.allow with
  | .none => True
  | .range => d.alo.toInt ≤ v.toInt ∧ v.toInt ≤ d.ahi.toInt
  | .set => ∃ j : Nat, (j : Int) < d.ahi.toInt ∧ xtAt s (d.alo.toInt + j).toNat = v
  | .reserved => False

/-- XPack(f, v) is `raw` (R122); no reserved transform encodes. -/
def Encodes (s : State) (d : FieldDesc) (v : HVal) (raw : Nat) : Prop :=
  match d.xform with
  | .identity => raw = v.toNat
  | .external => raw = v.toNat
  | .shl => 1 ≤ d.xparam.toNat ∧ raw < 2 ^ d.width.toNat ∧ ((d.xparam.toNat * 2 ^ raw : Nat) : Int) = v.toInt
  | .table =>
      raw < d.xparam.toNat / 2 ^ 16 ∧ xtAt s (d.xparam.toNat % 2 ^ 16 + raw) = v
        ∧ ∀ i < raw, xtAt s (d.xparam.toNat % 2 ^ 16 + i) ≠ v
  | .reserved _ => False

/-- A write that names `arg` resolves to the human value `v` (R123). -/
def Resolves (d : FieldDesc) (arg : FieldArg) (v : HVal) : Prop :=
  match arg with
  | .value w => w = v
  | .useDefault => d.defp = true ∧ d.default = v

/-- The kinds whose fields are packed (10_state.md R33). -/
def WritableKind (d : FieldDesc) : Prop := d.kind = .config ∨ d.kind = .command

/-- A field's packed bits in place: raw & mask(W), shifted by O (R126). -/
def partialOf (d : FieldDesc) (raw : Nat) : Nat := raw % 2 ^ d.width.toNat * 2 ^ d.offset.toNat

/-- The argument that the merge packs for field `f`: the last override of `f`, or else the base (40_codec.md R127). -/
def FinalArg (base : FieldArg → Prop) (ovr : List Override) (f : Nat) (arg : FieldArg) : Prop :=
  (∃ pre o post, ovr = pre ++ o :: post ∧ o.field.toNat = f ∧ o.arg = arg ∧ ∀ x ∈ post, x.field.toNat ≠ f)
    ∨ ((∀ x ∈ ovr, x.field.toNat ≠ f) ∧ base arg)

/-- The base of an UPDATE: the field's current value, which must be mapped. -/
def UpdateBase (s : State) (f cur : Nat) (arg : FieldArg) : Prop :=
  ∃ v ext, Reads s f cur v false ext ∧ arg = .value v

/-- The base of a REPLACE: the field's default. -/
def ReplaceBase (arg : FieldArg) : Prop := arg = .useDefault

/-- Field `f` is packed as `v`, `raw` under the argument that `base` and the overrides give it. -/
def PacksAs (s : State) (base : FieldArg → Prop) (ovr : List Override) (f : Nat) (v : HVal) (raw : Nat) : Prop :=
  WritableKind (fieldAt s f) ∧ (∃ arg, FinalArg base ovr f arg ∧ Resolves (fieldAt s f) arg v)
    ∧ IsAllowed s (fieldAt s f) v ∧ Encodes s (fieldAt s f) v raw

/-- Field `f` stops the merge with INVALID_VALUE of this sub-code: no default, a value outside the allowed set, or, as sub 3,
an unmapped base without an override or a value without a raw encoding (40_codec.md R126, R127). -/
def StopsMerge (s : State) (base : FieldArg → Prop) (ovr : List Override) (f : Nat) : Nat → Prop
  | 1 => ∃ arg v, FinalArg base ovr f arg ∧ Resolves (fieldAt s f) arg v ∧ ¬ IsAllowed s (fieldAt s f) v
  | 2 => ∃ arg, FinalArg base ovr f arg ∧ ∀ v, ¬ Resolves (fieldAt s f) arg v
  | 3 =>
      (∀ arg, ¬ FinalArg base ovr f arg)
        ∨ ∃ arg v, FinalArg base ovr f arg ∧ Resolves (fieldAt s f) arg v ∧ IsAllowed s (fieldAt s f) v
            ∧ ∀ raw, ¬ Encodes s (fieldAt s f) v raw
  | _ => False

/-- Every override names a valid field of container `c` (40_codec.md R133). -/
def OverridesOf (s : State) (c : Nat) (ovr : List Override) : Prop :=
  ∀ o ∈ ovr, fieldExists s o.field.toNat = true ∧ ownerOf s o.field.toNat = c

/-- A register that can be written: not a frame, not read-only (40_codec.md R133). -/
def WritableContainer (d : ContainerDesc) : Prop := d.type = .register ∧ d.perm ≠ .readOnly

/-- A view entry's three words (30_encoding.md R87). -/
def entryOf (f : Nat) (unmapped ext : Bool) (v : HVal) : List Word :=
  [BitVec.ofNat 32 (f + 2 ^ 8 * asNat unmapped + 2 ^ 9 * asNat ext), loWord v, hiWord v]

/-- The image and the view that a merge of `packed`, the fields with their values and raw values, returns. -/
def mergedResults (s : State) (c : Nat) (packed : List (Nat × HVal × Nat)) : List Word :=
  let image := packed.foldr (fun e acc => partialOf (fieldAt s e.1) e.2.2 ||| acc) 0
  wordsOfBytes (intToBytes image (payloadOf s c) s.endian)
    ++ packed.flatMap fun e => entryOf e.1 false (decide ((fieldAt s e.1).xform = .external)) e.2.1

/-! ### The commit checks (41_config.md R183) -/

/-- Check 1 fails for container `c`. -/
def Check1Fails (s : State) (c : Nat) : Prop :=
  let d := containerAt s c
  d.valid = true ∧
    ((d.type = .register ∧ (d.size.toNat < 1 ∨ s.params.cmax < d.size.toNat ∨ d.perm = .reserved))
      ∨ (d.type = .frame ∧ (d.size.toNat < 1 ∨ s.params.cmax + 1 < d.size.toNat)))

/-- Container `c` is a valid frame. -/
def ValidFrame (s : State) (c : Nat) : Prop := (containerAt s c).valid = true ∧ (containerAt s c).type = .frame

/-- Check 2 fails for frame `c2`. -/
def Check2Fails (s : State) (c2 : Nat) : Prop :=
  ValidFrame s c2 ∧ ∃ c1 < c2, ValidFrame s c1 ∧ (containerAt s c1).header = (containerAt s c2).header

/-- Checks 3 to 7 fail for field `f`. -/
def FieldCheckFails (s : State) (f : Nat) : Nat → Prop
  | 3 => ownerOf s f ≥ s.params.nc ∨ (containerAt s (ownerOf s f)).valid = false
  | 4 => ¬ ((fieldAt s f).kind = .framePayload ↔ (containerAt s (ownerOf s f)).type = .frame)
  | 5 => (fieldAt s f).width.toNat < 1
      ∨ 8 * payloadOf s (ownerOf s f) < (fieldAt s f).offset.toNat + (fieldAt s f).width.toNat
  | 6 =>
      let d := fieldAt s f
      match d.xform with
      | .identity => False
      | .external => False
      | .shl => d.xparam.toNat = 0 ∨ 2 ^ 63 - 1 < d.xparam.toNat * 2 ^ (2 ^ d.width.toNat - 1)
      | .table => d.xparam.toNat / 2 ^ 16 < 1 ∨ 2 ^ d.width.toNat < d.xparam.toNat / 2 ^ 16
          ∨ s.params.xtSize < d.xparam.toNat % 2 ^ 16 + d.xparam.toNat / 2 ^ 16
      | .reserved _ => True
  | 7 =>
      let d := fieldAt s f
      match d.allow with
      | .none => False
      | .range => d.ahi.toInt < d.alo.toInt
      | .set => d.ahi.toInt < 1 ∨ d.alo.toInt < 0 ∨ (s.params.xtSize : Int) < d.alo.toInt + d.ahi.toInt
      | .reserved => True
  | _ => False

/-- Field `f` is valid and its first failing check is `k`. -/
def FirstFieldFailure (s : State) (f k : Nat) : Prop :=
  (fieldAt s f).valid = true ∧ FieldCheckFails s f k ∧ ∀ j < k, ¬ FieldCheckFails s f j

/-- The descriptors form a Device Model: every check passes. -/
def LegalModel (s : State) : Prop :=
  (∀ c < s.params.nc, ¬ Check1Fails s c) ∧ (∀ c < s.params.nc, ¬ Check2Fails s c)
    ∧ ∀ f < s.params.nf, (fieldAt s f).valid = true → ∀ k, ¬ FieldCheckFails s f k

/-- `n` is the least number below `bound` with `P`. -/
def LeastBelow (bound : Nat) (P : Nat → Prop) (n : Nat) : Prop := n < bound ∧ P n ∧ ∀ m < n, ¬ P m

/-- CFGCOMMIT fails with check `code` naming `idx`: CFG_ERR holds {isf, code, idx}, which is INFO too. -/
def commitFails (s : State) (isf code idx : Nat) : Host.Outcome State Fault Refusal :=
  let word : Word := BitVec.ofNat 32 (isf * 2 ^ 24 + code * 2 ^ 16 + idx)
  failWith { s with cfgErr := word } (BitVec.ofNat 32 (0x0010000A + code * 2 ^ 8)) word

/-! ### The decoder's terms (42_decoder.md) -/

/-- No valid frame has the header `h`. -/
def UnknownHeader (s : State) (h : Byte) : Prop :=
  ∀ c < s.params.nc, ValidFrame s c → (containerAt s c).header ≠ h

/-- Container `c` is a valid frame and its header stands at position `pos` of DBUF. -/
def FrameAt (s : State) (pos c : Nat) : Prop :=
  c < s.params.nc ∧ ValidFrame s c ∧ (containerAt s c).header = dbufAt s pos

/-- REC0 (30_encoding.md R92). -/
def rec0 (kind : Nat) (hasValue unmapped ext : Bool) (cont hdr : Nat) : Word :=
  BitVec.ofNat 32 (kind + 2 ^ 2 * asNat hasValue + 2 ^ 3 * asNat unmapped + 2 ^ 4 * asNat ext + 2 ^ 8 * cont + 2 ^ 16 * hdr)

/-- The state after a DNEXT that moves the cursor to `pos`. -/
def movedTo (s : State) (pos : Nat) : State :=
  { s with decPos := BitVec.ofNat 16 pos, decActive := decide (pos < s.decLen.toNat) }

/-- `k` DNEXT commands in a row, each of which answers a next state. -/
def dnexts : Nat → State → State → Prop
  | 0, s, t => t = s
  | k + 1, s, t => ∃ u, exec .dnext s = .next u ∧ dnexts k u t

/-- From position `pos` to DEC_LEN the buffer holds the whole frames `cs`, one after the other, and nothing else. -/
def WholeFrames (s : State) : Nat → List Nat → Prop
  | pos, [] => pos = s.decLen.toNat
  | pos, c :: cs => FrameAt s pos c ∧ WholeFrames s (pos + (containerAt s c).size.toNat) cs

/-! ### The queue's terms (43_queue.md) -/

/-- sample[SAMPLE_W-1:0], as a sample. -/
def cut (s : State) (x : Sample) : Sample := BitVec.ofNat 256 (x.toNat % 2 ^ s.params.sampleW)

/-- QPUT commands in a row, each of which answers a next state. -/
def qputs : List (Sample × Word) → State → State → Prop
  | [], s, t => t = s
  | (x, ts) :: rest, s, t => ∃ u, exec (.qput x ts) s = .next u ∧ qputs rest u t

/-- A list of commands, each of which answers a next state. -/
def runs : List Instr → State → State → Prop
  | [], s, t => t = s
  | i :: rest, s, t => ∃ u, exec i s = .next u ∧ runs rest u t

/-! ### Commands by their effect -/

/-- The commands that 20_memory.md R68 says have no side effect. -/
def isReadOnly : Instr → Bool
  | .csrr _ => true
  | .dbrd _ _ => true
  | .qsize => true
  | .qempty => true
  | .qfull => true
  | .funpack _ _ => true
  | .fpack _ _ => true
  | .cunpack _ _ => true
  | .cpacku _ _ _ => true
  | .cpackr _ _ => true
  | .nop | .csrw _ _ | .cfgclr | .cfgc _ _ | .cfgf _ _ | .cfgx _ _ | .cfgcommit | .dbwr _ _ | .dstart _ | .dnext
  | .qput _ _ | .qget | .qreset | .qdisc => false

/-- The reserved CSR numbers of 10_state.md R29. -/
def reservedCsr (n : Nat) : Prop := n = 0x07 ∨ n = 0x0A ∨ n = 0x0B ∨ 0x10 ≤ n

/-- The read-only CSR numbers of 10_state.md R21. -/
def readOnlyCsr (n : Nat) : Prop :=
  n ≤ 0x03 ∨ n = 0x05 ∨ n = 0x06 ∨ n = 0x08 ∨ n = 0x09 ∨ (0x0C ≤ n ∧ n ≤ 0x0F)

end Sys2Proof.Cert

open Sys2Proof.Cert

/-! ## Encoding -/

/-- 30_encoding.md R81, R88, R91: no operand of any well-formed instruction is lost between its encoding and its decoding. -/
def Obligations.DecodeOfEncodeIsIdentity : Prop :=
  ∀ (p : Params) (i : Instr), i.wf p = true → decode p (encode p i) = .ok i

/-- 30_encoding.md R80, R91: what the decoder reads fits the encoding again. -/
def Obligations.DecodedInstructionIsWellFormed : Prop :=
  ∀ (p : Params) (c : Command) (i : Instr), decode p c = .ok i → i.wf p = true

/-- 30_encoding.md R88, R90 and spec/opcode_table.json: an opcode with its reserved fields 0 is exactly a match of the
table's row. -/
def Obligations.ReservedFieldsAreTheTableMask : Prop :=
  ∀ (op : Opcode) (cw : Word), (opcodeOf (cwOpc cw) = some op ∧ reservedZero op cw = true) ↔ cw &&& tableMask op = tableMatch op

/-- 30_encoding.md R80, R85, R88: the words of 95_test_vectors.md for FPACK (V-C7), DBWR (V-D1), CFGX (section 3, XT[8]),
QPUT (V-Q2a) and CSRR of Q_DISC_TS (V-Q3b) decode to their instructions, and so does a CPACKU that is a variant of V-C26: its
second override has O0 = 0x108, so UD = 1, and by R85 it reads as "use default" and its value words are ignored. -/
def Obligations.WrittenOutWordsDecode : Prop :=
  decode Params.chosen ⟨0x00000021, [0x00000010, 0]⟩ = .ok (.fpack 0 (.value 16))
    ∧ decode Params.chosen ⟨0x02010523, [0x11, 0x008, 2, 0, 0x108, 7, 0]⟩
        = .ok (.cpacku 5 [0x11] [⟨8, .value 2⟩, ⟨8, .useDefault⟩])
    ∧ decode Params.chosen ⟨0x00090030, [0x00000000, 0x020194FF, 0x06050403, 0x000000FF]⟩
        = .ok (.dbwr 0 [0xFF, 0x94, 0x01, 0x02, 0x03, 0x04, 0x05, 0x06, 0xFF])
    ∧ decode Params.chosen ⟨0x00000813, [0x00000064, 0]⟩ = .ok (.cfgx 8 100)
    ∧ decode Params.chosen ⟨0x00000040, [0xA1, 10]⟩ = .ok (.qput 0xA1 10)
    ∧ decode Params.chosen ⟨0x00000F01, []⟩ = .ok (.csrr 0x0F)

/-- 30_encoding.md R89: an unlisted opcode fails with ILLEGAL_OPCODE sub 1 whatever its operand list, and does nothing
else. -/
def Obligations.UnlistedOpcodeFails : Prop :=
  ∀ (s : State) (c : Command) (rest : List PortEvent), s.port = .command c :: rest → unlistedOpcode (cwOpc c.cw).toNat →
    step s = failWith { s with port := rest } 0x00100101 c.cw

/-- 30_encoding.md R90: a listed opcode with a nonzero reserved field fails with ILLEGAL_OPCODE sub 2, before the
operand count is checked, and does nothing else. -/
def Obligations.NonzeroReservedFieldFails : Prop :=
  ∀ (s : State) (c : Command) (rest : List PortEvent) (op : Opcode), s.port = .command c :: rest →
    cwOpc c.cw = op.code → c.cw &&& tableMask op ≠ tableMatch op →
    step s = failWith { s with port := rest } 0x00100201 c.cw

/-- 30_encoding.md R81, R88 and 60_exceptions.md R282: a wrong number of operand words fails with BAD_LENGTH sub 1, INFO
the number received (a free value for 2^32 words or more, the model's choice, log 15); with NOPS words the command decodes. -/
def Obligations.OperandCountDecidesLength : Prop :=
  ∀ (s : State) (c : Command) (rest : List PortEvent) (op : Opcode), s.port = .command c :: rest →
    c.cw &&& tableMask op = tableMatch op →
    (c.ops.length ≠ tableNops s.params op (cwB c.cw).toNat (cwC c.cw).toNat →
      step s = failWith { s with port := rest } 0x00100102 (receivedCount c)) ∧
    (c.ops.length = tableNops s.params op (cwB c.cw).toNat (cwC c.cw).toNat →
      ∃ i, decode s.params c = .ok i ∧ i.opcode = op)

/-- 10_state.md R31, R32: a descriptor keeps every bit of the words that CFGC and CFGF write, the reserved ones too. -/
def Obligations.DescriptorsKeepEveryBit : Prop :=
  (∀ w : Word, wordOfContainer (containerOfWord w) = w) ∧ (∀ d : ContainerDesc, containerOfWord (wordOfContainer d) = d)
    ∧ (∀ ws : FieldWords, wordsOfField (fieldOfWords ws) = ws) ∧ ∀ d : FieldDesc, fieldOfWords (wordsOfField d) = d

/-! ## Byte order and packing -/

/-- 00_scope.md R12: IntToBytes is the inverse of BytesToInt under both byte orders, and byte k counts 2^(8k) under LITTLE
and 2^(8(n-1-k)) under BIG. -/
def Obligations.ByteOrderRoundTrip : Prop :=
  (∀ (e : Endian) (bytes : List Byte), intToBytes (bytesToInt bytes e) bytes.length e = bytes)
    ∧ (∀ (e : Endian) (n x : Nat), x < 2 ^ (8 * n) →
        bytesToInt (intToBytes x n e) e = x ∧ (intToBytes x n e).length = n)
    ∧ (∀ (bytes : List Byte) (b : Byte),
        bytesToInt (bytes ++ [b]) .little = bytesToInt bytes .little + b.toNat * 2 ^ (8 * bytes.length)
          ∧ bytesToInt (b :: bytes) .big = bytesToInt bytes .big + b.toNat * 2 ^ (8 * bytes.length))

/-- 00_scope.md R13: a 64-bit value travels as two words, the low one first; n bytes travel in ceil(n/4) words, byte k in its
place of word floor(k/4), the bytes past n 0 in results and ignored in operands; unpacking gives the bytes back. -/
def Obligations.WordPackingRoundTrip : Prop :=
  (∀ v : HVal, (FieldArg.value v).words = [v.extractLsb' 0 32, v.extractLsb' 32 32]
      ∧ valueOfWords (v.extractLsb' 0 32) (v.extractLsb' 32 32) = v)
    ∧ (∀ bytes : List Byte, (wordsOfBytes bytes).length = (bytes.length + 3) / 4
        ∧ bytesOfWords (wordsOfBytes bytes) bytes.length = bytes
        ∧ ∀ k < 4 * (wordsOfBytes bytes).length,
            ((wordsOfBytes bytes).getD (k / 4) 0).extractLsb' (8 * (k % 4)) 8 = bytes.getD k 0)
    ∧ ∀ (ws : List Word) (n : Nat), (bytesOfWords ws n).length = n
        ∧ ∀ k < n, (bytesOfWords ws n).getD k 0 = (ws.getD (k / 4) 0).extractLsb' (8 * (k % 4)) 8

/-- 41_config.md R172: Fields(c) is exactly the valid fields of c, in ascending order. -/
def Obligations.FieldsAreValidAndAscending : Prop :=
  ∀ (s : State) (c : Nat),
    (∀ f, f ∈ fieldsOf s c ↔ f < s.params.nf ∧ (fieldAt s f).valid = true ∧ (fieldAt s f).cont.toNat = c)
      ∧ (fieldsOf s c).Pairwise (· < ·)

/-! ## The step -/

/-- 44_control.md R263, 70_reset_and_hazards.md R310, 60_exceptions.md R295: a step takes the next event of the port; a
command that decodes runs as exec, a reset event gives the reset state with a new draw, and an empty port changes nothing
(the port and the draw are the model's own: logs 6, 7 and 9). -/
def Obligations.StepRunsDecodedInstruction : Prop :=
  (∀ (s : State) (c : Command) (rest : List PortEvent) (i : Instr), s.port = .command c :: rest →
      decode s.params c = .ok i → step s = exec i { s with port := rest })
    ∧ (∀ (s : State) (rest : List PortEvent), s.port = .reset :: rest →
        step s = .next (State.afterReset s.params (s.draw + 1) rest s.responses))
    ∧ ∀ s : State, s.port = [] → step s = .next s

/-- 70_reset_and_hazards.md R311: what every CSR reads, that no descriptor is valid and that the queue is empty after a
reset event, for every legal set of parameters and every draw. -/
def Obligations.ResetValuesAreTheTables : Prop :=
  ∀ (p : Params) (draw : Nat) (port : List PortEvent) (rs : List Response), p.legal = true →
    let s := State.afterReset p draw port rs
    (∀ n : Byte, csrRead s n =
        if n = 0x00 then some 0x46460007
        else if n = 0x01 then some (BitVec.ofNat 32 (p.nc * 2 ^ 16 + p.nf))
        else if n = 0x02 then some (BitVec.ofNat 32 (p.dbufSize * 2 ^ 16 + p.xtSize))
        else if n = 0x03 then some (BitVec.ofNat 32 (p.sampleW * 2 ^ 24 + p.cmax * 2 ^ 16 + p.qcap))
        else if n = 0x05 then some 0x00000004
        else if n = 0x04 ∨ n = 0x06 ∨ n = 0x08 ∨ n = 0x09 ∨ (0x0C ≤ n.toNat ∧ n.toNat ≤ 0x0F) then some 0
        else none)
      ∧ (∀ c, (containerAt s c).valid = false) ∧ (∀ f, (fieldAt s f).valid = false)
      ∧ s.cfgOk = false ∧ s.decActive = false ∧ liveSamples s = []

/-- 30_encoding.md R82, R83: each command gets exactly one response; NRES counts its results, a failure has one result and
no flags, and a success has sub-code 0. -/
def Obligations.EveryCommandGetsOneResponse : Prop :=
  ∀ (s : State) (c : Command) (rest : List PortEvent), s.params.legal = true → s.port = .command c :: rest →
    ∃ t r, step s = .next t ∧ t.port = rest ∧ t.responses = s.responses ++ [r]
      ∧ (r.status.extractLsb' 20 12).toNat = r.results.length ∧ r.status.getLsbD 19 = false
      ∧ (statusOf r = 0 → subOf r = 0)
      ∧ (statusOf r ≠ 0 → r.results.length = 1 ∧ r.status.extractLsb' 16 4 = 0 ∧ (statusOf r).toNat ≤ 0x0B)

/-- 00_scope.md R14, 10_state.md R25, 60_exceptions.md R281: a failed command writes LAST_ERR and LAST_SUB, a failed
CFGCOMMIT also CFG_ERR, and nothing else; a successful one leaves LAST_ERR and LAST_SUB, but for a CSRW that clears them. -/
def Obligations.ErrorRegistersRecordTheLastFailure : Prop :=
  ∀ (s t : State) (c : Command) (rest : List PortEvent) (r : Response), s.port = .command c :: rest → step s = .next t →
    t.responses = s.responses ++ [r] →
    (statusOf r ≠ 0 →
      t = { s with port := rest, responses := t.responses, lastErr := statusOf r, lastSub := subOf r, cfgErr := t.cfgErr }
        ∧ (t.cfgErr ≠ s.cfgErr → cwOpc c.cw = 0x14)) ∧
    (statusOf r = 0 →
      (t.lastErr = s.lastErr ∧ t.lastSub = s.lastSub)
        ∨ (cwOpc c.cw = 0x02 ∧ (c.ops.getD 0 0).getLsbD 1 = true ∧ t.lastErr = 0 ∧ t.lastSub = 0))

/-- 10_state.md R37, R38, 43_queue.md R238, 41_config.md R183, 20_memory.md R60: the canonical stores, the decoder's and
the queue's invariants, and that a committed Device Model passes every check, survive every step from every state that
has them. -/
def Obligations.StepKeepsStateInvariant : Prop :=
  ∀ s t : State, s.inv = true → step s = .next t → t.inv = true

/-- The invariant holds at State.reset and after every reset event of a block with legal parameters. -/
def Obligations.ResetMeetsStateInvariant : Prop :=
  State.reset.inv = true ∧ ∀ (p : Params) (draw : Nat) (port : List PortEvent) (rs : List Response), p.legal = true →
    (State.afterReset p draw port rs).inv = true

/-! ## Rules about the whole machine -/

/-- 20_memory.md R68: CSRR, DBRD, QSIZE, QEMPTY, QFULL and all codec commands have no side effect, but for the error
registers on a failure, and repeating one gives the same response. -/
def Obligations.ReadOnlyCommandsHaveNoSideEffect : Prop :=
  ∀ (i : Instr) (s : State), isReadOnly i = true →
    ∃ t r, exec i s = .next t ∧ t = { s with responses := s.responses ++ [r], lastErr := t.lastErr, lastSub := t.lastSub }
      ∧ (statusOf r = 0 → t.lastErr = s.lastErr ∧ t.lastSub = s.lastSub)
      ∧ ∃ u, exec i t = .next u ∧ u.responses = t.responses ++ [r]

/-- 41_config.md R173, 10_state.md R24, R30: while CFG_OK = 1, no command but CFGCLR (opcode 0x10) changes a descriptor,
XT, ENDIAN or CFG_OK. -/
def Obligations.LockKeepsDeviceModel : Prop :=
  ∀ (s t : State) (c : Command) (rest : List PortEvent), s.cfgOk = true → s.port = .command c :: rest →
    cwOpc c.cw ≠ 0x10 → step s = .next t →
    t.cdt = s.cdt ∧ t.fdt = s.fdt ∧ t.xt = s.xt ∧ t.endian = s.endian ∧ t.cfgOk = true

/-- 41_config.md R173: while CFG_OK = 1, CFGC, CFGF, CFGX and CFGCOMMIT fail with LOCKED and change nothing; CFGCLR is
never locked. -/
def Obligations.LockedConfigurationWritesFail : Prop :=
  (∀ s : State, s.cfgOk = true →
      (∀ c word, exec (.cfgc c word) s = failWith s 0x00100004 0)
        ∧ (∀ f ws, exec (.cfgf f ws) s = failWith s 0x00100004 0)
        ∧ (∀ idx v, exec (.cfgx idx v) s = failWith s 0x00100004 0)
        ∧ exec .cfgcommit s = failWith s 0x00100004 0)
    ∧ ∀ s : State, ∃ t, exec .cfgclr s = okWith t 0 [] ∧ t.cfgOk = false

/-- 70_reset_and_hazards.md R315: before the commit FUNPACK, FPACK, CUNPACK, CPACKU, CPACKR, DSTART and DNEXT fail with
NOT_CONFIGURED, and the failure has no effect. -/
def Obligations.CommandsBeforeCommitFail : Prop :=
  ∀ s : State, s.cfgOk = false →
    (∀ f bytes, exec (.funpack f bytes) s = failWith s 0x00100003 0)
      ∧ (∀ f arg, exec (.fpack f arg) s = failWith s 0x00100003 0)
      ∧ (∀ c bytes, exec (.cunpack c bytes) s = failWith s 0x00100003 0)
      ∧ (∀ c bytes ovr, exec (.cpacku c bytes ovr) s = failWith s 0x00100003 0)
      ∧ (∀ c ovr, exec (.cpackr c ovr) s = failWith s 0x00100003 0)
      ∧ (∀ len, exec (.dstart len) s = failWith s 0x00100003 0)
      ∧ exec .dnext s = failWith s 0x00100003 0

/-- 70_reset_and_hazards.md R318, 20_memory.md R74: whatever one step does, if a decode was active before it and is active
after it, the frame table, the transform table, ENDIAN and the buffer are the same. -/
def Obligations.DecodeSeesConstantContext : Prop :=
  ∀ s t : State, s.inv = true → s.decActive = true → step s = .next t → t.decActive = true →
    t.cdt = s.cdt ∧ t.fdt = s.fdt ∧ t.xt = s.xt ∧ t.endian = s.endian ∧ t.dbuf = s.dbuf

/-- 10_state.md R39, 42_decoder.md R200, 43_queue.md R230, 41_config.md R174 to R183: each piece of state is written only by
the commands, named by their opcodes, whose rules list it; the parameters and the draw by none. -/
def Obligations.EachStateHasItsOwnWriters : Prop :=
  ∀ (s t : State) (c : Command) (rest : List PortEvent), s.port = .command c :: rest → step s = .next t →
    let opc := (cwOpc c.cw).toNat
    (t.rd ≠ s.rd → opc = 0x40 ∨ opc = 0x41 ∨ opc = 0x45)
      ∧ (t.wr ≠ s.wr → opc = 0x40 ∨ opc = 0x45)
      ∧ (t.slots ≠ s.slots → opc = 0x40)
      ∧ (t.discCnt ≠ s.discCnt ∨ t.discTs ≠ s.discTs → opc = 0x40 ∨ opc = 0x46)
      ∧ (t.decPos ≠ s.decPos ∨ t.decActive ≠ s.decActive → opc = 0x10 ∨ opc = 0x32 ∨ opc = 0x33)
      ∧ (t.decLen ≠ s.decLen → opc = 0x10 ∨ opc = 0x32)
      ∧ (t.dbuf ≠ s.dbuf → opc = 0x30)
      ∧ (t.cdt ≠ s.cdt → opc = 0x10 ∨ opc = 0x11)
      ∧ (t.fdt ≠ s.fdt → opc = 0x10 ∨ opc = 0x12)
      ∧ (t.xt ≠ s.xt → opc = 0x13)
      ∧ (t.endian ≠ s.endian → opc = 0x02)
      ∧ (t.cfgOk ≠ s.cfgOk ∨ t.cfgErr ≠ s.cfgErr → opc = 0x10 ∨ opc = 0x14)
      ∧ t.params = s.params ∧ t.draw = s.draw

/-- 60_exceptions.md R285: no command but a CSRR of STATUS (CSR 0x05) tests LAST_ERR or LAST_SUB: from two states that
differ only in them it gives the same response and the same other state. -/
def Obligations.LastErrorIsNeverTested : Prop :=
  ∀ (i : Instr) (s : State) (a b : Byte), i ≠ .csrr 0x05 →
    ∃ t u, exec i s = .next t ∧ exec i { s with lastErr := a, lastSub := b } = .next u ∧ t.responses = u.responses
      ∧ u = { t with lastErr := u.lastErr, lastSub := u.lastSub }

/-- 10_state.md R40, 93_implementation_defined.md I3: what the slots outside the live range hold cannot be observed: from two
states with the same live samples that differ only in the slots, every command gives the same response and again such states. -/
def Obligations.StaleSlotsAreUnobservable : Prop :=
  ∀ (i : Instr) (s : State) (slots : Table Sample), s.inv = true → { s with slots := slots }.inv = true →
    liveSamples s = liveSamples { s with slots := slots } →
    ∃ t u, exec i s = .next t ∧ exec i { s with slots := slots } = .next u ∧ t.responses = u.responses
      ∧ u = { t with slots := u.slots } ∧ liveSamples t = liveSamples u

/-- 70_reset_and_hazards.md R312: CFGCLR, QRESET, QDISC and a CSRW of CTRL with ENDIAN = 0 and CLR_ERR = 1 all succeed, and
after them every state with a defined reset value has that value; XT, DBUF and SLOT keep what they held. -/
def Obligations.HostSequenceReachesResetValues : Prop :=
  ∀ s : State, ∃ t rs, runs [.cfgclr, .qreset, .qdisc, .csrw 0x04 0x00000002] s t
    ∧ t = { State.afterReset s.params s.draw s.port (s.responses ++ rs) with
              cdt := t.cdt, fdt := t.fdt, xt := s.xt, dbuf := s.dbuf, slots := s.slots }
    ∧ rs.map statusOf = [0, 0, 0, 0]
    ∧ (∀ c, containerAt t c = { containerAt s c with valid := false })
    ∧ ∀ f, fieldAt t f = { fieldAt s f with valid := false }

/-! ## Control commands -/

/-- 44_control.md R260, 60_exceptions.md R282, R283: NOP is the command word 0 without operands; it changes no state and its
response is the status word 0. A nonzero A, B or C is ILLEGAL_OPCODE sub 2, operands are BAD_LENGTH sub 1 (its INFO for 2^32
words or more is a free value, the model's choice, log 15). -/
def Obligations.NopChangesNothing : Prop :=
  (∀ s : State, exec .nop s = okWith s 0x00000000 [])
    ∧ ∀ (s : State) (c : Command) (rest : List PortEvent), s.port = .command c :: rest → cwOpc c.cw = 0x00 →
        (c.cw = 0 → c.ops = [] → step s = okWith { s with port := rest } 0x00000000 []) ∧
        (c.cw ≠ 0 → step s = failWith { s with port := rest } 0x00100201 c.cw) ∧
        (c.cw = 0 → c.ops ≠ [] → step s = failWith { s with port := rest } 0x00100102 (receivedCount c))

/-- 44_control.md R261, 10_state.md R21 to R28: CSRR returns the value of each implemented CSR and changes nothing else. -/
def Obligations.CsrrReadsImplementedRegisters : Prop :=
  ∀ s : State, s.params.legal = true →
    exec (.csrr 0x00) s = okWith s 0x00100000 [0x46460007]
      ∧ exec (.csrr 0x01) s = okWith s 0x00100000 [BitVec.ofNat 32 (s.params.nc * 2 ^ 16 + s.params.nf)]
      ∧ exec (.csrr 0x02) s = okWith s 0x00100000 [BitVec.ofNat 32 (s.params.dbufSize * 2 ^ 16 + s.params.xtSize)]
      ∧ exec (.csrr 0x03) s = okWith s 0x00100000
          [BitVec.ofNat 32 (s.params.sampleW * 2 ^ 24 + s.params.cmax * 2 ^ 16 + s.params.qcap)]
      ∧ exec (.csrr 0x04) s = okWith s 0x00100000 [if s.endian = .big then 1 else 0]
      ∧ exec (.csrr 0x05) s = okWith s 0x00100000
          [BitVec.ofNat 32 (asNat s.cfgOk + 2 * asNat s.decActive + 4 * asNat (decide (s.rd = s.wr))
            + 8 * asNat (decide ((s.wr.toNat + 1) % s.params.qcap = s.rd.toNat))
            + 2 ^ 8 * s.lastErr.toNat + 2 ^ 16 * s.lastSub.toNat)]
      ∧ exec (.csrr 0x06) s = okWith s 0x00100000 [s.cfgErr]
      ∧ exec (.csrr 0x08) s = okWith s 0x00100000 [BitVec.ofNat 32 s.decLen.toNat]
      ∧ exec (.csrr 0x09) s = okWith s 0x00100000 [BitVec.ofNat 32 s.decPos.toNat]
      ∧ exec (.csrr 0x0C) s = okWith s 0x00100000 [BitVec.ofNat 32 s.rd.toNat]
      ∧ exec (.csrr 0x0D) s = okWith s 0x00100000 [BitVec.ofNat 32 s.wr.toNat]
      ∧ exec (.csrr 0x0E) s = okWith s 0x00100000 [s.discCnt]
      ∧ exec (.csrr 0x0F) s = okWith s 0x00100000 [s.discTs]

/-- 10_state.md R29: a CSRR or CSRW naming a reserved number fails with BAD_CSR sub 1 and changes nothing else. -/
def Obligations.ReservedCsrFails : Prop :=
  ∀ (s : State) (csr : Byte) (v : Word), reservedCsr csr.toNat →
    exec (.csrr csr) s = failWith s 0x0010010B (BitVec.ofNat 32 csr.toNat)
      ∧ exec (.csrw csr v) s = failWith s 0x0010010B (BitVec.ofNat 32 csr.toNat)

/-- 44_control.md R262: a CSRW to CTRL sets ENDIAN from bit 0 and, with bit 1, clears LAST_ERR and LAST_SUB, unless it would
change ENDIAN while CFG_OK = 1 (LOCKED); every other implemented CSR is read-only (BAD_CSR sub 2). -/
def Obligations.CsrwWritesCtrlOnly : Prop :=
  ∀ (s : State) (v : Word),
    (s.cfgOk = false ∨ (v.getLsbD 0 = true ↔ s.endian = .big) →
      exec (.csrw 0x04 v) s = okWith
        { s with
          endian := if v.getLsbD 0 = true then .big else .little
          lastErr := if v.getLsbD 1 = true then 0 else s.lastErr
          lastSub := if v.getLsbD 1 = true then 0 else s.lastSub } 0 []) ∧
    (s.cfgOk = true → ¬ (v.getLsbD 0 = true ↔ s.endian = .big) →
      exec (.csrw 0x04 v) s = failWith s 0x00100004 0x00000004) ∧
    ∀ csr : Byte, readOnlyCsr csr.toNat → exec (.csrw csr v) s = failWith s 0x0010020B (BitVec.ofNat 32 csr.toNat)

/-! ## Configuration commands -/

/-- 41_config.md R174: CFGCLR clears every VALID, CFG_OK, CFG_ERR and the decoder's registers; the other descriptor bits and
all other state are unchanged. -/
def Obligations.CfgclrClearsDeviceModel : Prop :=
  ∀ s : State, ∃ cdt fdt, exec .cfgclr s = okWith
      { s with cdt := cdt, fdt := fdt, cfgOk := false, cfgErr := 0, decLen := 0, decPos := 0, decActive := false } 0 []
    ∧ (∀ c, containerAt { s with cdt := cdt } c = { containerAt s c with valid := false })
    ∧ ∀ f, fieldAt { s with fdt := fdt } f = { fieldAt s f with valid := false }

/-- 41_config.md R175: CFGC replaces descriptor c whole and changes nothing else; c >= NC is UNKNOWN_CONTAINER sub 1. -/
def Obligations.CfgcWritesOneContainer : Prop :=
  ∀ (s : State) (c : Byte) (word : Word), s.cfgOk = false →
    (c.toNat < s.params.nc → ∃ cdt, exec (.cfgc c word) s = okWith { s with cdt := cdt } 0 []
      ∧ wordOfContainer (containerAt { s with cdt := cdt } c.toNat) = word
      ∧ ∀ k, k ≠ c.toNat → containerAt { s with cdt := cdt } k = containerAt s k) ∧
    (s.params.nc ≤ c.toNat → exec (.cfgc c word) s = failWith s 0x00100107 (BitVec.ofNat 32 c.toNat))

/-- 41_config.md R176: CFGF replaces descriptor f whole and changes nothing else; f >= NF is UNKNOWN_FIELD sub 1. -/
def Obligations.CfgfWritesOneField : Prop :=
  ∀ (s : State) (f : Byte) (ws : FieldWords), s.cfgOk = false →
    (f.toNat < s.params.nf → ∃ fdt, exec (.cfgf f ws) s = okWith { s with fdt := fdt } 0 []
      ∧ wordsOfField (fieldAt { s with fdt := fdt } f.toNat) = ws
      ∧ ∀ k, k ≠ f.toNat → fieldAt { s with fdt := fdt } k = fieldAt s k) ∧
    (s.params.nf ≤ f.toNat → exec (.cfgf f ws) s = failWith s 0x00100106 (BitVec.ofNat 32 f.toNat))

/-- 41_config.md R177: CFGX writes entry idx and changes nothing else; idx >= XT_SIZE is BAD_LENGTH sub 3. -/
def Obligations.CfgxWritesOneEntry : Prop :=
  ∀ (s : State) (idx : BitVec 16) (v : HVal), s.cfgOk = false →
    (idx.toNat < s.params.xtSize → ∃ xt, exec (.cfgx idx v) s = okWith { s with xt := xt } 0 []
      ∧ xtAt { s with xt := xt } idx.toNat = v
      ∧ ∀ k, k ≠ idx.toNat → xtAt { s with xt := xt } k = xtAt s k) ∧
    (s.params.xtSize ≤ idx.toNat → exec (.cfgx idx v) s = failWith s 0x00100302 (BitVec.ofNat 32 idx.toNat))

/-- 41_config.md R183: CFGCOMMIT succeeds exactly when every check passes, with exact sums and powers; it then sets CFG_OK
and clears CFG_ERR, and nothing else. -/
def Obligations.CommitSucceedsExactlyOnLegalModels : Prop :=
  ∀ s : State, s.params.legal = true → s.cfgOk = false →
    (LegalModel s → exec .cfgcommit s = okWith { s with cfgOk := true, cfgErr := 0 } 0 []) ∧
    (¬ LegalModel s → ∃ isf code idx, exec .cfgcommit s = commitFails s isf code idx ∧ 1 ≤ code ∧ code ≤ 7)

/-- 41_config.md R183: a failed commit names the first failing check of the scan: containers, then headers, then the
fields' checks 3 to 7 field by field, each ascending. -/
def Obligations.CommitReportsFirstFailure : Prop :=
  ∀ s : State, s.params.legal = true → s.cfgOk = false →
    (∀ c, LeastBelow s.params.nc (Check1Fails s) c → exec .cfgcommit s = commitFails s 0 1 c) ∧
    ((∀ c < s.params.nc, ¬ Check1Fails s c) →
      (∀ c, LeastBelow s.params.nc (Check2Fails s) c → exec .cfgcommit s = commitFails s 0 2 c) ∧
      ((∀ c < s.params.nc, ¬ Check2Fails s c) →
        ∀ f k, LeastBelow s.params.nf (fun g => ∃ j, FirstFieldFailure s g j) f → FirstFieldFailure s f k →
          exec .cfgcommit s = commitFails s 1 k f))

/-! ## The codec -/

/-- 40_codec.md R121, R122, R125, R130: FUNPACK returns the field's human value and its flags, and changes nothing. -/
def Obligations.FunpackReadsField : Prop :=
  ∀ (s : State) (f : Byte) (bytes : List Byte) (v : HVal) (unmapped ext : Bool), s.cfgOk = true →
    fieldExists s f.toNat = true → bytes.length = payloadOf s (ownerOf s f.toNat) →
    Reads s f.toNat (bytesToInt bytes s.endian) v unmapped ext →
    exec (.funpack f bytes) s = okWith s
      (BitVec.ofNat 32 (0x00200000 + 0x00020000 * asNat unmapped + 0x00040000 * asNat ext)) [loWord v, hiWord v]

/-- 40_codec.md R122, R123, R124, R126, R131: FPACK of an allowed value that has a raw encoding returns the container-sized
image with the field's bits in place and every other bit 0, and changes nothing. -/
def Obligations.FpackWritesFieldBits : Prop :=
  ∀ (s : State) (f : Byte) (arg : FieldArg) (v : HVal) (raw : Nat), s.cfgOk = true → fieldExists s f.toNat = true →
    WritableKind (fieldAt s f.toNat) → Resolves (fieldAt s f.toNat) arg v → IsAllowed s (fieldAt s f.toNat) v →
    Encodes s (fieldAt s f.toNat) v raw →
    let n := payloadOf s (ownerOf s f.toNat)
    exec (.fpack f arg) s =
      okWith s (okStatus ((n + 3) / 4)) (wordsOfBytes (intToBytes (partialOf (fieldAt s f.toNat) raw) n s.endian))

/-- 60_exceptions.md R283, 40_codec.md R126, R131: FPACK's failures in their order: UNKNOWN_FIELD, NOT_WRITABLE, then
INVALID_VALUE sub 2 (no default), sub 1 (not allowed) and sub 3 (no raw encoding). -/
def Obligations.FpackFailsInOrder : Prop :=
  ∀ (s : State) (f : Byte) (arg : FieldArg), s.inv = true → s.cfgOk = true →
    (fieldExists s f.toNat = false → exec (.fpack f arg) s = failWith s 0x00100106 (BitVec.ofNat 32 f.toNat)) ∧
    (fieldExists s f.toNat = true →
      (¬ WritableKind (fieldAt s f.toNat) → exec (.fpack f arg) s = failWith s 0x00100109 (BitVec.ofNat 32 f.toNat)) ∧
      (WritableKind (fieldAt s f.toNat) →
        ((∀ v, ¬ Resolves (fieldAt s f.toNat) arg v) →
          exec (.fpack f arg) s = failWith s 0x00100208 (BitVec.ofNat 32 f.toNat)) ∧
        (∀ v, Resolves (fieldAt s f.toNat) arg v →
          (¬ IsAllowed s (fieldAt s f.toNat) v →
            exec (.fpack f arg) s = failWith s 0x00100108 (BitVec.ofNat 32 f.toNat)) ∧
          (IsAllowed s (fieldAt s f.toNat) v → (∀ raw, ¬ Encodes s (fieldAt s f.toNat) v raw) →
            exec (.fpack f arg) s = failWith s 0x00100308 (BitVec.ofNat 32 f.toNat)))))

/-- 40_codec.md R129: a value that FPACK packs is what FUNPACK reads back from the image, for TABLE and SHL always, for
IDENTITY and EXTERNAL when it lies in 0..2^W-1. -/
def Obligations.FieldRoundTrip : Prop :=
  ∀ (s t : State) (f : Byte) (v : HVal) (r : Response), s.inv = true → s.cfgOk = true →
    exec (.fpack f (.value v)) s = .next t → t.responses = s.responses ++ [r] → statusOf r = 0 →
    ((fieldAt s f.toNat).xform = .identity ∨ (fieldAt s f.toNat).xform = .external →
      v.toNat < 2 ^ (fieldAt s f.toNat).width.toNat) →
    ∃ status, statusOf ⟨status, []⟩ = 0
      ∧ exec (.funpack f (bytesOfWords r.results (payloadOf s (ownerOf s f.toNat)))) s = okWith s status [loWord v, hiWord v]

/-- 40_codec.md R132, 30_encoding.md R87: CUNPACK returns one view entry for each field of the container, in Fields(c)
order, with what FUNPACK reads of it, and changes nothing. -/
def Obligations.CunpackListsEveryField : Prop :=
  ∀ (s : State) (c : Byte) (bytes : List Byte) (view : List (Nat × HVal × Bool × Bool)), s.params.legal = true →
    s.cfgOk = true → containerExists s c.toNat = true → bytes.length = payloadOf s c.toNat →
    view.map (·.1) = fieldsOf s c.toNat →
    (∀ e ∈ view, Reads s e.1 (bytesToInt bytes s.endian) e.2.1 e.2.2.1 e.2.2.2) →
    exec (.cunpack c bytes) s =
      okWith s (okStatus (3 * view.length)) (view.flatMap fun e => entryOf e.1 e.2.2.1 e.2.2.2 e.2.1)

/-- 40_codec.md R127, R133, R134: CPACKU over the current values and CPACKR over the defaults, with the last override of each
field laid over them, return the OR of every field's packed bits and the view of the values packed, and change nothing. -/
def Obligations.ContainerPackMergesEveryField : Prop :=
  ∀ (s : State) (c : Byte) (ovr : List Override) (packed : List (Nat × HVal × Nat)), s.params.legal = true →
    s.cfgOk = true → containerExists s c.toNat = true → WritableContainer (containerAt s c.toNat) →
    OverridesOf s c.toNat ovr → packed.map (·.1) = fieldsOf s c.toNat →
    let status := okStatus ((payloadOf s c.toNat + 3) / 4 + 3 * packed.length)
    (∀ bytes : List Byte, bytes.length = payloadOf s c.toNat →
      (∀ e ∈ packed, PacksAs s (UpdateBase s e.1 (bytesToInt bytes s.endian)) ovr e.1 e.2.1 e.2.2) →
      exec (.cpacku c bytes ovr) s = okWith s status (mergedResults s c.toNat packed)) ∧
    ((∀ e ∈ packed, PacksAs s ReplaceBase ovr e.1 e.2.1 e.2.2) →
      exec (.cpackr c ovr) s = okWith s status (mergedResults s c.toNat packed))

/-- 40_codec.md R127, 60_exceptions.md R283: the first field of Fields(c) whose value cannot be packed ends CPACKU and CPACKR
with INVALID_VALUE and its index, sub 2, 1 or 3 as its own first failing test; nothing else changes. -/
def Obligations.ContainerPackReportsFirstBadValue : Prop :=
  ∀ (s : State) (c : Byte) (ovr : List Override) (packed : List (Nat × HVal × Nat)) (f : Nat) (post : List Nat) (sub : Nat),
    s.inv = true → s.cfgOk = true → containerExists s c.toNat = true → WritableContainer (containerAt s c.toNat) →
    OverridesOf s c.toNat ovr → (∀ g ∈ fieldsOf s c.toNat, WritableKind (fieldAt s g)) →
    fieldsOf s c.toNat = packed.map (·.1) ++ f :: post →
    let status : Word := BitVec.ofNat 32 (0x00100008 + sub * 2 ^ 8)
    (∀ bytes : List Byte, bytes.length = payloadOf s c.toNat →
      let cur := bytesToInt bytes s.endian
      (∀ e ∈ packed, PacksAs s (UpdateBase s e.1 cur) ovr e.1 e.2.1 e.2.2) → StopsMerge s (UpdateBase s f cur) ovr f sub →
      exec (.cpacku c bytes ovr) s = failWith s status (BitVec.ofNat 32 f)) ∧
    ((∀ e ∈ packed, PacksAs s ReplaceBase ovr e.1 e.2.1 e.2.2) → StopsMerge s ReplaceBase ovr f sub →
      exec (.cpackr c ovr) s = failWith s status (BitVec.ofNat 32 f))

/-- 70_reset_and_hazards.md R321, 40_codec.md R128: an image that CPACKU returns has 0 in every container bit that no field
covers, whatever the current bytes held there. -/
def Obligations.UpdateDropsUncoveredBits : Prop :=
  ∀ (s t : State) (c : Byte) (bytes : List Byte) (ovr : List Override) (r : Response), s.inv = true →
    exec (.cpacku c bytes ovr) s = .next t → t.responses = s.responses ++ [r] → statusOf r = 0 →
    ∀ k, (∀ f ∈ fieldsOf s c.toNat,
        ¬ ((fieldAt s f).offset.toNat ≤ k ∧ k < (fieldAt s f).offset.toNat + (fieldAt s f).width.toNat)) →
      (bytesToInt (bytesOfWords r.results (payloadOf s c.toNat)) s.endian).testBit k = false

/-- 40_codec.md R133, R134, 60_exceptions.md R283: the checks of CPACKU and CPACKR before the merge, in their order: the
container, its writability, CPACKU's byte count, the overrides in the order sent, the writability of its fields. -/
def Obligations.ContainerWriteFailsInOrder : Prop :=
  ∀ (s : State) (c : Byte) (bytes : List Byte) (ovr : List Override), s.cfgOk = true →
    (containerExists s c.toNat = false →
      exec (.cpacku c bytes ovr) s = failWith s 0x00100107 (BitVec.ofNat 32 c.toNat)
        ∧ exec (.cpackr c ovr) s = failWith s 0x00100107 (BitVec.ofNat 32 c.toNat)) ∧
    (containerExists s c.toNat = true →
      (¬ WritableContainer (containerAt s c.toNat) →
        exec (.cpacku c bytes ovr) s = failWith s 0x00100209 (BitVec.ofNat 32 c.toNat)
          ∧ exec (.cpackr c ovr) s = failWith s 0x00100209 (BitVec.ofNat 32 c.toNat)) ∧
      (WritableContainer (containerAt s c.toNat) →
        (bytes.length ≠ payloadOf s c.toNat →
          exec (.cpacku c bytes ovr) s = failWith s 0x00100202 (BitVec.ofNat 32 c.toNat)) ∧
        (∀ pre o post, ovr = pre ++ o :: post → OverridesOf s c.toNat pre →
          (fieldExists s o.field.toNat = false →
            (bytes.length = payloadOf s c.toNat →
              exec (.cpacku c bytes ovr) s = failWith s 0x00100106 (BitVec.ofNat 32 o.field.toNat)) ∧
            exec (.cpackr c ovr) s = failWith s 0x00100106 (BitVec.ofNat 32 o.field.toNat)) ∧
          (fieldExists s o.field.toNat = true → ownerOf s o.field.toNat ≠ c.toNat →
            (bytes.length = payloadOf s c.toNat →
              exec (.cpacku c bytes ovr) s = failWith s 0x00100206 (BitVec.ofNat 32 o.field.toNat)) ∧
            exec (.cpackr c ovr) s = failWith s 0x00100206 (BitVec.ofNat 32 o.field.toNat))) ∧
        (OverridesOf s c.toNat ovr → ∀ pre f post, fieldsOf s c.toNat = pre ++ f :: post →
          (∀ g ∈ pre, WritableKind (fieldAt s g)) → ¬ WritableKind (fieldAt s f) →
          (bytes.length = payloadOf s c.toNat →
            exec (.cpacku c bytes ovr) s = failWith s 0x00100109 (BitVec.ofNat 32 f)) ∧
          exec (.cpackr c ovr) s = failWith s 0x00100109 (BitVec.ofNat 32 f))))

/-- 40_codec.md R130, R132, 60_exceptions.md R283: FUNPACK fails with UNKNOWN_FIELD, then BAD_LENGTH sub 2; CUNPACK with
UNKNOWN_CONTAINER, then BAD_LENGTH sub 2. -/
def Obligations.CodecReadsFailInOrder : Prop :=
  ∀ (s : State) (k : Byte) (bytes : List Byte), s.cfgOk = true →
    (fieldExists s k.toNat = false → exec (.funpack k bytes) s = failWith s 0x00100106 (BitVec.ofNat 32 k.toNat)) ∧
    (fieldExists s k.toNat = true → bytes.length ≠ payloadOf s (ownerOf s k.toNat) →
      exec (.funpack k bytes) s = failWith s 0x00100202 (BitVec.ofNat 32 k.toNat)) ∧
    (containerExists s k.toNat = false → exec (.cunpack k bytes) s = failWith s 0x00100107 (BitVec.ofNat 32 k.toNat)) ∧
    (containerExists s k.toNat = true → bytes.length ≠ payloadOf s k.toNat →
      exec (.cunpack k bytes) s = failWith s 0x00100202 (BitVec.ofNat 32 k.toNat))

/-! ## The frame decoder -/

/-- 42_decoder.md R200: DBWR writes its bytes at a, a + 1, ... and leaves every other byte and all other state; it fails
with BUSY while a decode is active and with BAD_LENGTH sub 3 for no bytes or a range past DBUF_SIZE. -/
def Obligations.DbwrWritesItsRange : Prop :=
  ∀ (s : State) (a : Word) (bytes : List Byte),
    (s.decActive = true → exec (.dbwr a bytes) s = failWith s 0x00100005 0) ∧
    (s.decActive = false →
      (bytes = [] ∨ s.params.dbufSize < a.toNat + bytes.length → exec (.dbwr a bytes) s = failWith s 0x00100302 a) ∧
      (bytes ≠ [] → a.toNat + bytes.length ≤ s.params.dbufSize →
        ∃ dbuf, exec (.dbwr a bytes) s = okWith { s with dbuf := dbuf } 0 []
          ∧ (∀ k < bytes.length, dbufAt { s with dbuf := dbuf } (a.toNat + k) = bytes.getD k 0)
          ∧ ∀ k, (k < a.toNat ∨ a.toNat + bytes.length ≤ k) → dbufAt { s with dbuf := dbuf } k = dbufAt s k))

/-- 42_decoder.md R201: DBRD returns the bytes of its range, also during a decode, and changes nothing; no bytes or a range
past DBUF_SIZE is BAD_LENGTH sub 3. -/
def Obligations.DbrdReturnsItsRange : Prop :=
  ∀ (s : State) (a : Word) (n : Byte),
    (n = 0 ∨ s.params.dbufSize < a.toNat + n.toNat → exec (.dbrd a n) s = failWith s 0x00100302 a) ∧
    (n ≠ 0 → a.toNat + n.toNat ≤ s.params.dbufSize →
      exec (.dbrd a n) s = okWith s (okStatus ((n.toNat + 3) / 4))
        (wordsOfBytes ((List.range n.toNat).map fun k => dbufAt s (a.toNat + k))))

/-- 42_decoder.md R200, R201, 70_reset_and_hazards.md R323: a DBRD of the range a DBWR has written returns its bytes. -/
def Obligations.DbrdAfterDbwrReturnsTheBytes : Prop :=
  ∀ (s t : State) (a : Word) (bytes : List Byte), bytes.length ≤ 255 → exec (.dbwr a bytes) s = .next t →
    s.decActive = false → bytes ≠ [] → a.toNat + bytes.length ≤ s.params.dbufSize →
    exec (.dbrd a (BitVec.ofNat 8 bytes.length)) t = okWith t (okStatus ((bytes.length + 3) / 4)) (wordsOfBytes bytes)

/-- 42_decoder.md R203: DSTART sets DEC_LEN, DEC_POS = 0 and DEC_ACTIVE = (len > 0), whatever decode was active, and nothing
else; a length past DBUF_SIZE is BAD_LENGTH sub 3. -/
def Obligations.DstartStartsDecode : Prop :=
  ∀ (s : State) (len : Word), s.params.legal = true → s.cfgOk = true →
    (len.toNat ≤ s.params.dbufSize → ∃ decLen, decLen.toNat = len.toNat ∧
      exec (.dstart len) s = okWith { s with decLen := decLen, decPos := 0, decActive := decide (0 < len.toNat) } 0 []) ∧
    (s.params.dbufSize < len.toNat → exec (.dstart len) s = failWith s 0x00100302 len)

/-- 42_decoder.md R204, R205, R206, 30_encoding.md R92: DNEXT's record and the new cursor, for a decode that has ended, an
unknown header, a frame past DEC_LEN, a frame without fields and a frame with fields; nothing else changes. -/
def Obligations.DnextYieldsNextRecord : Prop :=
  ∀ s : State, s.inv = true → s.cfgOk = true →
    let pos := s.decPos.toNat
    let h := dbufAt s pos
    let word : Word := BitVec.ofNat 32 pos
    (s.decActive = false → exec .dnext s = okWith s 0x00400000 [0, word, 0, 0]) ∧
    (s.decActive = true →
      (UnknownHeader s h →
        exec .dnext s = okWith (movedTo s (pos + 1)) 0x00400000 [rec0 2 false false false 0 h.toNat, word, 0, 0]) ∧
      ∀ c, FrameAt s pos c →
        let size := (containerAt s c).size.toNat
        (s.decLen.toNat < pos + size →
          exec .dnext s = okWith (movedTo s s.decLen.toNat) 0x00400000 [rec0 3 false false false c h.toNat, word, 0, 0]) ∧
        (pos + size ≤ s.decLen.toNat →
          (fieldsOf s c = [] →
            exec .dnext s = okWith (movedTo s (pos + size)) 0x00400000 [rec0 1 false false false c h.toNat, word, 0, 0]) ∧
          ∀ f0 fs v unmapped ext, fieldsOf s c = f0 :: fs →
            Reads s f0 (bytesToInt ((List.range (size - 1)).map fun k => dbufAt s (pos + 1 + k)) s.endian) v unmapped ext →
            exec .dnext s = okWith (movedTo s (pos + size)) 0x00400000
              [rec0 1 true unmapped ext c h.toNat, word, loWord v, hiWord v]))

/-- 42_decoder.md R209: each DNEXT of an active decode moves DEC_POS forward and not past DEC_LEN, so after as many DNEXTs
as there are bytes left the decode has ended, and the next one returns END. -/
def Obligations.DecodeTerminates : Prop :=
  (∀ s t : State, s.inv = true → s.decActive = true → exec .dnext s = .next t →
      s.decPos.toNat + 1 ≤ t.decPos.toNat ∧ t.decPos.toNat ≤ s.decLen.toNat ∧ t.decLen = s.decLen)
    ∧ ∀ (s : State) (k : Nat), s.inv = true → s.cfgOk = true → s.decLen.toNat ≤ s.decPos.toNat + k →
        ∃ t, dnexts k s t ∧ t.decActive = false
          ∧ exec .dnext t = okWith t 0x00400000 [0, BitVec.ofNat 32 s.decLen.toNat, 0, 0]

/-- 42_decoder.md R208: a decode whose bytes are the whole known frames cs yields exactly one FRAME record for each, in
order, and then END. -/
def Obligations.DecodeConsumesExactFrames : Prop :=
  ∀ (s : State) (cs : List Nat), s.inv = true → s.cfgOk = true → WholeFrames s s.decPos.toNat cs →
    ∃ t rs, dnexts cs.length s t ∧ t.responses = s.responses ++ rs ∧ t.decActive = false
      ∧ t.decPos = s.decLen
      ∧ rs.map (fun r => (r.status, (r.results.getD 0 0).extractLsb' 0 2, ((r.results.getD 0 0).extractLsb' 8 8).toNat))
          = cs.map fun c => ((0x00400000 : Word), (1 : BitVec 2), c)

/-- 42_decoder.md R207: a run of j bytes that are no known header gives j INVALID records, one for each position, and the
decode goes on behind them. -/
def Obligations.UnknownBytesAreSkippedOneByOne : Prop :=
  ∀ (j : Nat) (s : State), s.inv = true → s.cfgOk = true → s.decPos.toNat + j ≤ s.decLen.toNat →
    (∀ k < j, UnknownHeader s (dbufAt s (s.decPos.toNat + k))) →
    ∃ t, dnexts j s t ∧ t = { s with
          decPos := BitVec.ofNat 16 (s.decPos.toNat + j)
          decActive := decide (s.decPos.toNat + j < s.decLen.toNat)
          responses := s.responses ++ (List.range j).map fun k =>
            ⟨0x00400000, [rec0 2 false false false 0 (dbufAt s (s.decPos.toNat + k)).toNat,
              BitVec.ofNat 32 (s.decPos.toNat + k), 0, 0]⟩ }

/-! ## The sample queue -/

/-- 43_queue.md R230, R231, R238: QPUT refines a bounded FIFO of QCAP - 1 samples: the sample, cut to SAMPLE_W bits, becomes
the newest; with a full queue the oldest goes, the saturating DISC_CNT counts it and DISC_TS takes ts. Only the queue's
state changes. -/
def Obligations.QputRefinesBoundedFifo : Prop :=
  ∀ (s : State) (x : Sample) (ts : Word), s.inv = true →
    ∃ slots rd wr, wr.toNat = (s.wr.toNat + 1) % s.params.qcap ∧
      ((liveSamples s).length < s.params.qcap - 1 →
        exec (.qput x ts) s = okWith { s with slots := slots, wr := wr } 0 []
          ∧ liveSamples { s with slots := slots, wr := wr } = liveSamples s ++ [cut s x]) ∧
      ((liveSamples s).length = s.params.qcap - 1 →
        rd.toNat = (s.rd.toNat + 1) % s.params.qcap
          ∧ exec (.qput x ts) s = okWith { s with
              slots := slots, rd := rd, wr := wr, discTs := ts
              discCnt := BitVec.ofNat 32 (min (s.discCnt.toNat + 1) 0xFFFFFFFF) } 0 []
          ∧ liveSamples { s with slots := slots, rd := rd, wr := wr } = (liveSamples s).tail ++ [cut s x])

/-- 43_queue.md R232, R238, R240: QGET returns the oldest live sample as SW words and takes exactly it; on an empty queue it
returns the EMPTY flag and changes nothing. -/
def Obligations.QgetTakesOldestSample : Prop :=
  ∀ s : State, s.inv = true →
    (liveSamples s = [] → exec .qget s = okWith s 0x00010000 []) ∧
    ∀ x rest, liveSamples s = x :: rest →
      ∃ rd words, rd.toNat = (s.rd.toNat + 1) % s.params.qcap
        ∧ exec .qget s = okWith { s with rd := rd } (okStatus ((s.params.sampleW + 31) / 32)) words
        ∧ words.length = (s.params.sampleW + 31) / 32 ∧ natOfWords words = x.toNat ∧ x.toNat < 2 ^ s.params.sampleW
        ∧ liveSamples { s with rd := rd } = rest

/-- 43_queue.md R233, R234, R235, R238: QSIZE returns the number of live samples, at most QCAP - 1; QEMPTY and QFULL say
whether it is 0 or QCAP - 1, never both; none changes anything. -/
def Obligations.QueueQueriesCountLiveSamples : Prop :=
  ∀ s : State, s.inv = true →
    let n := (liveSamples s).length
    exec .qsize s = okWith s 0x00100000 [BitVec.ofNat 32 n] ∧ n ≤ s.params.qcap - 1
      ∧ exec .qempty s = okWith s 0x00100000 [if n = 0 then 1 else 0]
      ∧ exec .qfull s = okWith s 0x00100000 [if n = s.params.qcap - 1 then 1 else 0]
      ∧ ¬ (n = 0 ∧ n = s.params.qcap - 1)

/-- 43_queue.md R236: QRESET zeroes RD and WR and nothing else, so no sample is live; the slots and the discard state stay. -/
def Obligations.QresetEmptiesQueue : Prop :=
  ∀ s : State, exec .qreset s = okWith { s with rd := 0, wr := 0 } 0 [] ∧ liveSamples { s with rd := 0, wr := 0 } = []

/-- 43_queue.md R237: QDISC returns DISC_CNT and DISC_TS and zeroes both, in one command, so a second one returns (0, 0). -/
def Obligations.QdiscReportsAndClears : Prop :=
  ∀ s : State, exec .qdisc s = okWith { s with discCnt := 0, discTs := 0 } 0x00200000 [s.discCnt, s.discTs]
    ∧ ∀ t, exec .qdisc s = .next t → exec .qdisc t = okWith t 0x00200000 [0, 0]

/-- 43_queue.md R239, R238: a queue that starts empty accepts any number of puts, holds the newest QCAP - 1 of them in order,
and has counted every other one, up to saturation, with the timestamp of the last put if it evicted. -/
def Obligations.QueueKeepsNewestSamples : Prop :=
  ∀ (s : State) (xs : List (Sample × Word)), s.inv = true → liveSamples s = [] →
    ∃ t, qputs xs s t
      ∧ liveSamples t = (xs.map fun e => cut s e.1).drop (xs.length - (s.params.qcap - 1))
      ∧ t.discCnt.toNat = min (s.discCnt.toNat + (xs.length - (s.params.qcap - 1))) 0xFFFFFFFF
      ∧ t.discTs = (if s.params.qcap - 1 < xs.length then (xs.map (·.2)).getLastD 0 else s.discTs)
end

