-- ==== Sys2Proof/Laws/DeviceModel.lean ====
section
/-! SUPPORT. The laws of the commit checks: each check as the condition that spec/41_config.md R183 writes, and what
`commitCheck` finds, scan by scan. -/

namespace Sys2Proof.Machine

/-- The SHL bound is the exact one, for every WIDTH. -/
theorem shlFits_iff {k : Nat} (hk : 1 ≤ k) (w : Nat) : shlFits k w = true ↔ k * 2 ^ (2 ^ w - 1) ≤ 2 ^ 63 - 1 := by
  rw [shlFits, Bool.and_eq_true, decide_eq_true_eq, decide_eq_true_eq, maxHuman]
  constructor
  · exact fun h => h.2
  · intro h
    refine ⟨?_, h⟩
    by_contra hw
    have h1 : 2 ^ 6 ≤ 2 ^ w := Nat.pow_le_pow_right (by omega) (by omega)
    have h2 : 2 ^ 63 ≤ 2 ^ (2 ^ w - 1) := Nat.pow_le_pow_right (by omega) (by omega)
    have h3 : 2 ^ (2 ^ w - 1) ≤ k * 2 ^ (2 ^ w - 1) := Nat.le_mul_of_pos_left _ hk
    omega

theorem tableBase_eq (d : FieldDesc) : tableBase d = d.xparam.toNat % 2 ^ 16 := by
  rw [tableBase, BitVec.extractLsb'_toNat, Nat.shiftRight_zero]

theorem tableLen_eq (d : FieldDesc) : tableLen d = d.xparam.toNat / 2 ^ 16 := by
  have := d.xparam.isLt
  rw [tableLen, BitVec.extractLsb'_toNat, Nat.shiftRight_eq_div_pow]
  exact Nat.mod_eq_of_lt (by omega)

theorem isFrameOf_iff (s : State) (h : Byte) (c : Nat) :
    isFrameOf s h c = true ↔ (containerAt s c).valid = true ∧ (containerAt s c).type = .frame ∧ (containerAt s c).header = h := by
  simp [isFrameOf, and_assoc]

theorem duplicateHeader_iff (s : State) (c2 : Nat) :
    duplicateHeader s c2 = true ↔
      ((containerAt s c2).valid = true ∧ (containerAt s c2).type = .frame)
        ∧ ∃ c1 < c2, ((containerAt s c1).valid = true ∧ (containerAt s c1).type = .frame)
            ∧ (containerAt s c1).header = (containerAt s c2).header := by
  simp only [duplicateHeader, Bool.and_eq_true, isFrameOf_iff, List.any_eq_true, List.mem_range, and_true, and_assoc]

theorem badContainer_iff (p : Params) (d : ContainerDesc) :
    badContainer p d = true ↔
      (d.type = .register ∧ (d.size.toNat < 1 ∨ p.cmax < d.size.toNat ∨ d.perm = .reserved))
        ∨ (d.type = .frame ∧ (d.size.toNat < 1 ∨ p.cmax + 1 < d.size.toNat)) := by
  rw [badContainer]
  split
  · rename_i h
    simp [h, or_assoc]
  · rename_i h
    simp [h]

/-! ### The scans -/

/-- A scan of 0 .. n-1 finds the least number with the property. -/
theorem find?_range_eq_some {n : Nat} {P : Nat → Bool} {k : Nat} :
    (List.range n).find? P = some k ↔ k < n ∧ P k = true ∧ ∀ j < k, P j = false := by
  rw [List.find?_range_eq_some]
  simp only [List.mem_range, Bool.not_eq_eq_eq_not, Bool.not_true]
  exact ⟨fun ⟨a, b, c⟩ => ⟨b, a, c⟩, fun ⟨a, b, c⟩ => ⟨b, a, c⟩⟩

/-- A scan of 0 .. n-1 finds nothing where no number has the property. -/
theorem find?_range_eq_none {n : Nat} {P : Nat → Bool} : (List.range n).find? P = none ↔ ∀ k < n, P k = false := by
  simp

/-- A scan of 0 .. n-1 for the first result gives that of the least number that has one. -/
theorem findSome?_range_eq_some {α : Type} {n : Nat} {g : Nat → Option α} {a : α} :
    (List.range n).findSome? g = some a ↔ ∃ k < n, g k = some a ∧ ∀ j < k, g j = none := by
  induction n with
  | zero => simp
  | succ n ih =>
    rw [List.range_succ, List.findSome?_append, Option.or_eq_some_iff, ih]
    constructor
    · rintro (⟨k, hk, h⟩ | ⟨h, hn⟩)
      · exact ⟨k, by omega, h⟩
      · refine ⟨n, by omega, by simpa using hn, fun j hj => ?_⟩
        rw [List.findSome?_eq_none_iff] at h
        exact h j (List.mem_range.2 hj)
    · rintro ⟨k, hk, h1, h2⟩
      by_cases hkn : k = n
      · subst hkn
        refine .inr ⟨?_, by simpa using h1⟩
        rw [List.findSome?_eq_none_iff]
        exact fun j hj => h2 j (List.mem_range.1 hj)
      · exact .inl ⟨k, by omega, h1, h2⟩

theorem checkContainers_eq_some {s : State} {e : CommitFailure} :
    checkContainers s = some e ↔ ∃ c, e = ⟨false, 1, c⟩ ∧ c < s.params.nc
      ∧ ((containerAt s c).valid && badContainer s.params (containerAt s c)) = true
      ∧ ∀ j < c, ((containerAt s j).valid && badContainer s.params (containerAt s j)) = false := by
  simp only [checkContainers, Option.map_eq_some_iff, find?_range_eq_some]
  constructor
  · rintro ⟨c, h, rfl⟩; exact ⟨c, rfl, h⟩
  · rintro ⟨c, rfl, h⟩; exact ⟨c, h, rfl⟩

theorem checkContainers_eq_none {s : State} :
    checkContainers s = none ↔
      ∀ c < s.params.nc, ((containerAt s c).valid && badContainer s.params (containerAt s c)) = false := by
  simp only [checkContainers, Option.map_eq_none_iff, find?_range_eq_none]

theorem checkHeaders_eq_some {s : State} {e : CommitFailure} :
    checkHeaders s = some e ↔ ∃ c, e = ⟨false, 2, c⟩ ∧ c < s.params.nc ∧ duplicateHeader s c = true
      ∧ ∀ j < c, duplicateHeader s j = false := by
  simp only [checkHeaders, Option.map_eq_some_iff, find?_range_eq_some]
  constructor
  · rintro ⟨c, h, rfl⟩; exact ⟨c, rfl, h⟩
  · rintro ⟨c, rfl, h⟩; exact ⟨c, h, rfl⟩

theorem checkHeaders_eq_none {s : State} : checkHeaders s = none ↔ ∀ c < s.params.nc, duplicateHeader s c = false := by
  simp only [checkHeaders, Option.map_eq_none_iff, find?_range_eq_none]

theorem checkFields_eq_some {s : State} {e : CommitFailure} :
    checkFields s = some e ↔ ∃ f < s.params.nf, checkField s f = some e ∧ ∀ j < f, checkField s j = none :=
  findSome?_range_eq_some

theorem checkFields_eq_none {s : State} : checkFields s = none ↔ ∀ f < s.params.nf, checkField s f = none := by
  simp [checkFields, List.findSome?_eq_none_iff]

/-- What the scan of R183 finds: a bad container, or else a duplicate header, or else a bad field. -/
theorem commitCheck_eq (s : State) :
    commitCheck s =
      match checkContainers s with
      | some e => some e
      | none =>
          match checkHeaders s with
          | some e => some e
          | none => checkFields s := by
  rw [commitCheck]
  cases checkContainers s <;> cases checkHeaders s <;> rfl

end Sys2Proof.Machine
end

