-- ==== Sys2Proof/Laws/Codec.lean ====
section
/-! SUPPORT. The laws of the codec: the bit-field arithmetic as division and remainder, what each transform's search finds, and
what a merge of several fields gives (spec/40_codec.md R121 to R127). -/

namespace Sys2Proof.Machine

/-! ### Bit fields (R121, R126) -/

theorem mask_eq (w : Nat) : mask w = 2 ^ w - 1 := by rw [mask, Nat.shiftLeft_eq, Nat.one_mul]

theorem and_mask (x w : Nat) : x &&& mask w = x % 2 ^ w := by rw [mask_eq, Nat.and_two_pow_sub_one_eq_mod]

theorem fieldRaw_eq (d : FieldDesc) (cint : Nat) :
    fieldRaw d cint = cint / 2 ^ d.offset.toNat % 2 ^ d.width.toNat := by
  rw [fieldRaw, and_mask, Nat.shiftRight_eq_div_pow]

theorem fieldRaw_lt (d : FieldDesc) (cint : Nat) : fieldRaw d cint < 2 ^ d.width.toNat := by
  rw [fieldRaw_eq]
  exact Nat.mod_lt _ (Nat.two_pow_pos _)

/-- A packed field as a number: its low W bits, O places up. -/
theorem packed_eq (r w o : Nat) : (r &&& mask w) <<< o = r % 2 ^ w * 2 ^ o := by rw [and_mask, Nat.shiftLeft_eq]

/-- Unpacking what a pack has put in place gives the raw value's low W bits. -/
theorem packed_div (r w o : Nat) : r % 2 ^ w * 2 ^ o / 2 ^ o % 2 ^ w = r % 2 ^ w := by
  rw [Nat.mul_div_cancel _ (Nat.two_pow_pos o), Nat.mod_mod]

/-- A packed field has a bit only inside the field. -/
theorem testBit_packed (r w o k : Nat) :
    (r % 2 ^ w * 2 ^ o).testBit k = (decide (o ≤ k ∧ k < o + w) && r.testBit (k - o)) := by
  rw [Nat.mul_comm, Nat.testBit_two_pow_mul, Nat.testBit_mod_two_pow]
  by_cases h1 : o ≤ k <;> by_cases h2 : k < o + w <;> simp [h1, h2] <;> omega

theorem packed_lt (r w o : Nat) : r % 2 ^ w * 2 ^ o < 2 ^ (o + w) := by
  rw [Nat.pow_add, Nat.mul_comm (2 ^ o)]
  exact Nat.mul_lt_mul_of_pos_right (Nat.mod_lt _ (Nat.two_pow_pos _)) (Nat.two_pow_pos _)

/-! ### The searches of XPack (R122) -/

theorem shlExponent_eq_some {k w e : Nat} {hv : HVal} (h : shlExponent k w hv = some e) :
    e < 2 ^ w ∧ e < 63 ∧ ((k * 2 ^ e : Nat) : Int) = hv.toInt := by
  rw [shlExponent, find?_range_eq_some] at h
  obtain ⟨h1, h2, _⟩ := h
  exact ⟨by omega, by omega, by simpa using h2⟩

/-- For K >= 1 the exponent is unique, so the search finds it. -/
theorem shlExponent_of_eq {k w e : Nat} {hv : HVal} (hk : 1 ≤ k) (he : e < 2 ^ w) (h : ((k * 2 ^ e : Nat) : Int) = hv.toInt) :
    shlExponent k w hv = some e := by
  have hlt : k * 2 ^ e < 2 ^ 63 := by
    have h1 := BitVec.toInt_lt (x := hv)
    have h2 : (2 : Int) ^ (64 - 1) = ((2 ^ 63 : Nat) : Int) := by norm_num
    rw [h2] at h1
    omega
  have h63 : e < 63 := by
    by_contra hge
    have h1 : 2 ^ 63 ≤ 2 ^ e := Nat.pow_le_pow_right (by omega) (by omega)
    have h2 : 2 ^ e ≤ k * 2 ^ e := Nat.le_mul_of_pos_left _ hk
    omega
  rw [shlExponent, find?_range_eq_some]
  refine ⟨by omega, by simpa using h, fun j hj => ?_⟩
  rw [decide_eq_false_iff_not, ← h]
  intro hje
  have h1 : k * 2 ^ j = k * 2 ^ e := by exact_mod_cast hje
  have h2 : 2 ^ j = 2 ^ e := Nat.eq_of_mul_eq_mul_left (by omega) h1
  have := Nat.pow_right_injective (le_refl 2) h2
  omega

theorem shlExponent_eq_none {k w : Nat} {hv : HVal} (h : shlExponent k w hv = none) (hk : 1 ≤ k) :
    ∀ e < 2 ^ w, ((k * 2 ^ e : Nat) : Int) ≠ hv.toInt := by
  intro e he heq
  rw [shlExponent_of_eq hk he heq] at h
  cases h

theorem tableIndex_eq_some {s : State} {base len j : Nat} {hv : HVal} :
    tableIndex s base len hv = some j ↔ j < len ∧ xtAt s (base + j) = hv ∧ ∀ i < j, xtAt s (base + i) ≠ hv := by
  rw [tableIndex, find?_range_eq_some]
  simp only [beq_iff_eq, beq_eq_false_iff_ne]

theorem tableIndex_eq_none {s : State} {base len : Nat} {hv : HVal} :
    tableIndex s base len hv = none ↔ ∀ j < len, xtAt s (base + j) ≠ hv := by
  rw [tableIndex, find?_range_eq_none]
  simp only [beq_eq_false_iff_ne]

/-! ### Pack (R126) -/

/-- Pack succeeds exactly through its four stages. -/
theorem packField_ok_iff {s : State} {f : Nat} {arg : FieldArg} {pk : Packed} :
    packField s f arg = .ok pk ↔ ∃ hv r, resolveArg (fieldAt s f) arg = some hv ∧ allowed s (fieldAt s f) hv = true
      ∧ xPack s (fieldAt s f) hv = some r
      ∧ pk = ⟨r % 2 ^ (fieldAt s f).width.toNat * 2 ^ (fieldAt s f).offset.toNat, hv⟩ := by
  simp only [packField, packed_eq]
  constructor
  · intro h
    split at h
    · cases h
    · rename_i hv h1
      split at h
      · cases h
      · rename_i h2
        split at h
        · cases h
        · rename_i r h3
          cases h
          exact ⟨hv, r, h1, by simpa using h2, h3, rfl⟩
  · rintro ⟨hv, r, h1, h2, h3, rfl⟩
    simp only [h1, h2, h3]
    rfl

theorem packField_no_default {s : State} {f : Nat} {arg : FieldArg} (h : resolveArg (fieldAt s f) arg = none) :
    packField s f arg = .error ⟨.invalidValue, 2, indexWord f⟩ := by simp only [packField, h]

theorem packField_not_allowed {s : State} {f : Nat} {arg : FieldArg} {hv : HVal}
    (h1 : resolveArg (fieldAt s f) arg = some hv) (h2 : allowed s (fieldAt s f) hv = false) :
    packField s f arg = .error ⟨.invalidValue, 1, indexWord f⟩ := by
  simp only [packField, h1, h2]
  rfl

theorem packField_no_raw {s : State} {f : Nat} {arg : FieldArg} {hv : HVal}
    (h1 : resolveArg (fieldAt s f) arg = some hv) (h2 : allowed s (fieldAt s f) hv = true)
    (h3 : xPack s (fieldAt s f) hv = none) : packField s f arg = .error ⟨.invalidValue, 3, indexWord f⟩ := by
  simp only [packField, h1, h2, h3]
  rfl

/-! ### The merge (R127) -/

/-- The overlay is the last override of the field, or else the base. -/
theorem overlay_append (base : MergeValue) (ovr : List Override) (o : Override) (f : Nat) :
    overlay base (ovr ++ [o]) f = if o.field.toNat = f then .write o.arg else overlay base ovr f := by
  simp [overlay, List.foldl_append]

theorem overlay_none {base : MergeValue} {ovr : List Override} {f : Nat} (h : ∀ o ∈ ovr, o.field.toNat ≠ f) :
    overlay base ovr f = base := by
  induction ovr using List.reverseRecOn with
  | nil => rfl
  | append_singleton ovr o ih =>
    rw [overlay_append, if_neg (h o (by simp)), ih fun x hx => h x (by simp [hx])]

theorem overlay_last (base : MergeValue) (pre : List Override) {o : Override} {post : List Override} {f : Nat}
    (ho : o.field.toNat = f) (h : ∀ x ∈ post, x.field.toNat ≠ f) : overlay base (pre ++ o :: post) f = .write o.arg := by
  induction post using List.reverseRecOn with
  | nil => rw [overlay_append, if_pos ho]
  | append_singleton post x ih =>
    have : pre ++ o :: (post ++ [x]) = (pre ++ o :: post) ++ [x] := by simp
    rw [this, overlay_append, if_neg (h x (by simp)), ih fun y hy => h y (by simp [hy])]

/-- One more field in front of a merge that succeeds. -/
theorem mergeFields_cons {s : State} {mode : MergeMode} {ovr : List Override} {f : Nat} {fs : List Nat} {arg : FieldArg}
    {pk : Packed} {m : Merged} (h1 : overlay (mergeBase s mode f) ovr f = .write arg) (h2 : packField s f arg = .ok pk)
    (h3 : mergeFields s mode ovr fs = .ok m) :
    mergeFields s mode ovr (f :: fs)
      = .ok ⟨pk.partialInt ||| m.image, ⟨f, pk.value, isExternal (fieldAt s f)⟩ :: m.view⟩ := by
  simp only [mergeFields, h1, h2, h3]

/-- A merge that succeeds has packed every field, and its image is the OR of their bits. -/
theorem mergeFields_cons_ok {s : State} {mode : MergeMode} {ovr : List Override} {f : Nat} {fs : List Nat} {m : Merged}
    (h : mergeFields s mode ovr (f :: fs) = .ok m) :
    ∃ arg pk m', overlay (mergeBase s mode f) ovr f = .write arg ∧ packField s f arg = .ok pk
      ∧ mergeFields s mode ovr fs = .ok m'
      ∧ m = ⟨pk.partialInt ||| m'.image, ⟨f, pk.value, isExternal (fieldAt s f)⟩ :: m'.view⟩ := by
  simp only [mergeFields] at h
  split at h
  · cases h
  · rename_i arg h1
    split at h
    · cases h
    · rename_i pk h2
      split at h
      · cases h
      · rename_i m' h3
        cases h
        exact ⟨arg, pk, m', h1, h2, h3, rfl⟩

/-- The first field that fails ends a merge. -/
theorem mergeFields_append_error {s : State} {mode : MergeMode} {ovr : List Override} {pre : List Nat} {fs : List Nat}
    {m : Merged} {e : Failure} (h1 : mergeFields s mode ovr pre = .ok m) (h2 : mergeFields s mode ovr fs = .error e) :
    mergeFields s mode ovr (pre ++ fs) = .error e := by
  induction pre generalizing m with
  | nil => exact h2
  | cons f pre ih =>
    obtain ⟨arg, pk, m', a, b, c, _⟩ := mergeFields_cons_ok h1
    simp only [List.cons_append, mergeFields, a, b, ih c]

/-- An image's bits are the bits of the packed fields: none outside the fields. -/
theorem testBit_mergeFields {s : State} {mode : MergeMode} {ovr : List Override} {fs : List Nat} {m : Merged} {k : Nat}
    (h : mergeFields s mode ovr fs = .ok m)
    (hk : ∀ f ∈ fs, ¬ ((fieldAt s f).offset.toNat ≤ k ∧ k < (fieldAt s f).offset.toNat + (fieldAt s f).width.toNat)) :
    m.image.testBit k = false := by
  induction fs generalizing m with
  | nil => cases h; simp
  | cons f fs ih =>
    obtain ⟨arg, pk, m', _, hp, hm, rfl⟩ := mergeFields_cons_ok h
    obtain ⟨hv, r, _, _, _, rfl⟩ := packField_ok_iff.1 hp
    rw [Nat.testBit_or, testBit_packed, ih hm fun g hg => hk g (by simp [hg])]
    simp [hk f (by simp)]

end Sys2Proof.Machine
end

