-- ==== Sys2Proof/Laws/Decode.lean ====
section
/-! SUPPORT. The laws of the encoding's pieces: each packing and its unpacking agree, and each opcode is found by its code. -/

namespace Sys2Proof

/-! ### The command word -/

@[simp] theorem cwOpc_mkCw (opc a b c : Byte) : cwOpc (mkCw opc a b c) = opc := by
  apply BitVec.eq_of_getLsbD_eq
  intro i hi
  simp only [cwOpc, mkCw, BitVec.getLsbD_extractLsb', BitVec.getLsbD_append]
  simp [hi]

@[simp] theorem cwA_mkCw (opc a b c : Byte) : cwA (mkCw opc a b c) = a := by
  apply BitVec.eq_of_getLsbD_eq
  intro i hi
  simp only [cwA, mkCw, BitVec.getLsbD_extractLsb', BitVec.getLsbD_append]
  simp [hi]

@[simp] theorem cwB_mkCw (opc a b c : Byte) : cwB (mkCw opc a b c) = b := by
  apply BitVec.eq_of_getLsbD_eq
  intro i hi
  have h1 : ¬ (16 + i < 8) := by omega
  have h2 : ¬ (16 + i - 8 < 8) := by omega
  have h3 : 16 + i - 8 - 8 = i := by omega
  simp only [cwB, mkCw, BitVec.getLsbD_extractLsb', BitVec.getLsbD_append]
  simp [hi, h1, h2, h3]

@[simp] theorem cwC_mkCw (opc a b c : Byte) : cwC (mkCw opc a b c) = c := by
  apply BitVec.eq_of_getLsbD_eq
  intro i hi
  have h1 : ¬ (24 + i < 8) := by omega
  have h2 : ¬ (24 + i - 8 < 8) := by omega
  have h3 : ¬ (24 + i - 8 - 8 < 8) := by omega
  have h4 : 24 + i - 8 - 8 - 8 = i := by omega
  simp only [cwC, mkCw, BitVec.getLsbD_extractLsb', BitVec.getLsbD_append]
  simp [hi, h1, h2, h3, h4]

/-- A command word is its four fields. -/
theorem mkCw_fields (cw : Word) : mkCw (cwOpc cw) (cwA cw) (cwB cw) (cwC cw) = cw := by
  apply BitVec.eq_of_getLsbD_eq
  intro i hi
  simp only [cwOpc, cwA, cwB, cwC, mkCw, BitVec.getLsbD_extractLsb', BitVec.getLsbD_append]
  by_cases h1 : i < 8
  · simp [h1]
  · by_cases h2 : i - 8 < 8
    · have : 8 + (i - 8) = i := by omega
      simp [h1, h2, this]
    · by_cases h3 : i - 8 - 8 < 8
      · have : 16 + (i - 8 - 8) = i := by omega
        simp [h1, h2, h3, this]
      · have h4 : i - 8 - 8 - 8 < 8 := by omega
        have : 24 + (i - 8 - 8 - 8) = i := by omega
        simp [h1, h2, h3, h4, this]

/-! ### The opcode map -/

@[simp] theorem opcodeOf_code (op : Opcode) : opcodeOf op.code = some op := by cases op <;> decide

theorem code_of_opcodeOf {b : Byte} {op : Opcode} (h : opcodeOf b = some op) : op.code = b := by
  have := List.find?_some h
  simpa using this

@[simp] theorem encodeCw_opc (i : Instr) : cwOpc (encodeCw i) = i.opcode.code := by cases i <;> simp [encodeCw]

/-! ### Words and bytes -/

@[simp] theorem length_wordsOfBytes (bytes : List Byte) : (wordsOfBytes bytes).length = wordCount bytes.length := by
  simp [wordsOfBytes]

@[simp] theorem length_bytesOfWords (ws : List Word) (n : Nat) : (bytesOfWords ws n).length = n := by
  simp [bytesOfWords]

/-- Byte r of the word that holds bytes 4j .. 4j+3. -/
theorem extract_wordOfBytes (bytes : List Byte) (j r : Nat) (hr : r < 4) :
    (wordOfBytes bytes j).extractLsb' (8 * r) 8 = bytes.getD (4 * j + r) 0 := by
  apply BitVec.eq_of_getLsbD_eq
  intro i hi
  simp only [wordOfBytes, BitVec.getLsbD_extractLsb', BitVec.getLsbD_append]
  have hcases : r = 0 ∨ r = 1 ∨ r = 2 ∨ r = 3 := by omega
  rcases hcases with rfl | rfl | rfl | rfl
  · simp [hi]
  · simp [hi]
  · have h1 : ¬ (16 + i < 8) := by omega
    have h2 : ¬ (16 + i - 8 < 8) := by omega
    have h3 : 16 + i - 8 - 8 = i := by omega
    simp [hi, h1, h2, h3]
  · have h1 : ¬ (24 + i < 8) := by omega
    have h2 : ¬ (24 + i - 8 < 8) := by omega
    have h3 : ¬ (24 + i - 8 - 8 < 8) := by omega
    have h4 : 24 + i - 8 - 8 - 8 = i := by omega
    simp [hi, h1, h2, h3, h4]

/-- Unpacking the words of a byte list gives it back, whatever words follow. -/
theorem bytesOfWords_wordsOfBytes (bytes : List Byte) (rest : List Word) :
    bytesOfWords (wordsOfBytes bytes ++ rest) bytes.length = bytes := by
  apply List.ext_getElem (by simp)
  intro k h1 h2
  have hk : k < bytes.length := h2
  have hq : k / 4 < (wordsOfBytes bytes).length := by
    rw [length_wordsOfBytes, wordCount]
    omega
  have hw : (wordsOfBytes bytes ++ rest).getD (k / 4) 0 = wordOfBytes bytes (k / 4) := by
    rw [List.getD_eq_getElem?_getD, List.getElem?_append_left hq]
    simp only [length_wordsOfBytes] at hq
    simp [wordsOfBytes, hq]
  simp only [bytesOfWords, List.getElem_map, List.getElem_range, byteOfWords, hw]
  rw [extract_wordOfBytes _ _ _ (Nat.mod_lt _ (by omega))]
  have : 4 * (k / 4) + k % 4 = k := by omega
  rw [this]
  simp [List.getD, hk]

theorem bytesOfWords_wordsOfBytes' (bytes : List Byte) : bytesOfWords (wordsOfBytes bytes) bytes.length = bytes := by
  simpa using bytesOfWords_wordsOfBytes bytes []

/-! ### 64-bit values and multi-word values -/

@[simp] theorem valueOfWords_lo_hi (v : HVal) : valueOfWords (loWord v) (hiWord v) = v := by
  apply BitVec.eq_of_getLsbD_eq
  intro i hi
  simp only [valueOfWords, loWord, hiWord, BitVec.getLsbD_append, BitVec.getLsbD_extractLsb']
  by_cases h : i < 32
  · simp [h]
  · have h1 : i - 32 < 32 := by omega
    have h2 : 32 + (i - 32) = i := by omega
    simp [h, h1, h2]

@[simp] theorem loWord_valueOfWords (lo hi : Word) : loWord (valueOfWords lo hi) = lo := by
  apply BitVec.eq_of_getLsbD_eq
  intro i h
  simp only [valueOfWords, loWord, BitVec.getLsbD_append, BitVec.getLsbD_extractLsb']
  simp [h]

@[simp] theorem hiWord_valueOfWords (lo hi : Word) : hiWord (valueOfWords lo hi) = hi := by
  apply BitVec.eq_of_getLsbD_eq
  intro i h
  simp only [valueOfWords, hiWord, BitVec.getLsbD_append, BitVec.getLsbD_extractLsb']
  simp [h]

@[simp] theorem length_wordsOfNat (k x : Nat) : (wordsOfNat k x).length = k := by
  induction k generalizing x with
  | zero => rfl
  | succ k ih => simp [wordsOfNat, ih]

theorem natOfWords_wordsOfNat (k x : Nat) : natOfWords (wordsOfNat k x) = x % 2 ^ (32 * k) := by
  induction k generalizing x with
  | zero => simp [wordsOfNat, natOfWords, Nat.mod_one]
  | succ k ih =>
    have h : 2 ^ (32 * (k + 1)) = 2 ^ 32 * 2 ^ (32 * k) := by rw [← Nat.pow_add]; congr 1; omega
    rw [wordsOfNat, natOfWords, ih, BitVec.toNat_ofNat, h, Nat.mod_mul]

/-- The two selector bytes of a CFGX give its index back. -/
theorem cfgx_index (idx : BitVec 16) : (idx.extractLsb' 8 8 : Byte) ++ (idx.extractLsb' 0 8 : Byte) = idx := by
  rw [BitVec.extractLsb'_append_extractLsb'_eq_extractLsb' (x := idx) (start₁ := 0) (len₁ := 8) (start₂ := 8) (len₂ := 8)
    (by omega)]
  apply BitVec.eq_of_getLsbD_eq
  intro i hi
  simp [hi]

/-! ### Override entries -/

theorem overrideOfWords_words (o : Override) (ws : List Word) :
    overridesOfWords (o.words ++ ws) = o :: overridesOfWords ws := by
  obtain ⟨f, arg⟩ := o
  have hf0 : ((0 : BitVec 24) ++ f).extractLsb' 0 8 = f := by
    apply BitVec.eq_of_getLsbD_eq
    intro i h
    simp only [BitVec.getLsbD_append, BitVec.getLsbD_extractLsb']
    simp [h]
  have hf1 : ((0 : BitVec 16) ++ (1 : Byte) ++ f).extractLsb' 0 8 = f := by
    apply BitVec.eq_of_getLsbD_eq
    intro i h
    simp only [BitVec.getLsbD_append, BitVec.getLsbD_extractLsb']
    simp [h]
  have hb0 : ((0 : BitVec 24) ++ f).getLsbD 8 = false := by simp only [BitVec.getLsbD_append]; simp
  have hb1 : ((0 : BitVec 16) ++ (1 : Byte) ++ f).getLsbD 8 = true := by simp only [BitVec.getLsbD_append]; simp
  cases arg with
  | useDefault => simp only [Override.words, List.cons_append, List.nil_append, overridesOfWords, overrideOfWords, hf1, hb1]; rfl
  | value v =>
    simp only [Override.words, List.cons_append, List.nil_append, overridesOfWords, overrideOfWords, hf0, hb0,
      valueOfWords_lo_hi]
    rfl

@[simp] theorem length_overrideWords (o : Override) : o.words.length = 3 := by
  obtain ⟨f, arg⟩ := o
  cases arg <;> rfl

theorem overridesOfWords_flatMap (ovr : List Override) : overridesOfWords (ovr.flatMap Override.words) = ovr := by
  induction ovr with
  | nil => rfl
  | cons o os ih => rw [List.flatMap_cons, overrideOfWords_words, ih]

@[simp] theorem length_flatMap_overrideWords (ovr : List Override) : (ovr.flatMap Override.words).length = 3 * ovr.length := by
  induction ovr with
  | nil => rfl
  | cons o os ih => simp only [List.flatMap_cons, List.length_append, length_overrideWords, ih, List.length_cons]; omega

/-- A count that fits its selector byte is read back from it. -/
theorem toNat_count {n : Nat} (h : n ≤ 255) : (BitVec.ofNat 8 n).toNat = n := by
  rw [BitVec.toNat_ofNat]
  exact Nat.mod_eq_of_lt (by omega)

end Sys2Proof
end

