-- ==== Sys2Proof/Laws/Flags.lean ====
section
/-! SUPPORT. The laws of the status word, of the view and record words and of the registers' words: each as the sum of its
fields, and each field read back. -/

namespace Sys2Proof.Machine

/-! ### Concatenation as arithmetic -/

/-- `{a, b}` as a number. -/
theorem toNat_append_eq {n m : Nat} (a : BitVec n) (b : BitVec m) : (a ++ b).toNat = a.toNat * 2 ^ m + b.toNat := by
  rw [BitVec.toNat_append, Nat.shiftLeft_eq, Nat.mul_comm, ← Nat.two_pow_add_eq_or_of_lt b.isLt]

theorem toNat_zero_bits (n : Nat) : (0 : BitVec n).toNat = 0 := by simp

@[simp] theorem toNat_bit (b : Bool) : (bit b).toNat = b.toNat := by cases b <;> rfl

/-! ### The status word (30_encoding.md R83) -/

@[simp] theorem statusByte_eq_zero_iff (code : StatusCode) : statusByte code = 0#8 ↔ code = .ok := by cases code <;> decide

theorem statusByte_le (code : StatusCode) : (statusByte code).toNat ≤ 0x0B := by cases code <;> decide

@[simp] theorem statusWord_status (code : StatusCode) (sub : Byte) (fl : BitVec 4) (n : Nat) :
    (statusWord code sub fl n).extractLsb' 0 8 = statusByte code := by
  apply BitVec.eq_of_getLsbD_eq
  intro i hi
  simp only [statusWord, BitVec.getLsbD_extractLsb', BitVec.getLsbD_append]
  simp [hi]

@[simp] theorem statusWord_sub (code : StatusCode) (sub : Byte) (fl : BitVec 4) (n : Nat) :
    (statusWord code sub fl n).extractLsb' 8 8 = sub := by
  apply BitVec.eq_of_getLsbD_eq
  intro i hi
  simp only [statusWord, BitVec.getLsbD_extractLsb', BitVec.getLsbD_append]
  simp [hi]

@[simp] theorem statusWord_flags (code : StatusCode) (sub : Byte) (fl : BitVec 4) (n : Nat) :
    (statusWord code sub fl n).extractLsb' 16 4 = fl := by
  apply BitVec.eq_of_getLsbD_eq
  intro i hi
  have h1 : ¬ (16 + i < 8) := by omega
  have h2 : ¬ (16 + i - 8 < 8) := by omega
  have h3 : 16 + i - 8 - 8 = i := by omega
  simp only [statusWord, BitVec.getLsbD_extractLsb', BitVec.getLsbD_append]
  simp [hi, h1, h2, h3]

@[simp] theorem statusWord_nres (code : StatusCode) (sub : Byte) (fl : BitVec 4) (n : Nat) :
    (statusWord code sub fl n).extractLsb' 20 12 = BitVec.ofNat 12 n := by
  apply BitVec.eq_of_getLsbD_eq
  intro i hi
  have h1 : ¬ (20 + i < 8) := by omega
  have h2 : ¬ (20 + i - 8 < 8) := by omega
  have h3 : ¬ (20 + i - 8 - 8 < 4) := by omega
  have h4 : 20 + i - 8 - 8 - 4 = i := by omega
  simp only [statusWord, BitVec.getLsbD_extractLsb', BitVec.getLsbD_append]
  simp [hi, h1, h2, h3, h4]

/-- Bit 19 is bit 3 of FLAGS. -/
theorem statusWord_bit19 (code : StatusCode) (sub : Byte) (fl : BitVec 4) (n : Nat) :
    (statusWord code sub fl n).getLsbD 19 = fl.getLsbD 3 := by
  simp only [statusWord, BitVec.getLsbD_append]
  simp

/-- The status word as the sum of its fields. -/
theorem statusWord_toNat (code : StatusCode) (sub : Byte) (fl : BitVec 4) (n : Nat) :
    (statusWord code sub fl n).toNat
      = n % 2 ^ 12 * 2 ^ 20 + fl.toNat * 2 ^ 16 + sub.toNat * 2 ^ 8 + (statusByte code).toNat := by
  simp only [statusWord, toNat_append_eq, BitVec.toNat_ofNat]
  omega

@[simp] theorem flagsField_bit3 (empty unmapped ext : Bool) : (flagsField empty unmapped ext).getLsbD 3 = false := by
  cases empty <;> cases unmapped <;> cases ext <;> rfl

theorem flagsField_toNat (empty unmapped ext : Bool) :
    (flagsField empty unmapped ext).toNat = ext.toNat * 4 + unmapped.toNat * 2 + empty.toNat := by
  cases empty <;> cases unmapped <;> cases ext <;> rfl

/-! ### View, record and error words -/

theorem viewWord_toNat (f : Nat) (unmapped ext : Bool) :
    (viewWord f unmapped ext).toNat = ext.toNat * 2 ^ 9 + unmapped.toNat * 2 ^ 8 + f % 2 ^ 8 := by
  simp only [viewWord, toNat_append_eq, toNat_bit, toNat_zero_bits, BitVec.toNat_ofNat]
  omega

theorem recordWord_toNat (kind : RecordKind) (hasValue unmapped ext : Bool) (cont hdr : Byte) :
    (recordWord kind hasValue unmapped ext cont hdr).toNat
      = hdr.toNat * 2 ^ 16 + cont.toNat * 2 ^ 8 + ext.toNat * 2 ^ 4 + unmapped.toNat * 2 ^ 3 + hasValue.toNat * 2 ^ 2
        + (recordKindBits kind).toNat := by
  simp only [recordWord, toNat_append_eq, toNat_bit, toNat_zero_bits]
  omega

theorem cfgErrWord_toNat (isField : Bool) (code : Byte) (idx : Nat) :
    (cfgErrWord isField code idx).toNat = isField.toNat * 2 ^ 24 + code.toNat * 2 ^ 16 + idx % 2 ^ 16 := by
  simp only [cfgErrWord, toNat_append_eq, toNat_bit, toNat_zero_bits, BitVec.toNat_ofNat]
  omega

/-! ### The registers' words (10_state.md R23 to R25) -/

theorem statusRegister_toNat (s : State) :
    (statusRegister s).toNat
      = s.lastSub.toNat * 2 ^ 16 + s.lastErr.toNat * 2 ^ 8 + (queueFull s).toNat * 8 + (queueEmpty s).toNat * 4
        + s.decActive.toNat * 2 + s.cfgOk.toNat := by
  simp only [statusRegister, toNat_append_eq, toNat_bit, toNat_zero_bits]
  omega

theorem ctrlRegister_toNat (s : State) : (ctrlRegister s).toNat = (endianBit s.endian).toNat := by
  simp only [ctrlRegister, toNat_append_eq, toNat_bit, toNat_zero_bits]
  omega

theorem param0Register_toNat {p : Params} (h : p.legal = true) : (param0Register p).toNat = p.nc * 2 ^ 16 + p.nf := by
  simp only [Params.legal, Bool.and_eq_true, decide_eq_true_eq] at h
  simp only [param0Register, toNat_append_eq, BitVec.toNat_ofNat]
  omega

theorem param1Register_toNat {p : Params} (h : p.legal = true) :
    (param1Register p).toNat = p.dbufSize * 2 ^ 16 + p.xtSize := by
  simp only [Params.legal, Bool.and_eq_true, decide_eq_true_eq] at h
  simp only [param1Register, toNat_append_eq, BitVec.toNat_ofNat]
  omega

theorem param2Register_toNat {p : Params} (h : p.legal = true) :
    (param2Register p).toNat = p.sampleW * 2 ^ 24 + p.cmax * 2 ^ 16 + p.qcap := by
  simp only [Params.legal, Bool.and_eq_true, decide_eq_true_eq] at h
  simp only [param2Register, toNat_append_eq, BitVec.toNat_ofNat]
  omega

@[simp] theorem endianOfBit_endianBit (e : Endian) : endianOfBit (endianBit e) = e := by cases e <;> rfl

@[simp] theorem endianBit_endianOfBit (b : Bool) : endianBit (endianOfBit b) = b := by cases b <;> rfl

end Sys2Proof.Machine
end

