-- ==== Sys2Proof/Laws/State.lean ====
section
/-! SUPPORT. One lemma per field of State for each named update of the machine, so that no later proof unfolds an update. -/

namespace Sys2Proof.Machine

/-! ### The fields of `respond s r` -/

@[simp] theorem respond_params (s : State) (r : Response) : (respond s r).params = s.params := rfl
@[simp] theorem respond_draw (s : State) (r : Response) : (respond s r).draw = s.draw := rfl
@[simp] theorem respond_port (s : State) (r : Response) : (respond s r).port = s.port := rfl
@[simp] theorem respond_responses (s : State) (r : Response) : (respond s r).responses = s.responses ++ [r] := rfl
@[simp] theorem respond_endian (s : State) (r : Response) : (respond s r).endian = s.endian := rfl
@[simp] theorem respond_cfgOk (s : State) (r : Response) : (respond s r).cfgOk = s.cfgOk := rfl
@[simp] theorem respond_lastErr (s : State) (r : Response) : (respond s r).lastErr = s.lastErr := rfl
@[simp] theorem respond_lastSub (s : State) (r : Response) : (respond s r).lastSub = s.lastSub := rfl
@[simp] theorem respond_cfgErr (s : State) (r : Response) : (respond s r).cfgErr = s.cfgErr := rfl
@[simp] theorem respond_cdt (s : State) (r : Response) : (respond s r).cdt = s.cdt := rfl
@[simp] theorem respond_fdt (s : State) (r : Response) : (respond s r).fdt = s.fdt := rfl
@[simp] theorem respond_xt (s : State) (r : Response) : (respond s r).xt = s.xt := rfl
@[simp] theorem respond_dbuf (s : State) (r : Response) : (respond s r).dbuf = s.dbuf := rfl
@[simp] theorem respond_decLen (s : State) (r : Response) : (respond s r).decLen = s.decLen := rfl
@[simp] theorem respond_decPos (s : State) (r : Response) : (respond s r).decPos = s.decPos := rfl
@[simp] theorem respond_decActive (s : State) (r : Response) : (respond s r).decActive = s.decActive := rfl
@[simp] theorem respond_slots (s : State) (r : Response) : (respond s r).slots = s.slots := rfl
@[simp] theorem respond_rd (s : State) (r : Response) : (respond s r).rd = s.rd := rfl
@[simp] theorem respond_wr (s : State) (r : Response) : (respond s r).wr = s.wr := rfl
@[simp] theorem respond_discCnt (s : State) (r : Response) : (respond s r).discCnt = s.discCnt := rfl
@[simp] theorem respond_discTs (s : State) (r : Response) : (respond s r).discTs = s.discTs := rfl

/-! ### The fields of `raiseState s f` -/

@[simp] theorem raiseState_params (s : State) (f : Failure) : (raiseState s f).params = s.params := rfl
@[simp] theorem raiseState_draw (s : State) (f : Failure) : (raiseState s f).draw = s.draw := rfl
@[simp] theorem raiseState_port (s : State) (f : Failure) : (raiseState s f).port = s.port := rfl
@[simp] theorem raiseState_responses (s : State) (f : Failure) : (raiseState s f).responses = s.responses ++ [failureResponse f] := rfl
@[simp] theorem raiseState_endian (s : State) (f : Failure) : (raiseState s f).endian = s.endian := rfl
@[simp] theorem raiseState_cfgOk (s : State) (f : Failure) : (raiseState s f).cfgOk = s.cfgOk := rfl
@[simp] theorem raiseState_lastErr (s : State) (f : Failure) : (raiseState s f).lastErr = statusByte f.code := rfl
@[simp] theorem raiseState_lastSub (s : State) (f : Failure) : (raiseState s f).lastSub = f.sub := rfl
@[simp] theorem raiseState_cfgErr (s : State) (f : Failure) : (raiseState s f).cfgErr = s.cfgErr := rfl
@[simp] theorem raiseState_cdt (s : State) (f : Failure) : (raiseState s f).cdt = s.cdt := rfl
@[simp] theorem raiseState_fdt (s : State) (f : Failure) : (raiseState s f).fdt = s.fdt := rfl
@[simp] theorem raiseState_xt (s : State) (f : Failure) : (raiseState s f).xt = s.xt := rfl
@[simp] theorem raiseState_dbuf (s : State) (f : Failure) : (raiseState s f).dbuf = s.dbuf := rfl
@[simp] theorem raiseState_decLen (s : State) (f : Failure) : (raiseState s f).decLen = s.decLen := rfl
@[simp] theorem raiseState_decPos (s : State) (f : Failure) : (raiseState s f).decPos = s.decPos := rfl
@[simp] theorem raiseState_decActive (s : State) (f : Failure) : (raiseState s f).decActive = s.decActive := rfl
@[simp] theorem raiseState_slots (s : State) (f : Failure) : (raiseState s f).slots = s.slots := rfl
@[simp] theorem raiseState_rd (s : State) (f : Failure) : (raiseState s f).rd = s.rd := rfl
@[simp] theorem raiseState_wr (s : State) (f : Failure) : (raiseState s f).wr = s.wr := rfl
@[simp] theorem raiseState_discCnt (s : State) (f : Failure) : (raiseState s f).discCnt = s.discCnt := rfl
@[simp] theorem raiseState_discTs (s : State) (f : Failure) : (raiseState s f).discTs = s.discTs := rfl

/-! ### The fields of `writeCtrl s v` -/

@[simp] theorem writeCtrl_params (s : State) (v : Word) : (writeCtrl s v).params = s.params := rfl
@[simp] theorem writeCtrl_draw (s : State) (v : Word) : (writeCtrl s v).draw = s.draw := rfl
@[simp] theorem writeCtrl_port (s : State) (v : Word) : (writeCtrl s v).port = s.port := rfl
@[simp] theorem writeCtrl_responses (s : State) (v : Word) : (writeCtrl s v).responses = s.responses := rfl
@[simp] theorem writeCtrl_endian (s : State) (v : Word) : (writeCtrl s v).endian = endianOfBit (v.getLsbD 0) := rfl
@[simp] theorem writeCtrl_cfgOk (s : State) (v : Word) : (writeCtrl s v).cfgOk = s.cfgOk := rfl
@[simp] theorem writeCtrl_lastErr (s : State) (v : Word) : (writeCtrl s v).lastErr = if v.getLsbD 1 then 0 else s.lastErr := rfl
@[simp] theorem writeCtrl_lastSub (s : State) (v : Word) : (writeCtrl s v).lastSub = if v.getLsbD 1 then 0 else s.lastSub := rfl
@[simp] theorem writeCtrl_cfgErr (s : State) (v : Word) : (writeCtrl s v).cfgErr = s.cfgErr := rfl
@[simp] theorem writeCtrl_cdt (s : State) (v : Word) : (writeCtrl s v).cdt = s.cdt := rfl
@[simp] theorem writeCtrl_fdt (s : State) (v : Word) : (writeCtrl s v).fdt = s.fdt := rfl
@[simp] theorem writeCtrl_xt (s : State) (v : Word) : (writeCtrl s v).xt = s.xt := rfl
@[simp] theorem writeCtrl_dbuf (s : State) (v : Word) : (writeCtrl s v).dbuf = s.dbuf := rfl
@[simp] theorem writeCtrl_decLen (s : State) (v : Word) : (writeCtrl s v).decLen = s.decLen := rfl
@[simp] theorem writeCtrl_decPos (s : State) (v : Word) : (writeCtrl s v).decPos = s.decPos := rfl
@[simp] theorem writeCtrl_decActive (s : State) (v : Word) : (writeCtrl s v).decActive = s.decActive := rfl
@[simp] theorem writeCtrl_slots (s : State) (v : Word) : (writeCtrl s v).slots = s.slots := rfl
@[simp] theorem writeCtrl_rd (s : State) (v : Word) : (writeCtrl s v).rd = s.rd := rfl
@[simp] theorem writeCtrl_wr (s : State) (v : Word) : (writeCtrl s v).wr = s.wr := rfl
@[simp] theorem writeCtrl_discCnt (s : State) (v : Word) : (writeCtrl s v).discCnt = s.discCnt := rfl
@[simp] theorem writeCtrl_discTs (s : State) (v : Word) : (writeCtrl s v).discTs = s.discTs := rfl

/-! ### The fields of `setCursor s pos` -/

@[simp] theorem setCursor_params (s : State) (pos : Nat) : (setCursor s pos).params = s.params := rfl
@[simp] theorem setCursor_draw (s : State) (pos : Nat) : (setCursor s pos).draw = s.draw := rfl
@[simp] theorem setCursor_port (s : State) (pos : Nat) : (setCursor s pos).port = s.port := rfl
@[simp] theorem setCursor_responses (s : State) (pos : Nat) : (setCursor s pos).responses = s.responses := rfl
@[simp] theorem setCursor_endian (s : State) (pos : Nat) : (setCursor s pos).endian = s.endian := rfl
@[simp] theorem setCursor_cfgOk (s : State) (pos : Nat) : (setCursor s pos).cfgOk = s.cfgOk := rfl
@[simp] theorem setCursor_lastErr (s : State) (pos : Nat) : (setCursor s pos).lastErr = s.lastErr := rfl
@[simp] theorem setCursor_lastSub (s : State) (pos : Nat) : (setCursor s pos).lastSub = s.lastSub := rfl
@[simp] theorem setCursor_cfgErr (s : State) (pos : Nat) : (setCursor s pos).cfgErr = s.cfgErr := rfl
@[simp] theorem setCursor_cdt (s : State) (pos : Nat) : (setCursor s pos).cdt = s.cdt := rfl
@[simp] theorem setCursor_fdt (s : State) (pos : Nat) : (setCursor s pos).fdt = s.fdt := rfl
@[simp] theorem setCursor_xt (s : State) (pos : Nat) : (setCursor s pos).xt = s.xt := rfl
@[simp] theorem setCursor_dbuf (s : State) (pos : Nat) : (setCursor s pos).dbuf = s.dbuf := rfl
@[simp] theorem setCursor_decLen (s : State) (pos : Nat) : (setCursor s pos).decLen = s.decLen := rfl
@[simp] theorem setCursor_decPos (s : State) (pos : Nat) : (setCursor s pos).decPos = BitVec.ofNat 16 pos := rfl
@[simp] theorem setCursor_decActive (s : State) (pos : Nat) : (setCursor s pos).decActive = decide (pos < s.decLen.toNat) := rfl
@[simp] theorem setCursor_slots (s : State) (pos : Nat) : (setCursor s pos).slots = s.slots := rfl
@[simp] theorem setCursor_rd (s : State) (pos : Nat) : (setCursor s pos).rd = s.rd := rfl
@[simp] theorem setCursor_wr (s : State) (pos : Nat) : (setCursor s pos).wr = s.wr := rfl
@[simp] theorem setCursor_discCnt (s : State) (pos : Nat) : (setCursor s pos).discCnt = s.discCnt := rfl
@[simp] theorem setCursor_discTs (s : State) (pos : Nat) : (setCursor s pos).discTs = s.discTs := rfl

/-! ### The fields of `clearModel s` -/

@[simp] theorem clearModel_params (s : State) : (clearModel s).params = s.params := rfl
@[simp] theorem clearModel_draw (s : State) : (clearModel s).draw = s.draw := rfl
@[simp] theorem clearModel_port (s : State) : (clearModel s).port = s.port := rfl
@[simp] theorem clearModel_responses (s : State) : (clearModel s).responses = s.responses := rfl
@[simp] theorem clearModel_endian (s : State) : (clearModel s).endian = s.endian := rfl
@[simp] theorem clearModel_cfgOk (s : State) : (clearModel s).cfgOk = false := rfl
@[simp] theorem clearModel_lastErr (s : State) : (clearModel s).lastErr = s.lastErr := rfl
@[simp] theorem clearModel_lastSub (s : State) : (clearModel s).lastSub = s.lastSub := rfl
@[simp] theorem clearModel_cfgErr (s : State) : (clearModel s).cfgErr = 0 := rfl
@[simp] theorem clearModel_cdt (s : State) : (clearModel s).cdt = invalidateContainers s.cdt := rfl
@[simp] theorem clearModel_fdt (s : State) : (clearModel s).fdt = invalidateFields s.fdt := rfl
@[simp] theorem clearModel_xt (s : State) : (clearModel s).xt = s.xt := rfl
@[simp] theorem clearModel_dbuf (s : State) : (clearModel s).dbuf = s.dbuf := rfl
@[simp] theorem clearModel_decLen (s : State) : (clearModel s).decLen = 0 := rfl
@[simp] theorem clearModel_decPos (s : State) : (clearModel s).decPos = 0 := rfl
@[simp] theorem clearModel_decActive (s : State) : (clearModel s).decActive = false := rfl
@[simp] theorem clearModel_slots (s : State) : (clearModel s).slots = s.slots := rfl
@[simp] theorem clearModel_rd (s : State) : (clearModel s).rd = s.rd := rfl
@[simp] theorem clearModel_wr (s : State) : (clearModel s).wr = s.wr := rfl
@[simp] theorem clearModel_discCnt (s : State) : (clearModel s).discCnt = s.discCnt := rfl
@[simp] theorem clearModel_discTs (s : State) : (clearModel s).discTs = s.discTs := rfl

/-! ### The fields of `enqueue s x` -/

@[simp] theorem enqueue_params (s : State) (x : Sample) : (enqueue s x).params = s.params := rfl
@[simp] theorem enqueue_draw (s : State) (x : Sample) : (enqueue s x).draw = s.draw := rfl
@[simp] theorem enqueue_port (s : State) (x : Sample) : (enqueue s x).port = s.port := rfl
@[simp] theorem enqueue_responses (s : State) (x : Sample) : (enqueue s x).responses = s.responses := rfl
@[simp] theorem enqueue_endian (s : State) (x : Sample) : (enqueue s x).endian = s.endian := rfl
@[simp] theorem enqueue_cfgOk (s : State) (x : Sample) : (enqueue s x).cfgOk = s.cfgOk := rfl
@[simp] theorem enqueue_lastErr (s : State) (x : Sample) : (enqueue s x).lastErr = s.lastErr := rfl
@[simp] theorem enqueue_lastSub (s : State) (x : Sample) : (enqueue s x).lastSub = s.lastSub := rfl
@[simp] theorem enqueue_cfgErr (s : State) (x : Sample) : (enqueue s x).cfgErr = s.cfgErr := rfl
@[simp] theorem enqueue_cdt (s : State) (x : Sample) : (enqueue s x).cdt = s.cdt := rfl
@[simp] theorem enqueue_fdt (s : State) (x : Sample) : (enqueue s x).fdt = s.fdt := rfl
@[simp] theorem enqueue_xt (s : State) (x : Sample) : (enqueue s x).xt = s.xt := rfl
@[simp] theorem enqueue_dbuf (s : State) (x : Sample) : (enqueue s x).dbuf = s.dbuf := rfl
@[simp] theorem enqueue_decLen (s : State) (x : Sample) : (enqueue s x).decLen = s.decLen := rfl
@[simp] theorem enqueue_decPos (s : State) (x : Sample) : (enqueue s x).decPos = s.decPos := rfl
@[simp] theorem enqueue_decActive (s : State) (x : Sample) : (enqueue s x).decActive = s.decActive := rfl
@[simp] theorem enqueue_slots (s : State) (x : Sample) : (enqueue s x).slots = tableWrite s.slots s.wr.toNat (truncSample s.params x) := rfl
@[simp] theorem enqueue_rd (s : State) (x : Sample) : (enqueue s x).rd = s.rd := rfl
@[simp] theorem enqueue_wr (s : State) (x : Sample) : (enqueue s x).wr = nextSlot s.params s.wr := rfl
@[simp] theorem enqueue_discCnt (s : State) (x : Sample) : (enqueue s x).discCnt = s.discCnt := rfl
@[simp] theorem enqueue_discTs (s : State) (x : Sample) : (enqueue s x).discTs = s.discTs := rfl

/-! ### The fields of `evict s ts` -/

@[simp] theorem evict_params (s : State) (ts : Word) : (evict s ts).params = s.params := rfl
@[simp] theorem evict_draw (s : State) (ts : Word) : (evict s ts).draw = s.draw := rfl
@[simp] theorem evict_port (s : State) (ts : Word) : (evict s ts).port = s.port := rfl
@[simp] theorem evict_responses (s : State) (ts : Word) : (evict s ts).responses = s.responses := rfl
@[simp] theorem evict_endian (s : State) (ts : Word) : (evict s ts).endian = s.endian := rfl
@[simp] theorem evict_cfgOk (s : State) (ts : Word) : (evict s ts).cfgOk = s.cfgOk := rfl
@[simp] theorem evict_lastErr (s : State) (ts : Word) : (evict s ts).lastErr = s.lastErr := rfl
@[simp] theorem evict_lastSub (s : State) (ts : Word) : (evict s ts).lastSub = s.lastSub := rfl
@[simp] theorem evict_cfgErr (s : State) (ts : Word) : (evict s ts).cfgErr = s.cfgErr := rfl
@[simp] theorem evict_cdt (s : State) (ts : Word) : (evict s ts).cdt = s.cdt := rfl
@[simp] theorem evict_fdt (s : State) (ts : Word) : (evict s ts).fdt = s.fdt := rfl
@[simp] theorem evict_xt (s : State) (ts : Word) : (evict s ts).xt = s.xt := rfl
@[simp] theorem evict_dbuf (s : State) (ts : Word) : (evict s ts).dbuf = s.dbuf := rfl
@[simp] theorem evict_decLen (s : State) (ts : Word) : (evict s ts).decLen = s.decLen := rfl
@[simp] theorem evict_decPos (s : State) (ts : Word) : (evict s ts).decPos = s.decPos := rfl
@[simp] theorem evict_decActive (s : State) (ts : Word) : (evict s ts).decActive = s.decActive := rfl
@[simp] theorem evict_slots (s : State) (ts : Word) : (evict s ts).slots = s.slots := rfl
@[simp] theorem evict_rd (s : State) (ts : Word) : (evict s ts).rd = nextSlot s.params s.rd := rfl
@[simp] theorem evict_wr (s : State) (ts : Word) : (evict s ts).wr = s.wr := rfl
@[simp] theorem evict_discCnt (s : State) (ts : Word) : (evict s ts).discCnt = saturatingSucc s.discCnt := rfl
@[simp] theorem evict_discTs (s : State) (ts : Word) : (evict s ts).discTs = ts := rfl

/-! ### The fields of `presentCommand s c` -/

@[simp] theorem presentCommand_params (s : State) (c : Command) : (presentCommand s c).params = s.params := rfl
@[simp] theorem presentCommand_draw (s : State) (c : Command) : (presentCommand s c).draw = s.draw := rfl
@[simp] theorem presentCommand_port (s : State) (c : Command) : (presentCommand s c).port = .command c :: s.port := rfl
@[simp] theorem presentCommand_responses (s : State) (c : Command) : (presentCommand s c).responses = s.responses := rfl
@[simp] theorem presentCommand_endian (s : State) (c : Command) : (presentCommand s c).endian = s.endian := rfl
@[simp] theorem presentCommand_cfgOk (s : State) (c : Command) : (presentCommand s c).cfgOk = s.cfgOk := rfl
@[simp] theorem presentCommand_lastErr (s : State) (c : Command) : (presentCommand s c).lastErr = s.lastErr := rfl
@[simp] theorem presentCommand_lastSub (s : State) (c : Command) : (presentCommand s c).lastSub = s.lastSub := rfl
@[simp] theorem presentCommand_cfgErr (s : State) (c : Command) : (presentCommand s c).cfgErr = s.cfgErr := rfl
@[simp] theorem presentCommand_cdt (s : State) (c : Command) : (presentCommand s c).cdt = s.cdt := rfl
@[simp] theorem presentCommand_fdt (s : State) (c : Command) : (presentCommand s c).fdt = s.fdt := rfl
@[simp] theorem presentCommand_xt (s : State) (c : Command) : (presentCommand s c).xt = s.xt := rfl
@[simp] theorem presentCommand_dbuf (s : State) (c : Command) : (presentCommand s c).dbuf = s.dbuf := rfl
@[simp] theorem presentCommand_decLen (s : State) (c : Command) : (presentCommand s c).decLen = s.decLen := rfl
@[simp] theorem presentCommand_decPos (s : State) (c : Command) : (presentCommand s c).decPos = s.decPos := rfl
@[simp] theorem presentCommand_decActive (s : State) (c : Command) : (presentCommand s c).decActive = s.decActive := rfl
@[simp] theorem presentCommand_slots (s : State) (c : Command) : (presentCommand s c).slots = s.slots := rfl
@[simp] theorem presentCommand_rd (s : State) (c : Command) : (presentCommand s c).rd = s.rd := rfl
@[simp] theorem presentCommand_wr (s : State) (c : Command) : (presentCommand s c).wr = s.wr := rfl
@[simp] theorem presentCommand_discCnt (s : State) (c : Command) : (presentCommand s c).discCnt = s.discCnt := rfl
@[simp] theorem presentCommand_discTs (s : State) (c : Command) : (presentCommand s c).discTs = s.discTs := rfl

/-! ### The fields of `State.afterReset p d q rs` -/

@[simp] theorem afterReset_params (p : Params) (d : Nat) (q : List PortEvent) (rs : List Response) : (State.afterReset p d q rs).params = p := rfl
@[simp] theorem afterReset_draw (p : Params) (d : Nat) (q : List PortEvent) (rs : List Response) : (State.afterReset p d q rs).draw = d := rfl
@[simp] theorem afterReset_port (p : Params) (d : Nat) (q : List PortEvent) (rs : List Response) : (State.afterReset p d q rs).port = q := rfl
@[simp] theorem afterReset_responses (p : Params) (d : Nat) (q : List PortEvent) (rs : List Response) : (State.afterReset p d q rs).responses = rs := rfl
@[simp] theorem afterReset_endian (p : Params) (d : Nat) (q : List PortEvent) (rs : List Response) : (State.afterReset p d q rs).endian = .little := rfl
@[simp] theorem afterReset_cfgOk (p : Params) (d : Nat) (q : List PortEvent) (rs : List Response) : (State.afterReset p d q rs).cfgOk = false := rfl
@[simp] theorem afterReset_lastErr (p : Params) (d : Nat) (q : List PortEvent) (rs : List Response) : (State.afterReset p d q rs).lastErr = 0 := rfl
@[simp] theorem afterReset_lastSub (p : Params) (d : Nat) (q : List PortEvent) (rs : List Response) : (State.afterReset p d q rs).lastSub = 0 := rfl
@[simp] theorem afterReset_cfgErr (p : Params) (d : Nat) (q : List PortEvent) (rs : List Response) : (State.afterReset p d q rs).cfgErr = 0 := rfl
@[simp] theorem afterReset_cdt (p : Params) (d : Nat) (q : List PortEvent) (rs : List Response) : (State.afterReset p d q rs).cdt = [] := rfl
@[simp] theorem afterReset_fdt (p : Params) (d : Nat) (q : List PortEvent) (rs : List Response) : (State.afterReset p d q rs).fdt = [] := rfl
@[simp] theorem afterReset_xt (p : Params) (d : Nat) (q : List PortEvent) (rs : List Response) : (State.afterReset p d q rs).xt = [] := rfl
@[simp] theorem afterReset_dbuf (p : Params) (d : Nat) (q : List PortEvent) (rs : List Response) : (State.afterReset p d q rs).dbuf = [] := rfl
@[simp] theorem afterReset_decLen (p : Params) (d : Nat) (q : List PortEvent) (rs : List Response) : (State.afterReset p d q rs).decLen = 0 := rfl
@[simp] theorem afterReset_decPos (p : Params) (d : Nat) (q : List PortEvent) (rs : List Response) : (State.afterReset p d q rs).decPos = 0 := rfl
@[simp] theorem afterReset_decActive (p : Params) (d : Nat) (q : List PortEvent) (rs : List Response) : (State.afterReset p d q rs).decActive = false := rfl
@[simp] theorem afterReset_slots (p : Params) (d : Nat) (q : List PortEvent) (rs : List Response) : (State.afterReset p d q rs).slots = [] := rfl
@[simp] theorem afterReset_rd (p : Params) (d : Nat) (q : List PortEvent) (rs : List Response) : (State.afterReset p d q rs).rd = 0 := rfl
@[simp] theorem afterReset_wr (p : Params) (d : Nat) (q : List PortEvent) (rs : List Response) : (State.afterReset p d q rs).wr = 0 := rfl
@[simp] theorem afterReset_discCnt (p : Params) (d : Nat) (q : List PortEvent) (rs : List Response) : (State.afterReset p d q rs).discCnt = 0 := rfl
@[simp] theorem afterReset_discTs (p : Params) (d : Nat) (q : List PortEvent) (rs : List Response) : (State.afterReset p d q rs).discTs = 0 := rfl

theorem resetEvent_eq (s : State) : resetEvent s = State.afterReset s.params (s.draw + 1) s.port s.responses := rfl

end Sys2Proof.Machine
end

