-- ==== Sys2Proof/Laws/Exec.lean ====
section
/-! SUPPORT. Said once: how a command can end. Every command raises a status, or fails a commit, or succeeds with the writes that
`Writes` names; a proof about every command cites `exec_ends` and splits `Writes`, and unfolds no meaning. -/

namespace Sys2Proof.Machine

/-- What the rule of a command that succeeds writes: `s'` is `s` with those writes, under the checks that passed. -/
def Writes (i : Instr) (s s' : State) : Prop :=
  match i with
  | .csrw _ v => s' = writeCtrl s v ∧ (s.cfgOk = true → endianOfBit (v.getLsbD 0) = s.endian)
  | .cfgclr => s' = clearModel s
  | .cfgc c word =>
      s.cfgOk = false ∧ c.toNat < s.params.nc ∧ s' = { s with cdt := tableWrite s.cdt c.toNat (containerOfWord word) }
  | .cfgf f ws =>
      s.cfgOk = false ∧ f.toNat < s.params.nf ∧ s' = { s with fdt := tableWrite s.fdt f.toNat (fieldOfWords ws) }
  | .cfgx idx v => s.cfgOk = false ∧ idx.toNat < s.params.xtSize ∧ s' = { s with xt := tableWrite s.xt idx.toNat v }
  | .cfgcommit => s.cfgOk = false ∧ commitCheck s = none ∧ s' = { s with cfgOk := true, cfgErr := 0 }
  | .dbwr a bytes =>
      s.decActive = false ∧ a.toNat + bytes.length ≤ s.params.dbufSize
        ∧ s' = { s with dbuf := memoryWrite s.dbuf a.toNat bytes }
  | .dstart len =>
      s.cfgOk = true ∧ len.toNat ≤ s.params.dbufSize
        ∧ s' = setCursor { s with decLen := BitVec.ofNat 16 len.toNat } 0
  | .dnext =>
      s.cfgOk = true ∧ (s.decActive = false ∧ s' = s ∨ s.decActive = true ∧ s' = setCursor s (decodeStep s).2)
  | .qput sample ts =>
      s' = if (enqueue s sample).wr = (enqueue s sample).rd then evict (enqueue s sample) ts else enqueue s sample
  | .qget => queueEmpty s = true ∧ s' = s ∨ queueEmpty s = false ∧ s' = { s with rd := nextSlot s.params s.rd }
  | .qreset => s' = { s with rd := 0, wr := 0 }
  | .qdisc => s' = { s with discCnt := 0, discTs := 0 }
  | .nop | .csrr _ | .funpack _ _ | .fpack _ _ | .cunpack _ _ | .cpacku _ _ _ | .cpackr _ _ | .dbrd _ _ | .qsize | .qempty
  | .qfull => s' = s

/-- The commands' end: a raise, a failed commit, or a success with the writes of `Writes`. -/
inductive Ends (i : Instr) (s : State) : Host.Outcome State Fault Refusal → Prop where
  | raised (f : Failure) (hf : f.code ≠ .ok) : Ends i s (raise s f)
  | commitFailed (e : CommitFailure) (hi : i = .cfgcommit) (hs : s.cfgOk = false) (he : commitCheck s = some e) :
      Ends i s (raiseCommit s e)
  | succeeded (s' : State) (fl : BitVec 4) (rs : List Word) (hw : Writes i s s') (hfl : fl.getLsbD 3 = false)
      (hrs : s.params.legal = true → rs.length < 4096) : Ends i s (succeed s' fl rs)

/-- No rule writes the port, the responses, the parameters or the draw. -/
theorem writes_host {i : Instr} {s s' : State} (hw : Writes i s s') :
    s'.port = s.port ∧ s'.responses = s.responses ∧ s'.params = s.params ∧ s'.draw = s.draw := by
  cases i with
  | csrw => obtain ⟨rfl, _⟩ := hw; exact ⟨rfl, rfl, rfl, rfl⟩
  | dnext => obtain ⟨_, ⟨_, rfl⟩ | ⟨_, rfl⟩⟩ := hw <;> exact ⟨rfl, rfl, rfl, rfl⟩
  | qput => simp only [Writes] at hw; subst hw; split <;> exact ⟨rfl, rfl, rfl, rfl⟩
  | qget => obtain ⟨_, rfl⟩ | ⟨_, rfl⟩ := hw <;> exact ⟨rfl, rfl, rfl, rfl⟩
  | cfgclr | qreset | qdisc => simp only [Writes] at hw; subst hw; exact ⟨rfl, rfl, rfl, rfl⟩
  | cfgc | cfgf | cfgx | cfgcommit | dbwr | dstart => obtain ⟨_, _, rfl⟩ := hw; exact ⟨rfl, rfl, rfl, rfl⟩
  | _ => obtain rfl := hw; exact ⟨rfl, rfl, rfl, rfl⟩

/-! ### Result lengths -/

@[simp] theorem length_intToLittle (x n : Nat) : (intToLittle x n).length = n := by
  induction n generalizing x with
  | zero => rfl
  | succ n ih => simp [intToLittle, ih]

@[simp] theorem length_intToBytes (x n : Nat) (e : Endian) : (intToBytes x n e).length = n := by
  cases e <;> simp [intToBytes]

@[simp] theorem length_imageWords (x n : Nat) (e : Endian) : (imageWords x n e).length = (n + 3) / 4 := by
  simp [imageWords, wordCount]

theorem payloadBytes_le (d : ContainerDesc) : payloadBytes d ≤ 255 := by
  have := d.size.isLt
  simp only [payloadBytes]
  split <;> omega

theorem length_fieldsOf_le (s : State) (c : Nat) : (fieldsOf s c).length ≤ s.params.nf := by
  simpa [fieldsOf] using List.length_filter_le (fun f => (fieldAt s f).valid && decide (ownerOf s f = c)) (List.range s.params.nf)

theorem legal_nf {p : Params} (h : p.legal = true) : p.nf ≤ 256 := by
  simp only [Params.legal, Bool.and_eq_true, decide_eq_true_eq] at h
  omega

theorem legal_sampleW {p : Params} (h : p.legal = true) : 1 ≤ p.sampleW ∧ p.sampleW ≤ 255 := by
  simp only [Params.legal, Bool.and_eq_true, decide_eq_true_eq] at h
  omega

theorem legal_qcap {p : Params} (h : p.legal = true) : 2 ≤ p.qcap ∧ p.qcap ≤ 65535 := by
  simp only [Params.legal, Bool.and_eq_true, decide_eq_true_eq] at h
  omega

theorem legal_dbufSize {p : Params} (h : p.legal = true) : 1 ≤ p.dbufSize ∧ p.dbufSize ≤ 65535 := by
  simp only [Params.legal, Bool.and_eq_true, decide_eq_true_eq] at h
  omega

theorem legal_nc {p : Params} (h : p.legal = true) : 1 ≤ p.nc ∧ p.nc ≤ 256 := by
  simp only [Params.legal, Bool.and_eq_true, decide_eq_true_eq] at h
  omega

theorem length_unpackedEntries (s : State) (cint : Nat) (fs : List Nat) :
    (fs.flatMap (unpackedEntry s cint)).length = 3 * fs.length := by
  induction fs with
  | nil => rfl
  | cons f fs ih =>
    rw [List.flatMap_cons, List.length_append, ih]
    simp only [unpackedEntry, entryWords, List.length_cons, List.length_nil]
    omega

theorem length_viewEntries (es : List ViewEntry) :
    (es.flatMap fun e => entryWords e.field false e.ext e.value).length = 3 * es.length := by
  induction es with
  | nil => rfl
  | cons e es ih =>
    rw [List.flatMap_cons, List.length_append, ih]
    simp only [entryWords, List.length_cons, List.length_nil]
    omega

/-! ### The failures a check can name -/

theorem packField_error {s : State} {f : Nat} {arg : FieldArg} {e : Failure} (h : packField s f arg = .error e) :
    e.code = .invalidValue ∧ e.info = indexWord f := by
  simp only [packField] at h
  split at h
  · cases h; exact ⟨rfl, rfl⟩
  · split at h
    · cases h; exact ⟨rfl, rfl⟩
    · split at h
      · cases h; exact ⟨rfl, rfl⟩
      · cases h

theorem mergeFields_error {s : State} {mode : MergeMode} {ovr : List Override} {fs : List Nat} {e : Failure}
    (h : mergeFields s mode ovr fs = .error e) : e.code = .invalidValue := by
  induction fs with
  | nil => cases h
  | cons f fs ih =>
    simp only [mergeFields] at h
    split at h
    · cases h; rfl
    · split at h
      · rename_i hp; cases h; exact (packField_error hp).1
      · split at h
        · rename_i hm; cases h; exact ih hm
        · cases h

/-- The view of a merge names its fields, in order. -/
theorem mergeFields_view {s : State} {mode : MergeMode} {ovr : List Override} {fs : List Nat} {m : Merged}
    (h : mergeFields s mode ovr fs = .ok m) : m.view.map (·.field) = fs := by
  induction fs generalizing m with
  | nil => cases h; rfl
  | cons f fs ih =>
    simp only [mergeFields] at h
    split at h
    · cases h
    · split at h
      · cases h
      · split at h
        · cases h
        · rename_i hm; cases h; simp [ih hm]

theorem containerPack_error {s : State} {c : Nat} {mode : MergeMode} {ovr : List Override} {e : Failure}
    (h : containerPack s c mode ovr = .error e) : e.code ≠ .ok := by
  simp only [containerPack] at h
  split at h
  · cases h; simp
  · rw [mergeFields_error h]; simp

theorem containerPack_view {s : State} {c : Nat} {mode : MergeMode} {ovr : List Override} {m : Merged}
    (h : containerPack s c mode ovr = .ok m) : m.view.map (·.field) = fieldsOf s c := by
  simp only [containerPack] at h
  split at h
  · cases h
  · exact mergeFields_view h

theorem overrideFailure_code {s : State} {c : Nat} {o : Override} {e : Failure} (h : overrideFailure s c o = some e) :
    e.code ≠ .ok := by
  simp only [overrideFailure] at h
  split at h
  · cases h; simp
  · split at h
    · cases h; simp
    · cases h

/-! ### The ends of the commands -/

theorem finishPack_ends {i : Instr} {s : State} (hi : ∀ s', s' = s → Writes i s s') (c : Nat) (mode : MergeMode)
    (ovr : List Override) : Ends i s (finishPack s c mode ovr) := by
  simp only [finishPack]
  split
  · rename_i e h
    obtain ⟨o, _, ho⟩ := List.exists_of_findSome?_eq_some h
    exact .raised _ (overrideFailure_code ho)
  · split
    · rename_i h
      exact .raised _ (containerPack_error h)
    · rename_i m h
      refine .succeeded _ _ _ (hi s rfl) (by simp) fun hp => ?_
      have h1 : m.view.length = (fieldsOf s c).length := by rw [← containerPack_view h, List.length_map]
      have h2 := length_fieldsOf_le s c
      have h3 := legal_nf hp
      have h4 := payloadBytes_le (containerAt s c)
      simp only [mergedWords, List.length_append, length_imageWords, length_viewEntries, h1, payloadOf]
      omega

/-- Every command raises, fails a commit, or succeeds with its writes. -/
theorem exec_ends (i : Instr) (s : State) : Ends i s (exec i s) := by
  have one (fl : BitVec 4) (hfl : fl.getLsbD 3 = false) (s' : State) (rs : List Word) (hrs : rs.length < 10)
      (hw : Writes i s s') : Ends i s (succeed s' fl rs) := .succeeded _ _ _ hw hfl fun _ => by omega
  cases i with
  | nop => exact one 0 rfl _ _ (by simp) rfl
  | csrr csr =>
    simp only [exec, execCsrr]
    split
    · exact .raised _ (by simp)
    · exact one 0 rfl _ _ (by simp) rfl
  | csrw csr v =>
    simp only [exec, execCsrw]
    split
    · exact .raised _ (by simp)
    · split
      · exact .raised _ (by simp)
      · split
        · exact .raised _ (by simp)
        · rename_i h
          refine one 0 rfl _ _ (by simp) ⟨rfl, fun hc => ?_⟩
          have : v.getLsbD 0 = endianBit s.endian := by simpa [hc] using h
          rw [this, endianOfBit_endianBit]
  | cfgclr => exact one 0 rfl _ _ (by simp) rfl
  | cfgc c word =>
    simp only [exec, execCfgc]
    split
    · exact .raised _ (by simp)
    · split
      · exact .raised _ (by simp)
      · rename_i h1 h2
        exact one 0 rfl _ _ (by simp) ⟨by simpa using h1, by omega, rfl⟩
  | cfgf f ws =>
    simp only [exec, execCfgf]
    split
    · exact .raised _ (by simp)
    · split
      · exact .raised _ (by simp)
      · rename_i h1 h2
        exact one 0 rfl _ _ (by simp) ⟨by simpa using h1, by omega, rfl⟩
  | cfgx idx v =>
    simp only [exec, execCfgx]
    split
    · exact .raised _ (by simp)
    · split
      · exact .raised _ (by simp)
      · rename_i h1 h2
        exact one 0 rfl _ _ (by simp) ⟨by simpa using h1, by omega, rfl⟩
  | cfgcommit =>
    simp only [exec, execCfgcommit]
    split
    · exact .raised _ (by simp)
    · rename_i h1
      split
      · rename_i e h2
        exact .commitFailed e rfl (by simpa using h1) h2
      · rename_i h2
        exact one 0 rfl _ _ (by simp) ⟨by simpa using h1, h2, rfl⟩
  | funpack f bytes =>
    simp only [exec, execFunpack]
    repeat' split
    · exact .raised _ (by simp)
    · exact .raised _ (by simp)
    · exact .raised _ (by simp)
    · exact one _ (flagsField_bit3 _ _ _) _ _ (by simp) rfl
  | fpack f arg =>
    simp only [exec, execFpack]
    split
    · exact .raised _ (by simp)
    split
    · exact .raised _ (by simp)
    split
    · exact .raised _ (by simp)
    split
    · rename_i h
      exact .raised _ (by rw [(packField_error h).1]; simp)
    · refine .succeeded _ _ _ rfl (by simp) fun _ => ?_
      have := payloadBytes_le (containerAt s (ownerOf s f.toNat))
      simp only [length_imageWords, payloadOf]
      omega
  | cunpack c bytes =>
    simp only [exec, execCunpack]
    split
    · exact .raised _ (by simp)
    split
    · exact .raised _ (by simp)
    split
    · exact .raised _ (by simp)
    · refine .succeeded _ _ _ rfl (by simp) fun hp => ?_
      have h2 := length_fieldsOf_le s c.toNat
      have h3 := legal_nf hp
      rw [length_unpackedEntries]
      omega
  | cpacku c bytes ovr =>
    simp only [exec, execCpacku]
    split
    · exact .raised _ (by simp)
    split
    · exact .raised _ (by simp)
    split
    · exact .raised _ (by simp)
    split
    · exact .raised _ (by simp)
    · exact finishPack_ends (fun _ h => by simpa only [Writes] using h) _ _ _
  | cpackr c ovr =>
    simp only [exec, execCpackr]
    split
    · exact .raised _ (by simp)
    split
    · exact .raised _ (by simp)
    split
    · exact .raised _ (by simp)
    · exact finishPack_ends (fun _ h => by simpa only [Writes] using h) _ _ _
  | dbwr a bytes =>
    simp only [exec, execDbwr]
    split
    · exact .raised _ (by simp)
    split
    · exact .raised _ (by simp)
    · rename_i h1 h2
      simp only [rangeFits, Bool.not_eq_true', Bool.not_eq_false, Bool.and_eq_true, decide_eq_true_eq] at h2
      exact one 0 rfl _ _ (by simp) ⟨by simpa using h1, h2.2, rfl⟩
  | dbrd a n =>
    simp only [exec, execDbrd]
    split
    · exact .raised _ (by simp)
    · refine .succeeded _ _ _ rfl (by simp) fun _ => ?_
      have := n.isLt
      simp only [length_wordsOfBytes, wordCount, dbufRead, List.length_map, List.length_range]
      omega
  | dstart len =>
    simp only [exec, execDstart]
    split
    · exact .raised _ (by simp)
    split
    · exact .raised _ (by simp)
    · rename_i h1 h2
      exact one 0 rfl _ _ (by simp) ⟨by simpa using h1, by omega, rfl⟩
  | dnext =>
    have hl : ∀ r p v, (recordWords r p v).length < 10 := fun _ _ _ => by simp [recordWords]
    simp only [exec, execDnext]
    split
    · exact .raised _ (by simp)
    split
    · rename_i h1 h2
      exact one 0 rfl _ _ (hl _ _ _) ⟨by simpa using h1, .inl ⟨by simpa using h2, rfl⟩⟩
    · rename_i h1 h2
      refine one 0 rfl _ _ ?_ ⟨by simpa using h1, .inr ⟨by simpa using h2, rfl⟩⟩
      simp only [decodeStep]
      split
      · exact hl _ _ _
      · split
        · exact hl _ _ _
        · simp only [frameRecord]
          split <;> exact hl _ _ _
  | qput sample ts => exact one 0 rfl _ _ (by simp) rfl
  | qget =>
    simp only [exec, execQget]
    split
    · rename_i h
      exact one _ (flagsField_bit3 _ _ _) _ _ (by simp) (.inl ⟨h, rfl⟩)
    · rename_i h
      refine .succeeded _ _ _ (.inr ⟨by simpa using h, rfl⟩) (by simp) fun hp => ?_
      have := legal_sampleW hp
      simp only [sampleResult, length_wordsOfNat, sampleWords]
      omega
  | qsize => exact one 0 rfl _ _ (by simp) rfl
  | qempty => exact one 0 rfl _ _ (by simp) rfl
  | qfull => exact one 0 rfl _ _ (by simp) rfl
  | qreset => exact one 0 rfl _ _ (by simp) rfl
  | qdisc => exact one 0 rfl _ _ (by simp) rfl

/-! ### The command step -/

/-- INFO of a wrong operand count is the count, wherever it fits the word; beyond, nothing is known of it (log 15). -/
theorem countInfo_toNat {n : Nat} (h : n < 2 ^ 32) : (countInfo n).toNat = n := by
  rw [countInfo, if_pos h, BitVec.toNat_ofNat, Nat.mod_eq_of_lt h]

theorem decodeFailure_code (c : Command) (e : DecodeError) : (decodeFailure c e).code ≠ .ok := by cases e <;> simp [decodeFailure]

/-- A command on the port is refused by the generic checks or runs as `exec` of what it decodes to. -/
theorem step_command {s : State} {c : Command} {rest : List PortEvent} (h : s.port = .command c :: rest) :
    (∃ e, decode s.params c = .error e ∧ step s = raise { s with port := rest } (decodeFailure c e))
      ∨ ∃ i, decode s.params c = .ok i ∧ step s = exec i { s with port := rest } := by
  simp only [step, takeEvent, h, runEvent, runCommand]
  split
  · rename_i e he
    exact .inl ⟨e, he, rfl⟩
  · rename_i i hi
    exact .inr ⟨i, hi, rfl⟩

/-- What decodes has its opcode in the map, its reserved fields 0 and its operand count right. -/
theorem decode_ok {p : Params} {c : Command} {i : Instr} (h : decode p c = .ok i) :
    ∃ op, opcodeOf (cwOpc c.cw) = some op ∧ reservedZero op c.cw = true ∧ c.ops.length = operandCount p op c.cw
      ∧ i = assemble p op c.cw c.ops := by
  simp only [decode] at h
  split at h
  · cases h
  · rename_i op hop
    split at h
    · cases h
    · split at h
      · cases h
      · rename_i h1 h2
        refine ⟨op, hop, by simpa using h1, by simpa using h2, ?_⟩
        cases h
        rfl

@[simp] theorem assemble_opcode (p : Params) (op : Opcode) (cw : Word) (ops : List Word) :
    (assemble p op cw ops).opcode = op := by cases op <;> rfl

/-- The opcode byte of a command is the opcode of the instruction it decodes to. -/
theorem opcode_of_decode {p : Params} {c : Command} {i : Instr} (h : decode p c = .ok i) : cwOpc c.cw = i.opcode.code := by
  obtain ⟨op, hop, _, _, rfl⟩ := decode_ok h
  rw [assemble_opcode, code_of_opcodeOf hop]

end Sys2Proof.Machine
end

