-- ==== Sys2Proof/Laws/PerInstr.lean ====
section
/-! SUPPORT. Laws of every instruction as syntax, one lemma per constructor. -/

namespace Sys2Proof.Laws

/-- The encoding of a well-formed instruction passes the three generic checks of the command step (44_control.md R263): its
opcode is in the map, its reserved fields are 0, and it carries NOPS operand words. -/
def PassesChecks.Statement (i : Instr) : Prop :=
  ∀ p : Params, i.wf p = true →
    opcodeOf (cwOpc (encode p i).cw) = some i.opcode ∧ reservedZero i.opcode (encode p i).cw = true ∧
      (encode p i).ops.length = operandCount p i.opcode (encode p i).cw

theorem PassesChecks.nop : PassesChecks.Statement (.nop) := by
  intro p _
  simp [encode, encodeCw, encodeOps, Instr.opcode, reservedZero, operandCount]

theorem PassesChecks.csrr (csr : Byte) : PassesChecks.Statement (.csrr csr) := by
  intro p _
  simp [encode, encodeCw, encodeOps, Instr.opcode, reservedZero, operandCount]

theorem PassesChecks.csrw (csr : Byte) (v : Word) : PassesChecks.Statement (.csrw csr v) := by
  intro p _
  simp [encode, encodeCw, encodeOps, Instr.opcode, reservedZero, operandCount]

theorem PassesChecks.cfgclr : PassesChecks.Statement (.cfgclr) := by
  intro p _
  simp [encode, encodeCw, encodeOps, Instr.opcode, reservedZero, operandCount]

theorem PassesChecks.cfgc (c : Byte) (word : Word) : PassesChecks.Statement (.cfgc c word) := by
  intro p _
  simp [encode, encodeCw, encodeOps, Instr.opcode, reservedZero, operandCount]

theorem PassesChecks.cfgf (f : Byte) (ws : FieldWords) : PassesChecks.Statement (.cfgf f ws) := by
  intro p _
  simp [encode, encodeCw, encodeOps, Instr.opcode, reservedZero, operandCount]

theorem PassesChecks.cfgx (idx : BitVec 16) (value : HVal) : PassesChecks.Statement (.cfgx idx value) := by
  intro p _
  simp [encode, encodeCw, encodeOps, Instr.opcode, reservedZero, operandCount]

theorem PassesChecks.cfgcommit : PassesChecks.Statement (.cfgcommit) := by
  intro p _
  simp [encode, encodeCw, encodeOps, Instr.opcode, reservedZero, operandCount]

theorem PassesChecks.funpack (f : Byte) (bytes : List Byte) : PassesChecks.Statement (.funpack f bytes) := by
  intro p h
  simp only [Instr.wf, bytesFit, decide_eq_true_eq] at h
  simp [encode, encodeCw, encodeOps, Instr.opcode, reservedZero, operandCount, toNat_count h]

theorem PassesChecks.fpack (f : Byte) (arg : FieldArg) : PassesChecks.Statement (.fpack f arg) := by
  intro p _
  cases arg <;> simp [encode, encodeCw, encodeOps, Instr.opcode, reservedZero, operandCount, cwUseDefault, FieldArg.ud, FieldArg.words]

theorem PassesChecks.cunpack (c : Byte) (bytes : List Byte) : PassesChecks.Statement (.cunpack c bytes) := by
  intro p h
  simp only [Instr.wf, bytesFit, decide_eq_true_eq] at h
  simp [encode, encodeCw, encodeOps, Instr.opcode, reservedZero, operandCount, toNat_count h]

theorem PassesChecks.cpacku (c : Byte) (bytes : List Byte) (ovr : List Override) : PassesChecks.Statement (.cpacku c bytes ovr) := by
  intro p h
  simp only [Instr.wf, bytesFit, overridesFit, Bool.and_eq_true, decide_eq_true_eq] at h
  simp [encode, encodeCw, encodeOps, Instr.opcode, reservedZero, operandCount, toNat_count h.1, toNat_count h.2, Nat.mul_comm]

theorem PassesChecks.cpackr (c : Byte) (ovr : List Override) : PassesChecks.Statement (.cpackr c ovr) := by
  intro p h
  simp only [Instr.wf, overridesFit, decide_eq_true_eq] at h
  simp [encode, encodeCw, encodeOps, Instr.opcode, reservedZero, operandCount, toNat_count h, Nat.mul_comm]

theorem PassesChecks.dbwr (a : Word) (bytes : List Byte) : PassesChecks.Statement (.dbwr a bytes) := by
  intro p h
  simp only [Instr.wf, bytesFit, decide_eq_true_eq] at h
  simp [encode, encodeCw, encodeOps, Instr.opcode, reservedZero, operandCount, toNat_count h, Nat.add_comm]

theorem PassesChecks.dbrd (a : Word) (n : Byte) : PassesChecks.Statement (.dbrd a n) := by
  intro p _
  simp [encode, encodeCw, encodeOps, Instr.opcode, reservedZero, operandCount]

theorem PassesChecks.dstart (len : Word) : PassesChecks.Statement (.dstart len) := by
  intro p _
  simp [encode, encodeCw, encodeOps, Instr.opcode, reservedZero, operandCount]

theorem PassesChecks.dnext : PassesChecks.Statement (.dnext) := by
  intro p _
  simp [encode, encodeCw, encodeOps, Instr.opcode, reservedZero, operandCount]

theorem PassesChecks.qput (sample : Sample) (ts : Word) : PassesChecks.Statement (.qput sample ts) := by
  intro p _
  simp [encode, encodeCw, encodeOps, Instr.opcode, reservedZero, operandCount]

theorem PassesChecks.qget : PassesChecks.Statement (.qget) := by
  intro p _
  simp [encode, encodeCw, encodeOps, Instr.opcode, reservedZero, operandCount]

theorem PassesChecks.qsize : PassesChecks.Statement (.qsize) := by
  intro p _
  simp [encode, encodeCw, encodeOps, Instr.opcode, reservedZero, operandCount]

theorem PassesChecks.qempty : PassesChecks.Statement (.qempty) := by
  intro p _
  simp [encode, encodeCw, encodeOps, Instr.opcode, reservedZero, operandCount]

theorem PassesChecks.qfull : PassesChecks.Statement (.qfull) := by
  intro p _
  simp [encode, encodeCw, encodeOps, Instr.opcode, reservedZero, operandCount]

theorem PassesChecks.qreset : PassesChecks.Statement (.qreset) := by
  intro p _
  simp [encode, encodeCw, encodeOps, Instr.opcode, reservedZero, operandCount]

theorem PassesChecks.qdisc : PassesChecks.Statement (.qdisc) := by
  intro p _
  simp [encode, encodeCw, encodeOps, Instr.opcode, reservedZero, operandCount]

end Sys2Proof.Laws
end

