-- ==== Sys2Proof/Laws/Tables.lean ====
section
/-! SUPPORT. The laws of the stores: a read after a write, and that every operation keeps the canonical form. -/

namespace Sys2Proof.Machine

variable {α : Type}

/-! ### Read after write -/

theorem tableFind_write_same (t : Table α) (k : Nat) (v : α) : tableFind (tableWrite t k v) k = some v := by
  induction t with
  | nil => simp [tableWrite, tableFind]
  | cons e t ih =>
    obtain ⟨j, w⟩ := e
    simp only [tableWrite]
    split
    · simp [tableFind]
    · split
      · simp [tableFind]
      · rename_i h
        simp [tableFind, ih, Ne.symm h]

theorem tableFind_write_other (t : Table α) {k j : Nat} (v : α) (h : j ≠ k) :
    tableFind (tableWrite t k v) j = tableFind t j := by
  induction t with
  | nil => simp [tableWrite, tableFind, Ne.symm h]
  | cons e t ih =>
    obtain ⟨i, w⟩ := e
    simp only [tableWrite]
    split
    · simp [tableFind, Ne.symm h]
    · split
      · rename_i hk
        subst hk
        simp [tableFind, Ne.symm h]
      · simp [tableFind, ih]

theorem tableFind_write (t : Table α) (k j : Nat) (v : α) :
    tableFind (tableWrite t k v) j = if j = k then some v else tableFind t j := by
  split
  · rename_i h
    rw [h, tableFind_write_same]
  · rename_i h
    exact tableFind_write_other t v h

/-! ### The canonical form -/

/-- Every entry of a table and of what a write of `v` adds satisfies `P`. -/
theorem tableWrite_all {P : Nat × α → Bool} {t : Table α} {k : Nat} {v : α} (ht : t.all P = true) (hv : P (k, v) = true) :
    (tableWrite t k v).all P = true := by
  induction t with
  | nil => simpa [tableWrite] using hv
  | cons e t ih =>
    obtain ⟨j, w⟩ := e
    simp only [List.all_cons, Bool.and_eq_true] at ht
    simp only [tableWrite]
    split
    · simp [hv, ht.1, ht.2]
    · split
      · simp [hv, ht.2]
      · simp [ht.1, ih ht.2]

theorem tableWf_write {size : Nat} {t : Table α} {k : Nat} (v : α) (ht : tableWf size t = true) (hk : k < size) :
    tableWf size (tableWrite t k v) = true := by
  induction t with
  | nil => simp [tableWrite, tableWf, hk]
  | cons e t ih =>
    obtain ⟨j, w⟩ := e
    simp only [tableWf, Bool.and_eq_true, decide_eq_true_eq, List.all_eq_true] at ht
    obtain ⟨⟨hj, hall⟩, hwf⟩ := ht
    simp only [tableWrite]
    split
    · rename_i hlt
      simp only [tableWf, Bool.and_eq_true, decide_eq_true_eq, List.all_eq_true, List.mem_cons]
      refine ⟨⟨hk, ?_⟩, ⟨hj, hall⟩, hwf⟩
      rintro x (rfl | hx)
      · exact hlt
      · exact lt_trans hlt (hall x hx)
    · split
      · rename_i heq
        subst heq
        simp only [tableWf, Bool.and_eq_true, decide_eq_true_eq, List.all_eq_true]
        exact ⟨⟨hk, hall⟩, hwf⟩
      · rename_i h1 h2
        simp only [tableWf, Bool.and_eq_true, decide_eq_true_eq]
        refine ⟨⟨hj, tableWrite_all (by simpa [List.all_eq_true] using hall) ?_⟩, ih hwf⟩
        simp only [decide_eq_true_eq]
        omega

theorem tableFind_none_of_lt {t : Table α} {k : Nat} (h : t.all (fun e => decide (k < e.1)) = true) :
    tableFind t k = none := by
  induction t with
  | nil => rfl
  | cons e t ih =>
    obtain ⟨j, w⟩ := e
    simp only [List.all_cons, Bool.and_eq_true, decide_eq_true_eq] at h
    simp [tableFind, (ne_of_lt h.1).symm, ih h.2]

/-- No entry stands at or above a store's size. -/
theorem tableFind_out_of_range {size : Nat} {t : Table α} (ht : tableWf size t = true) {k : Nat} (hk : size ≤ k) :
    tableFind t k = none := by
  induction t with
  | nil => rfl
  | cons e t ih =>
    obtain ⟨j, w⟩ := e
    simp only [tableWf, Bool.and_eq_true, decide_eq_true_eq] at ht
    have : j ≠ k := by omega
    simp [tableFind, this, ih ht.2]

/-- In canonical form, tables with the same entries are the same list. -/
theorem table_ext {size : Nat} {t u : Table α} (ht : tableWf size t = true) (hu : tableWf size u = true)
    (h : ∀ k, tableFind t k = tableFind u k) : t = u := by
  induction t generalizing u with
  | nil =>
    cases u with
    | nil => rfl
    | cons e u => have := h e.1; simp [tableFind] at this
  | cons e t ih =>
    obtain ⟨j, w⟩ := e
    simp only [tableWf, Bool.and_eq_true, decide_eq_true_eq] at ht
    cases u with
    | nil => have := h j; simp [tableFind] at this
    | cons e' u =>
      obtain ⟨j', w'⟩ := e'
      simp only [tableWf, Bool.and_eq_true, decide_eq_true_eq] at hu
      have hj : j = j' := by
        by_contra hne
        rcases Nat.lt_or_gt_of_ne hne with hlt | hlt
        · have h1 := h j
          have h2 : tableFind u j = none := by
            refine tableFind_none_of_lt ?_
            simp only [List.all_eq_true, decide_eq_true_eq] at hu ⊢
            exact fun x hx => lt_trans hlt (hu.1.2 x hx)
          simp [tableFind, Ne.symm hne, h2] at h1
        · have h1 := h j'
          have h2 : tableFind t j' = none := by
            refine tableFind_none_of_lt ?_
            simp only [List.all_eq_true, decide_eq_true_eq] at ht ⊢
            exact fun x hx => lt_trans hlt (ht.1.2 x hx)
          simp [tableFind, hne, h2] at h1
      subst hj
      have hw : w = w' := by simpa [tableFind] using h j
      subst hw
      congr 1
      refine ih ht.2 hu.2 fun k => ?_
      by_cases hk : j = k
      · subst hk
        rw [tableFind_none_of_lt ht.1.2, tableFind_none_of_lt hu.1.2]
      · simpa [tableFind, hk] using h k

/-- Replacing every value keeps the canonical form. -/
theorem tableWf_map {size : Nat} {t : Table α} (g : α → α) (ht : tableWf size t = true) :
    tableWf size (t.map fun e => (e.1, g e.2)) = true := by
  induction t with
  | nil => rfl
  | cons e t ih =>
    simp only [tableWf, Bool.and_eq_true] at ht
    simp only [List.map_cons, tableWf, Bool.and_eq_true, ih ht.2, and_true]
    exact ⟨ht.1.1, by simpa [List.all_map, Function.comp_def] using ht.1.2⟩

theorem tableFind_map (t : Table α) (g : α → α) (k : Nat) :
    tableFind (t.map fun e => (e.1, g e.2)) k = (tableFind t k).map g := by
  induction t with
  | nil => rfl
  | cons e t ih =>
    obtain ⟨j, w⟩ := e
    simp only [List.map_cons, tableFind, ih]
    split <;> simp

/-! ### The decode buffer's memory -/

theorem memoryFind_eq (m : List Host.Cell) (a : Nat) : memoryFind m a = tableFind m a := by
  simp [memoryFind, memoryUnlisted]

/-- What a byte of memory holds after a write of `bytes` at `a`. -/
theorem memoryFind_write (m : List Host.Cell) (a : Nat) (bytes : List Byte) (k : Nat) :
    memoryFind (memoryWrite m a bytes) k =
      if a ≤ k ∧ k < a + bytes.length then bytes[k - a]? else memoryFind m k := by
  induction bytes generalizing m a with
  | nil =>
    simp [memoryWrite]
  | cons b bs ih =>
    simp only [memoryWrite, ih, List.length_cons]
    by_cases hk : k = a
    · subst hk
      simp [memoryFind_eq, tableFind_write_same]
    · by_cases hr : a + 1 ≤ k ∧ k < a + 1 + bs.length
      · have h2 : a ≤ k ∧ k < a + (bs.length + 1) := by omega
        have h3 : k - a = (k - (a + 1)) + 1 := by omega
        simp [hr, h2, h3]
      · have h2 : ¬ (a ≤ k ∧ k < a + (bs.length + 1)) := by omega
        rw [if_neg hr, if_neg h2, memoryFind_eq, tableFind_write_other _ _ hk, memoryFind_eq]

/-- A write inside the buffer keeps the memory's canonical form. -/
theorem memoryWf_write {size : Nat} {m : List Host.Cell} {a : Nat} {bytes : List Byte} (hm : memoryWf size m = true)
    (h : a + bytes.length ≤ size) : memoryWf size (memoryWrite m a bytes) = true := by
  induction bytes generalizing m a with
  | nil => exact hm
  | cons b bs ih =>
    simp only [List.length_cons] at h
    exact ih (tableWf_write b hm (by omega)) (by omega)

theorem dbufAt_write (s : State) (a : Nat) (bytes : List Byte) (k : Nat) :
    dbufAt { s with dbuf := memoryWrite s.dbuf a bytes } k =
      if a ≤ k ∧ k < a + bytes.length then bytes.getD (k - a) 0 else dbufAt s k := by
  simp only [dbufAt, memoryFind_write]
  split
  · rename_i h
    have : k - a < bytes.length := by omega
    simp [List.getD, this]
  · rfl

@[simp] theorem length_dbufRead (s : State) (a n : Nat) : (dbufRead s a n).length = n := by simp [dbufRead]

/-! ### Descriptor stores -/

theorem containerAt_write (s : State) (c k : Nat) (d : ContainerDesc) :
    containerAt { s with cdt := tableWrite s.cdt c d } k = if k = c then d else containerAt s k := by
  simp only [containerAt, tableFind_write, unwrittenContainer]
  split <;> simp

theorem fieldAt_write (s : State) (f k : Nat) (d : FieldDesc) :
    fieldAt { s with fdt := tableWrite s.fdt f d } k = if k = f then d else fieldAt s k := by
  simp only [fieldAt, tableFind_write, unwrittenField]
  split <;> simp

theorem xtAt_write (s : State) (i k : Nat) (v : HVal) :
    xtAt { s with xt := tableWrite s.xt i v } k = if k = i then v else xtAt s k := by
  simp only [xtAt, tableFind_write]
  split <;> simp

@[simp] theorem invalidContainer_valid (d : ContainerDesc) : (invalidContainer d).valid = false := rfl

@[simp] theorem invalidField_valid (d : FieldDesc) : (invalidField d).valid = false := rfl

@[simp] theorem invalidContainer_invalidContainer (d : ContainerDesc) :
    invalidContainer (invalidContainer d) = invalidContainer d := rfl

@[simp] theorem invalidField_invalidField (d : FieldDesc) : invalidField (invalidField d) = invalidField d := rfl

/-- CFGCLR: every container is invalid, its other bits as they were. -/
theorem containerAt_clear (s : State) (c : Nat) : containerAt (clearModel s) c = invalidContainer (containerAt s c) := by
  have h : tableFind (invalidateContainers s.cdt) c = (tableFind s.cdt c).map invalidContainer := tableFind_map _ _ _
  simp only [containerAt, clearModel, unwrittenContainer, h]
  cases tableFind s.cdt c <;> simp

/-- CFGCLR: every field is invalid, its other bits as they were. -/
theorem fieldAt_clear (s : State) (f : Nat) : fieldAt (clearModel s) f = invalidField (fieldAt s f) := by
  have h : tableFind (invalidateFields s.fdt) f = (tableFind s.fdt f).map invalidField := tableFind_map _ _ _
  simp only [fieldAt, clearModel, unwrittenField, h]
  cases tableFind s.fdt f <;> simp

end Sys2Proof.Machine
end

