-- ==== Sys2Proof/Laws/Queue.lean ====
section
/-! SUPPORT. The laws of the queue's cursors: the size as a difference of cursors, where the live slots lie, and what QPUT and QGET
do to them (spec/43_queue.md R231 to R238). -/

namespace Sys2Proof.Machine

theorem nextSlot_toNat {p : Params} (h : p.legal = true) (k : BitVec 16) :
    (nextSlot p k).toNat = (k.toNat + 1) % p.qcap := by
  have hq := legal_qcap h
  have : (k.toNat + 1) % p.qcap < p.qcap := Nat.mod_lt _ (by omega)
  rw [nextSlot, BitVec.toNat_ofNat, Nat.mod_eq_of_lt (by omega)]

theorem nextSlot_toNat' {p : Params} (h : p.legal = true) {k : BitVec 16} (hk : k.toNat < p.qcap) :
    (nextSlot p k).toNat = if k.toNat + 1 = p.qcap then 0 else k.toNat + 1 := by
  rw [nextSlot_toNat h]
  split
  · rename_i he
    rw [he, Nat.mod_self]
  · exact Nat.mod_eq_of_lt (by omega)

/-- The size as a difference of cursors inside the ring. -/
theorem queueSize_eq {s : State} (hr : s.rd.toNat < s.params.qcap) (hw : s.wr.toNat < s.params.qcap) :
    queueSize s
      = if s.rd.toNat ≤ s.wr.toNat then s.wr.toNat - s.rd.toNat else s.wr.toNat + s.params.qcap - s.rd.toNat := by
  rw [queueSize]
  split
  · rename_i h
    rw [Int.emod_eq_of_lt (by omega) (by omega)]
    omega
  · rename_i h
    rw [← Int.add_emod_right, Int.emod_eq_of_lt (by omega) (by omega)]
    omega

theorem queueSize_lt {s : State} (hr : s.rd.toNat < s.params.qcap) (hw : s.wr.toNat < s.params.qcap) :
    queueSize s < s.params.qcap := by
  rw [queueSize_eq hr hw]
  split <;> omega

theorem queueEmpty_iff {s : State} (hr : s.rd.toNat < s.params.qcap) (hw : s.wr.toNat < s.params.qcap) :
    queueEmpty s = true ↔ queueSize s = 0 := by
  rw [queueSize_eq hr hw, queueEmpty, beq_iff_eq, ← BitVec.toNat_inj]
  split <;> omega

theorem queueFull_iff {s : State} (h : s.params.legal = true) (hr : s.rd.toNat < s.params.qcap)
    (hw : s.wr.toNat < s.params.qcap) : queueFull s = true ↔ queueSize s = s.params.qcap - 1 := by
  have hq := legal_qcap h
  rw [queueSize_eq hr hw, queueFull, beq_iff_eq, ← BitVec.toNat_inj, nextSlot_toNat' h hw]
  split <;> split <;> omega

/-- The j-th live slot, inside the ring. -/
theorem liveSlot_eq {s : State} (hr : s.rd.toNat < s.params.qcap) {j : Nat} (hj : j < s.params.qcap) :
    liveSlot s j = if s.rd.toNat + j < s.params.qcap then s.rd.toNat + j else s.rd.toNat + j - s.params.qcap := by
  rw [liveSlot]
  split
  · rename_i h
    exact Nat.mod_eq_of_lt h
  · rename_i h
    rw [Nat.mod_eq_sub_mod (by omega)]
    exact Nat.mod_eq_of_lt (by omega)

/-- WR is the slot behind the last live one. -/
theorem liveSlot_queueSize {s : State} (hr : s.rd.toNat < s.params.qcap) (hw : s.wr.toNat < s.params.qcap) :
    liveSlot s (queueSize s) = s.wr.toNat := by
  rw [liveSlot_eq hr (queueSize_lt hr hw), queueSize_eq hr hw]
  split <;> split <;> omega

/-- No live slot is the one QPUT writes. -/
theorem liveSlot_ne_wr {s : State} (hr : s.rd.toNat < s.params.qcap) (hw : s.wr.toNat < s.params.qcap) {j : Nat}
    (hj : j < queueSize s) : liveSlot s j ≠ s.wr.toNat := by
  have := queueSize_lt hr hw
  rw [liveSlot_eq hr (by omega)]
  rw [queueSize_eq hr hw] at hj
  split at hj <;> split <;> omega

/-! ### Moving a cursor -/

theorem nextSlot_lt {p : Params} (h : p.legal = true) (k : BitVec 16) : (nextSlot p k).toNat < p.qcap := by
  have hq := legal_qcap h
  rw [nextSlot_toNat h]
  exact Nat.mod_lt _ (by omega)

/-- Advancing RD past a live sample takes one off the size. -/
theorem queueSize_advanceRd {s t : State} (h : s.params.legal = true) (hr : s.rd.toNat < s.params.qcap)
    (hw : s.wr.toNat < s.params.qcap) (hp : t.params = s.params) (hrd : t.rd = nextSlot s.params s.rd) (hwr : t.wr = s.wr)
    (hne : queueSize s ≠ 0) : queueSize t = queueSize s - 1 := by
  have h1 : t.rd.toNat = if s.rd.toNat + 1 = s.params.qcap then 0 else s.rd.toNat + 1 := by rw [hrd, nextSlot_toNat' h hr]
  have h2 : t.rd.toNat < t.params.qcap := by rw [hp, hrd]; exact nextSlot_lt h _
  have h3 : t.wr.toNat < t.params.qcap := by rw [hp, hwr]; exact hw
  rw [queueSize_eq hr hw] at hne ⊢
  rw [queueSize_eq h2 h3, h1, hwr, hp]
  split at hne <;> split <;> split <;> omega

/-- Advancing WR on a queue that is not full adds one to the size. -/
theorem queueSize_advanceWr {s t : State} (h : s.params.legal = true) (hr : s.rd.toNat < s.params.qcap)
    (hw : s.wr.toNat < s.params.qcap) (hp : t.params = s.params) (hrd : t.rd = s.rd) (hwr : t.wr = nextSlot s.params s.wr)
    (hne : queueSize s ≠ s.params.qcap - 1) : queueSize t = queueSize s + 1 := by
  have h1 : t.wr.toNat = if s.wr.toNat + 1 = s.params.qcap then 0 else s.wr.toNat + 1 := by rw [hwr, nextSlot_toNat' h hw]
  have h2 : t.rd.toNat < t.params.qcap := by rw [hp, hrd]; exact hr
  have h3 : t.wr.toNat < t.params.qcap := by rw [hp, hwr]; exact nextSlot_lt h _
  rw [queueSize_eq hr hw] at hne ⊢
  rw [queueSize_eq h2 h3, h1, hrd, hp]
  split at hne <;> split <;> split <;> omega

/-- Advancing both cursors of a nonempty queue leaves the size. -/
theorem queueSize_advanceBoth {s t : State} (h : s.params.legal = true) (hr : s.rd.toNat < s.params.qcap)
    (hw : s.wr.toNat < s.params.qcap) (hp : t.params = s.params) (hrd : t.rd = nextSlot s.params s.rd)
    (hwr : t.wr = nextSlot s.params s.wr) : queueSize t = queueSize s := by
  have h1 : t.wr.toNat = if s.wr.toNat + 1 = s.params.qcap then 0 else s.wr.toNat + 1 := by rw [hwr, nextSlot_toNat' h hw]
  have h0 : t.rd.toNat = if s.rd.toNat + 1 = s.params.qcap then 0 else s.rd.toNat + 1 := by rw [hrd, nextSlot_toNat' h hr]
  have h2 : t.rd.toNat < t.params.qcap := by rw [hp, hrd]; exact nextSlot_lt h _
  have h3 : t.wr.toNat < t.params.qcap := by rw [hp, hwr]; exact nextSlot_lt h _
  rw [queueSize_eq hr hw, queueSize_eq h2 h3, h1, h0, hp]
  split <;> split <;> split <;> split <;> omega

/-- After RD has advanced, the j-th live slot is the one that was the (j+1)-th. -/
theorem liveSlot_advanceRd {s t : State} (h : s.params.legal = true) (hr : s.rd.toNat < s.params.qcap)
    (hp : t.params = s.params) (hrd : t.rd = nextSlot s.params s.rd) (j : Nat) : liveSlot t j = liveSlot s (j + 1) := by
  have h0 : t.rd.toNat = if s.rd.toNat + 1 = s.params.qcap then 0 else s.rd.toNat + 1 := by rw [hrd, nextSlot_toNat' h hr]
  rw [liveSlot, liveSlot, h0, hp]
  split
  · have : s.rd.toNat + (j + 1) = j + s.params.qcap := by omega
    rw [this, Nat.add_mod_right, Nat.zero_add]
  · congr 1
    omega

/-- QPUT's test after the advance of WR holds exactly for a full queue. -/
theorem enqueue_full_iff {s : State} (h : s.params.legal = true) (hr : s.rd.toNat < s.params.qcap)
    (hw : s.wr.toNat < s.params.qcap) (sample : Sample) :
    (enqueue s sample).wr = (enqueue s sample).rd ↔ queueSize s = s.params.qcap - 1 := by
  rw [← queueFull_iff h hr hw, queueFull]
  simp

theorem toNat_truncSample {p : Params} (h : p.legal = true) (x : Sample) :
    (truncSample p x).toNat = x.toNat % 2 ^ p.sampleW := by
  have hs := legal_sampleW h
  have : 2 ^ p.sampleW ≤ 2 ^ 256 := Nat.pow_le_pow_right (by omega) (by omega)
  have := Nat.mod_lt x.toNat (Nat.two_pow_pos p.sampleW)
  rw [truncSample, BitVec.toNat_ofNat, Nat.mod_eq_of_lt (by omega)]

theorem toNat_saturatingSucc (n : Word) : (saturatingSucc n).toNat = min (n.toNat + 1) 0xFFFFFFFF := by
  rw [saturatingSucc, BitVec.toNat_ofNat, Nat.mod_eq_of_lt (by omega)]

theorem slotAt_write (s : State) (k j : Nat) (v : Sample) :
    slotAt { s with slots := tableWrite s.slots k v } j = if j = k then v else slotAt s j := by
  simp only [slotAt, tableFind_write]
  split <;> simp

@[simp] theorem length_liveSamples (s : State) : (liveSamples s).length = queueSize s := by simp [liveSamples]

end Sys2Proof.Machine
end

