-- ==== Sys2Proof/Laws/Reads.lean ====
section
/-! SUPPORT. A response changes no read: every named read of the stores and the registers sees the same in `respond s r` as in
`s`, and the same under the error registers that a failure writes (spec/60_exceptions.md R281, R285). -/

namespace Sys2Proof.Machine

/-! ### Reads under a response -/

@[simp] theorem containerAt_respond (s : State) (r : Response) (k : Nat) :
    containerAt (respond s r) k = containerAt s k := rfl
@[simp] theorem fieldAt_respond (s : State) (r : Response) (k : Nat) :
    fieldAt (respond s r) k = fieldAt s k := rfl
@[simp] theorem xtAt_respond (s : State) (r : Response) (k : Nat) :
    xtAt (respond s r) k = xtAt s k := rfl
@[simp] theorem dbufAt_respond (s : State) (r : Response) (k : Nat) :
    dbufAt (respond s r) k = dbufAt s k := rfl
@[simp] theorem slotAt_respond (s : State) (r : Response) (k : Nat) :
    slotAt (respond s r) k = slotAt s k := rfl
@[simp] theorem fieldsOf_respond (s : State) (r : Response) (k : Nat) :
    fieldsOf (respond s r) k = fieldsOf s k := rfl
@[simp] theorem payloadOf_respond (s : State) (r : Response) (k : Nat) :
    payloadOf (respond s r) k = payloadOf s k := rfl
@[simp] theorem ownerOf_respond (s : State) (r : Response) (k : Nat) :
    ownerOf (respond s r) k = ownerOf s k := rfl
@[simp] theorem fieldExists_respond (s : State) (r : Response) (k : Nat) :
    fieldExists (respond s r) k = fieldExists s k := rfl
@[simp] theorem containerExists_respond (s : State) (r : Response) (k : Nat) :
    containerExists (respond s r) k = containerExists s k := rfl
@[simp] theorem frameOf_respond (s : State) (r : Response) (h : Byte) :
    frameOf (respond s r) h = frameOf s h := rfl
@[simp] theorem isFrameOf_respond (s : State) (r : Response) (h : Byte) (k : Nat) :
    isFrameOf (respond s r) h k = isFrameOf s h k := rfl
@[simp] theorem dbufRead_respond (s : State) (r : Response) (a n : Nat) :
    dbufRead (respond s r) a n = dbufRead s a n := rfl
@[simp] theorem queueSize_respond (s : State) (r : Response) :
    queueSize (respond s r) = queueSize s := rfl
@[simp] theorem queueEmpty_respond (s : State) (r : Response) :
    queueEmpty (respond s r) = queueEmpty s := rfl
@[simp] theorem queueFull_respond (s : State) (r : Response) :
    queueFull (respond s r) = queueFull s := rfl
@[simp] theorem liveSamples_respond (s : State) (r : Response) :
    liveSamples (respond s r) = liveSamples s := rfl
@[simp] theorem commitCheck_respond (s : State) (r : Response) :
    commitCheck (respond s r) = commitCheck s := rfl
@[simp] theorem inv_respond (s : State) (r : Response) :
    (respond s r).inv = s.inv := rfl

/-! ### Reads under a failure -/

@[simp] theorem containerAt_raiseState (s : State) (f : Failure) (k : Nat) :
    containerAt (raiseState s f) k = containerAt s k := rfl
@[simp] theorem fieldAt_raiseState (s : State) (f : Failure) (k : Nat) :
    fieldAt (raiseState s f) k = fieldAt s k := rfl
@[simp] theorem xtAt_raiseState (s : State) (f : Failure) (k : Nat) :
    xtAt (raiseState s f) k = xtAt s k := rfl
@[simp] theorem dbufAt_raiseState (s : State) (f : Failure) (k : Nat) :
    dbufAt (raiseState s f) k = dbufAt s k := rfl
@[simp] theorem slotAt_raiseState (s : State) (f : Failure) (k : Nat) :
    slotAt (raiseState s f) k = slotAt s k := rfl
@[simp] theorem fieldsOf_raiseState (s : State) (f : Failure) (k : Nat) :
    fieldsOf (raiseState s f) k = fieldsOf s k := rfl
@[simp] theorem payloadOf_raiseState (s : State) (f : Failure) (k : Nat) :
    payloadOf (raiseState s f) k = payloadOf s k := rfl
@[simp] theorem ownerOf_raiseState (s : State) (f : Failure) (k : Nat) :
    ownerOf (raiseState s f) k = ownerOf s k := rfl
@[simp] theorem fieldExists_raiseState (s : State) (f : Failure) (k : Nat) :
    fieldExists (raiseState s f) k = fieldExists s k := rfl
@[simp] theorem containerExists_raiseState (s : State) (f : Failure) (k : Nat) :
    containerExists (raiseState s f) k = containerExists s k := rfl
@[simp] theorem frameOf_raiseState (s : State) (f : Failure) (h : Byte) :
    frameOf (raiseState s f) h = frameOf s h := rfl
@[simp] theorem isFrameOf_raiseState (s : State) (f : Failure) (h : Byte) (k : Nat) :
    isFrameOf (raiseState s f) h k = isFrameOf s h k := rfl
@[simp] theorem dbufRead_raiseState (s : State) (f : Failure) (a n : Nat) :
    dbufRead (raiseState s f) a n = dbufRead s a n := rfl
@[simp] theorem queueSize_raiseState (s : State) (f : Failure) :
    queueSize (raiseState s f) = queueSize s := rfl
@[simp] theorem queueEmpty_raiseState (s : State) (f : Failure) :
    queueEmpty (raiseState s f) = queueEmpty s := rfl
@[simp] theorem queueFull_raiseState (s : State) (f : Failure) :
    queueFull (raiseState s f) = queueFull s := rfl
@[simp] theorem liveSamples_raiseState (s : State) (f : Failure) :
    liveSamples (raiseState s f) = liveSamples s := rfl
@[simp] theorem commitCheck_raiseState (s : State) (f : Failure) :
    commitCheck (raiseState s f) = commitCheck s := rfl
@[simp] theorem inv_raiseState (s : State) (f : Failure) :
    (raiseState s f).inv = s.inv := rfl

end Sys2Proof.Machine
end

