-- ==== Sys2Proof/Tests/Slice0.lean ====
section
/-! SUPPORT. Own tests: the checks of WellFormed refuse ill-formed terms; every constructor's decoding from a word written out
from spec/30_encoding.md R80, R85, R88; one step of every command on a small state, its expected result from
spec/95_test_vectors.md or from the rule named; and for every obligation with hypotheses a state and operands that meet them. -/

open Sys2Proof Sys2Proof.Machine Sys2Proof.Cert

namespace Sys2Proof.Tests

set_option Elab.async false

/-! ## WellFormed -/

theorem test_wf_refuses_256_bytes : (Instr.funpack 0 (List.replicate 256 0)).wf Params.chosen = false := by decide +kernel

theorem test_wf_refuses_256_bytes_written : (Instr.dbwr 0 (List.replicate 256 0)).wf Params.chosen = false := by decide +kernel

theorem test_wf_refuses_256_overrides : (Instr.cpackr 0 (List.replicate 256 ⟨0, .useDefault⟩)).wf Params.chosen = false := by
  decide +kernel

/-- With SAMPLE_W = 32 a sample travels in one word. -/
theorem test_wf_refuses_wide_sample : (Instr.qput 0x100000000 0).wf Params.chosen = false := by decide +kernel

/-! ## Decode: each command word is {C, B, A, OPC}, written out from the row of 30_encoding.md R88 -/

/-- The decoder on the parameters of reset. -/
def reads (cw : Word) (ops : List Word) : Except DecodeError Instr := decode Params.chosen ⟨cw, ops⟩

theorem test_decode_nop : reads 0x00000000 [] = .ok .nop := by decide +kernel
theorem test_decode_csrr : reads 0x00000F01 [] = .ok (.csrr 0x0F) := by decide +kernel
theorem test_decode_csrw : reads 0x00000402 [3] = .ok (.csrw 0x04 3) := by decide +kernel
theorem test_decode_cfgclr : reads 0x00000010 [] = .ok .cfgclr := by decide +kernel
theorem test_decode_cfgc : reads 0x00000211 [0x94000703] = .ok (.cfgc 2 0x94000703) := by decide +kernel
theorem test_decode_cfgf : reads 0x00000912 [0x60040405, 10, 1, 20, 30, 40, 50, 60]
    = .ok (.cfgf 9 ⟨0x60040405, 10, 1, 20, 30, 40, 50, 60⟩) := by decide +kernel
theorem test_decode_cfgx : reads 0x00010213 [0x64, 7] = .ok (.cfgx 0x0102 0x0000000700000064) := by decide +kernel
theorem test_decode_cfgcommit : reads 0x00000014 [] = .ok .cfgcommit := by decide +kernel
theorem test_decode_funpack : reads 0x00060520 [0x04030201, 0x00000605] = .ok (.funpack 5 [1, 2, 3, 4, 5, 6]) := by
  decide +kernel
theorem test_decode_fpack : reads 0x00000821 [0x15, 9] = .ok (.fpack 8 (.value 0x0000000900000015)) := by decide +kernel
theorem test_decode_fpack_default : reads 0x00010021 [] = .ok (.fpack 0 .useDefault) := by decide +kernel
theorem test_decode_cunpack : reads 0x00010122 [0x00000025] = .ok (.cunpack 1 [0x25]) := by decide +kernel
/-- A variant of V-C26 of 95_test_vectors.md: its second override has UD = 1, so its value words are ignored (R85). -/
theorem test_decode_cpacku : reads 0x02010523 [0x11, 0x008, 2, 1, 0x108, 7, 7]
    = .ok (.cpacku 5 [0x11] [⟨8, .value 0x0000000100000002⟩, ⟨8, .useDefault⟩]) := by decide +kernel
theorem test_decode_cpackr : reads 0x01000124 [0x00000003, 1, 0] = .ok (.cpackr 1 [⟨3, .value 1⟩]) := by decide +kernel
theorem test_decode_dbwr : reads 0x00050030 [0x1FD, 0x04030201, 0xFFFFFF05] = .ok (.dbwr 0x1FD [1, 2, 3, 4, 5]) := by
  decide +kernel
theorem test_decode_dbrd : reads 0x00030031 [0x1FC] = .ok (.dbrd 0x1FC 3) := by decide +kernel
theorem test_decode_dstart : reads 0x00000032 [9] = .ok (.dstart 9) := by decide +kernel
theorem test_decode_dnext : reads 0x00000033 [] = .ok .dnext := by decide +kernel
theorem test_decode_qput : reads 0x00000040 [0xA1, 10] = .ok (.qput 0xA1 10) := by decide +kernel
/-- SAMPLE_W = 33: two sample words, word 0 least significant. -/
theorem test_decode_qput_two_words : decode { Params.chosen with sampleW := 33 } ⟨0x00000040, [0xA1, 3, 10]⟩
    = .ok (.qput 0x3000000A1 10) := by decide +kernel
theorem test_decode_qget : reads 0x00000041 [] = .ok .qget := by decide +kernel
theorem test_decode_qsize : reads 0x00000042 [] = .ok .qsize := by decide +kernel
theorem test_decode_qempty : reads 0x00000043 [] = .ok .qempty := by decide +kernel
theorem test_decode_qfull : reads 0x00000044 [] = .ok .qfull := by decide +kernel
theorem test_decode_qreset : reads 0x00000045 [] = .ok .qreset := by decide +kernel
theorem test_decode_qdisc : reads 0x00000046 [] = .ok .qdisc := by decide +kernel

/-- The order of the generic checks (44_control.md R263): opcode, reserved field, operand count. -/
theorem test_decode_refuses_by_name :
    reads 0xFFFFFF03 [] = .error .illegalOpcode ∧ reads 0x00010130 [] = .error .reservedField
      ∧ reads 0x00000000 [0] = .error .badLength := by decide +kernel

/-- Bits of spec/opcode_table.json's numbering: CSRW with CTRL and an operand word 2, and FPACK without value words. -/
theorem test_table_words :
    decodeTableWord 64 0x0000000200000402 = some (.csrw 0x04 2) ∧ decodeTableWord 32 0x00010021 = some (.fpack 0 .useDefault) := by
  decide +kernel

/-! ## One step

`tc` is the committed Device Model of 95_test_vectors.md section 3; V-… are the vectors of that file. -/

/-- Index the entries of a list from 0. -/
def tabulate {α : Type} (entries : List α) : Table α := entries.zipIdx.map fun e => (e.2, e.1)

def tcContainers : Table ContainerDesc := tabulate <| List.map containerOfWord
  [0x001C0109, 0x001B0109, 0x94000703, 0x90000403, 0x48000203, 0x00100109, 0x00110109, 0x00040601]

def tcFields : Table FieldDesc := tabulate <| List.map fieldOfWords
  [⟨0x71030000, 1, 1, 0, 0, 0, 6, 0⟩, ⟨0x71030300, 1, 1, 0, 0, 0, 6, 0⟩, ⟨0x68010001, 0, 0, 0, 0, 0, 1, 0⟩,
    ⟨0x48010101, 0, 0, 0, 0, 0, 1, 0⟩, ⟨0x62020401, 0x00030008, 100, 0, 0, 0, 0, 0⟩, ⟨0x43B00002, 0, 0, 0, 0, 0, 0, 0⟩,
    ⟨0x40980003, 0, 0, 0, 0, 0, 0, 0⟩, ⟨0x40880004, 0, 0, 0, 0, 0, 0, 0⟩, ⟨0x60040005, 0, 1, 0, 0, 0, 0, 0⟩,
    ⟨0x60040405, 0, 1, 0, 0, 0, 0, 0⟩, ⟨0x60040006, 0, 3, 0, 0, 0, 0, 0⟩, ⟨0x60040206, 0, 1, 0, 0, 0, 0, 0⟩,
    ⟨0x43700007, 0, 0, 0, 0, 0, 0, 0⟩, ⟨0x43580007, 0, 0, 0, 0, 0, 0, 0⟩, ⟨0x43581807, 0, 0, 0, 0, 0, 0, 0⟩]

def tcTransforms : Table HVal := [(0, 1), (1, 2), (2, 4), (3, 8), (4, 16), (5, 32), (8, 100), (9, 200), (10, 300)]

def tc : State := { State.reset with cfgOk := true, cdt := tcContainers, fdt := tcFields, xt := tcTransforms }

/-- A decode over these bytes from address 0, with the cursor at `pos`. -/
def decoding (bytes : List Byte) (pos : Nat) : State :=
  { tc with
    dbuf := memoryWrite [] 0 bytes
    decLen := BitVec.ofNat 16 bytes.length
    decPos := BitVec.ofNat 16 pos
    decActive := decide (pos < bytes.length) }

/-- The queue of V-Q2c: A1, A2, A3 put, QCAP = 4, so full. -/
def fullQueue : State := { State.reset with slots := [(0, 0xA1), (1, 0xA2), (2, 0xA3)], wr := 3 }

/-- The status word and the result words of the last response. -/
def answer (o : Host.Outcome State Fault Refusal) : Option (Word × List Word) :=
  match o with
  | .next t => t.responses.getLast?.map fun r => (r.status, r.results)
  | .fault _ => none
  | .refused _ => none

/-- A value read from the next state. -/
def after {α : Type} (o : Host.Outcome State Fault Refusal) (f : State → α) : Option α :=
  match o with
  | .next t => some (f t)
  | .fault _ => none
  | .refused _ => none

/-- V-G1: the Device Model passes CFGCOMMIT. -/
theorem test_tc_commits : answer (exec .cfgcommit { tc with cfgOk := false }) = some (0x00000000, []) := by decide +kernel

/-- V-G5: the later of two frames with one header is named. -/
theorem test_cfgcommit_duplicate_header :
    answer (exec .cfgcommit { State.reset with cdt := [(2, containerOfWord 0x94000703), (5, containerOfWord 0x94000403)] })
      = some (0x0010020A, [0x00020005]) := by decide +kernel

/-- V-K1. -/
theorem test_nop : answer (exec .nop fullQueue) = some (0x00000000, []) := by decide +kernel

/-- V-K4d. -/
theorem test_csrr_param2 : answer (exec (.csrr 0x03) State.reset) = some (0x00100000, [0x20200004]) := by decide +kernel

/-- V-D7c. -/
theorem test_csrr_status : answer (exec (.csrr 0x05) { decoding [0xFF, 0x94] 1 with lastErr := 5 })
    = some (0x00100000, [0x00000507]) := by decide +kernel

/-- V-K8c: bits 31..2 are ignored. -/
theorem test_csrw_ctrl : after (exec (.csrw 0x04 0xFFFFFFFD) { State.reset with lastErr := 2 }) (fun t => (t.endian, t.lastErr))
    = some (.big, 2) := by decide +kernel

/-- V-K7a. -/
theorem test_csrw_locked : answer (exec (.csrw 0x04 1) tc) = some (0x00100004, [0x00000004]) := by decide +kernel

/-- 41_config.md R174: VALID goes, the other bits and XT stay. -/
theorem test_cfgclr : after (exec .cfgclr tc) (fun t => (wordOfContainer (containerAt t 2), (fieldAt t 4).valid, xtAt t 9, t.cfgOk))
    = some (0x94000702, false, 200, false) := by decide +kernel

/-- V-G2a. -/
theorem test_cfgc_range : answer (exec (.cfgc 32 0) State.reset) = some (0x00100107, [0x00000020]) := by decide +kernel

/-- The example of 41_config.md R175. -/
theorem test_cfgc : after (exec (.cfgc 2 0x94000703) State.reset) (fun t => ((containerAt t 2).header, (containerAt t 2).size.toNat,
    (containerAt t 2).type, (containerAt t 1).valid)) = some (0x94, 7, .frame, false) := by decide +kernel

/-- V-G2b. -/
theorem test_cfgf_range : answer (exec (.cfgf 64 ⟨0, 0, 0, 0, 0, 0, 0, 0⟩) State.reset) = some (0x00100106, [0x00000040]) := by
  decide +kernel

/-- The example of 41_config.md R176. -/
theorem test_cfgf : after (exec (.cfgf 9 ⟨0x60040405, 0, 1, 0, 0, 0, 0, 0⟩) State.reset) (fun t => ((fieldAt t 9).cont,
    (fieldAt t 9).offset, (fieldAt t 9).width, (fieldAt t 9).default)) = some (5, 4, 4, 1) := by decide +kernel

/-- V-G3a. -/
theorem test_cfgx_range : answer (exec (.cfgx 256 0) State.reset) = some (0x00100302, [0x00000100]) := by decide +kernel

/-- V-G3b. -/
theorem test_cfgx : after (exec (.cfgx 255 5) State.reset) (fun t => xtAt t 255) = some 5 := by decide +kernel

/-- V-C1a. -/
theorem test_funpack_shl : answer (exec (.funpack 0 [0x0B]) tc) = some (0x00200000, [8, 0]) := by decide +kernel

/-- V-C3: raw 3 has no table entry. -/
theorem test_funpack_unmapped : answer (exec (.funpack 4 [0x30]) tc) = some (0x00220000, [3, 0]) := by decide +kernel

/-- V-C7. -/
theorem test_fpack_shl : answer (exec (.fpack 0 (.value 16)) tc) = some (0x00100000, [0x04]) := by decide +kernel

/-- V-C17: the low four bits of -1. -/
theorem test_fpack_masks : answer (exec (.fpack 8 (.value (-1))) tc) = some (0x00100000, [0x0F]) := by decide +kernel

/-- V-C18. -/
theorem test_cunpack : answer (exec (.cunpack 1 [0x25]) tc) = some (0x00900000, [0x002, 1, 0, 0x003, 0, 0, 0x004, 0x12C, 0]) := by
  decide +kernel

/-- V-C34, under the other byte order (V-C12). -/
theorem test_cunpack_big : answer (exec (.cunpack 2 [1, 2, 3, 4, 5, 6]) { tc with endian := .big })
    = some (0x00300000, [0x205, 0x03040506, 0x102]) := by decide +kernel

/-- V-C26: the last of two overrides of a field wins. -/
theorem test_cpacku : answer (exec (.cpacku 5 [0x11] [⟨8, .value 2⟩, ⟨8, .value 7⟩]) tc)
    = some (0x00700000, [0x17, 0x008, 7, 0, 0x009, 1, 0]) := by decide +kernel

/-- V-C25: an unmapped current value. -/
theorem test_cpacku_unmapped : answer (exec (.cpacku 1 [0x30] []) tc) = some (0x00100308, [4]) := by decide +kernel

/-- V-C20b: overlapping fields are ORed, the view reports the values packed. -/
theorem test_cpackr_overlap : answer (exec (.cpackr 6 []) tc) = some (0x00700000, [0x07, 0x00A, 3, 0, 0x00B, 1, 0]) := by
  decide +kernel

/-- V-C21: a field without a default. -/
theorem test_cpackr_no_default : answer (exec (.cpackr 1 []) tc) = some (0x00100208, [3]) := by decide +kernel

/-- V-D9d: the range ends exactly at DBUF_SIZE. -/
theorem test_dbwr : after (exec (.dbwr 509 [1, 2, 3]) tc) (fun t => (t.dbuf.map fun e => (e.1, e.2)))
    = some [(509, 1), (510, 2), (511, 3)] := by decide +kernel

/-- V-D7a. -/
theorem test_dbwr_busy : answer (exec (.dbwr 0 [0]) (decoding [0xFF, 0x94] 1)) = some (0x00100005, [0]) := by decide +kernel

/-- V-D7b. -/
theorem test_dbrd : answer (exec (.dbrd 0 3) (decoding [0xFF, 0x94, 1] 1)) = some (0x00100000, [0x000194FF]) := by decide +kernel

/-- V-D9c. -/
theorem test_dbrd_range : answer (exec (.dbrd 512 1) tc) = some (0x00100302, [0x200]) := by decide +kernel

/-- V-D8b. -/
theorem test_dstart : after (exec (.dstart 512) tc) (fun t => (t.decLen, t.decPos, t.decActive)) = some (512, 0, true) := by
  decide +kernel

/-- V-D8a. -/
theorem test_dstart_range : answer (exec (.dstart 513) tc) = some (0x00100302, [0x201]) := by decide +kernel

/-- V-D1, record 2. -/
theorem test_dnext_frame : answer (exec .dnext (decoding [0xFF, 0x94, 1, 2, 3, 4, 5, 6, 0xFF] 1))
    = some (0x00400000, [0x00940215, 1, 0x04030201, 0x00000605]) := by decide +kernel

/-- V-D3: a truncated frame ends the decode at DEC_LEN. -/
theorem test_dnext_trunc : after (exec .dnext (decoding [0x90, 1, 2] 0)) (fun t => (t.decPos, t.decActive,
    t.responses.getLast?.map (·.results))) = some (3, false, some [0x00900303, 0, 0, 0]) := by decide +kernel

/-- V-Q3: the put that fills the last slot evicts the oldest sample. -/
theorem test_qput_evicts : after (exec (.qput 0xA4 40) fullQueue) (fun t => (t.rd, t.wr, t.discCnt, t.discTs, liveSamples t))
    = some (1, 0, 1, 40, [0xA2, 0xA3, 0xA4]) := by decide +kernel

/-- V-Q8: DISC_CNT saturates. -/
theorem test_qput_saturates : after (exec (.qput 0x77 99) { fullQueue with rd := 1, wr := 0, discCnt := 0xFFFFFFFF })
    (fun t => (t.rd, t.wr, t.discCnt, t.discTs)) = some (2, 1, 0xFFFFFFFF, 99) := by decide +kernel

/-- V-Q5a, one put earlier. -/
theorem test_qget : answer (exec .qget { fullQueue with rd := 1 }) = some (0x00100000, [0xA2]) := by decide +kernel

/-- V-Q1d. -/
theorem test_qget_empty : answer (exec .qget State.reset) = some (0x00010000, []) := by decide +kernel

/-- V-Q2d; with WR below RD the difference is taken modulo QCAP. -/
theorem test_qsize : answer (exec .qsize { fullQueue with rd := 3, wr := 1 }) = some (0x00100000, [2]) := by decide +kernel

/-- V-Q1a. -/
theorem test_qempty : answer (exec .qempty State.reset) = some (0x00100000, [1]) := by decide +kernel

/-- V-Q2e. -/
theorem test_qfull : answer (exec .qfull fullQueue) = some (0x00100000, [1]) := by decide +kernel

/-- V-Q6a, V-Q6c. -/
theorem test_qreset : after (exec .qreset { fullQueue with discCnt := 1, discTs := 40 })
    (fun t => (t.rd, t.wr, t.discCnt, t.discTs)) = some (0, 0, 1, 40) := by decide +kernel

/-- V-Q4a. -/
theorem test_qdisc : after (exec .qdisc { fullQueue with discCnt := 1, discTs := 40 })
    (fun t => (t.discCnt, t.discTs, t.responses.getLast?.map (·.results))) = some (0, 0, some [1, 0x28]) := by decide +kernel

/-- V-K3b: an unknown opcode, as a step of its own. -/
theorem test_step_unknown_opcode : answer (step (presentCommand State.reset ⟨0x123456FF, [1]⟩))
    = some (0x00100101, [0x123456FF]) := by decide +kernel

/-- V-K9: NOP with one operand; INFO is the number received. -/
theorem test_step_operand_count : answer (step (presentCommand State.reset ⟨0x00000000, [1]⟩)) = some (0x00100102, [1]) := by
  decide +kernel

/-- 70_reset_and_hazards.md R310, R311: the platform's reset event. -/
theorem test_step_reset : after (step { tc with port := [.reset], lastErr := 4, rd := 1 })
    (fun t => (t.cfgOk, t.lastErr, t.rd, (containerAt t 2).valid, t.draw)) = some (false, 0, 0, false, 1) := by decide +kernel

/-- The host places a CSRW of CTRL with the operand word 3 as the first command after reset. -/
theorem test_withFetchWord : after (step (State.reset.withFetchWord 64 0x0000000300000402)) (fun t => (t.endian, t.port))
    = some (.big, []) := by decide +kernel

/-! ## Witnesses: a state and operands that meet the hypotheses of each obligation -/

/-- `s` with one command on its port. -/
def withCommand (s : State) (cw : Word) (ops : List Word) : State := { s with port := [.command ⟨cw, ops⟩] }

/-- The least and the greatest parameters of 00_scope.md R8. -/
def leastParams : Params := ⟨1, 1, 1, 1, 1, 2, 1⟩
def greatestParams : Params := ⟨256, 256, 32, 65535, 65535, 65535, 255⟩

theorem witness_DecodeOfEncodeIsIdentity :
    (Instr.cpacku 255 (List.replicate 255 1) (List.replicate 255 ⟨255, .value (-1)⟩)).wf Params.chosen = true
      ∧ (Instr.qput 0xFFFFFFFF 0).wf Params.chosen = true := by decide +kernel

theorem witness_DecodedInstructionIsWellFormed : decode Params.chosen ⟨0x00010122, [0x00000025]⟩ = .ok (.cunpack 1 [0x25]) := by
  decide +kernel

theorem witness_UnlistedOpcodeFails :
    (withCommand tc 0x123456FF [1]).port = .command ⟨0x123456FF, [1]⟩ :: [] ∧ unlistedOpcode (cwOpc 0x123456FF).toNat
      ∧ ∀ b ∈ [0x03, 0x0F, 0x15, 0x1F, 0x25, 0x2F, 0x34, 0x3F, 0x47, 0xFF], unlistedOpcode b := by
  unfold unlistedOpcode
  decide +kernel

theorem witness_NonzeroReservedFieldFails :
    (withCommand tc 0x00020021 []).port = .command ⟨0x00020021, []⟩ :: [] ∧ cwOpc 0x00020021 = Opcode.fpack.code
      ∧ (0x00020021 : Word) &&& tableMask .fpack ≠ tableMatch .fpack := by decide +kernel

/-- With no operand word too few, and with the 829 words of the longest CPACKU. -/
theorem witness_OperandCountDecidesLength :
    (0x00000402 : Word) &&& tableMask .csrw = tableMatch .csrw
      ∧ ([] : List Word).length ≠ tableNops Params.chosen .csrw (cwB 0x00000402).toNat (cwC 0x00000402).toNat
      ∧ (0xFFFF0023 : Word) &&& tableMask .cpacku = tableMatch .cpacku
      ∧ (List.replicate 829 (0 : Word)).length
          = tableNops Params.chosen .cpacku (cwB 0xFFFF0023).toNat (cwC 0xFFFF0023).toNat := by decide +kernel

/-- The INFO of O7 and O27 where its two cases meet: 2^32 - 1 words and 2^32 words. -/
theorem witness_receivedCount :
    receivedCount ⟨0, List.replicate (2 ^ 32 - 1) 1⟩ = 0xFFFFFFFF
      ∧ receivedCount ⟨0, List.replicate (2 ^ 32) 1⟩ = Config.longCountInfo (2 ^ 32) := by
  constructor
  · rw [receivedCount, List.length_replicate, if_pos (by decide)]
    rfl
  · rw [receivedCount, List.length_replicate, if_neg (by decide)]

theorem witness_ByteOrderRoundTrip : 0xFFFF < 2 ^ (8 * 2) := by decide

theorem witness_WordPackingRoundTrip : 7 < 4 * (wordsOfBytes [1, 2, 3, 4, 5]).length ∧ 4 < 5 := by decide +kernel

theorem witness_StepRunsDecodedInstruction :
    (withCommand tc 0x00000033 []).port = .command ⟨0x00000033, []⟩ :: [] ∧ decode tc.params ⟨0x00000033, []⟩ = .ok .dnext
      ∧ { tc with port := [.reset] }.port = .reset :: [] ∧ tc.port = [] := by decide +kernel

theorem witness_ResetValuesAreTheTables : leastParams.legal = true ∧ greatestParams.legal = true := by decide +kernel

theorem witness_ResetMeetsStateInvariant : leastParams.legal = true ∧ greatestParams.legal = true := by decide +kernel

theorem witness_EveryCommandGetsOneResponse :
    tc.params.legal = true ∧ (withCommand tc 0xFF [1]).port = .command ⟨0xFF, [1]⟩ :: [] := by decide +kernel

/-- A failure, a success and a CSRW with CLR_ERR. -/
theorem witness_ErrorRegistersRecordTheLastFailure :
    (∃ t r, step (withCommand tc 0x00000701 []) = .next t ∧ t.responses = tc.responses ++ [r] ∧ statusOf r ≠ 0)
      ∧ (∃ t r, step (withCommand tc 0x00000000 []) = .next t ∧ t.responses = tc.responses ++ [r] ∧ statusOf r = 0)
      ∧ ∃ t r, step (withCommand tc 0x00000402 [2]) = .next t ∧ t.responses = tc.responses ++ [r] ∧ statusOf r = 0 :=
  ⟨⟨_, _, rfl, rfl, by decide +kernel⟩, ⟨_, _, rfl, rfl, by decide +kernel⟩, ⟨_, _, rfl, rfl, by decide +kernel⟩⟩

theorem witness_StepKeepsStateInvariant :
    (withCommand tc 0x00000032 [9]).inv = true ∧ ∃ t, step (withCommand tc 0x00000032 [9]) = .next t :=
  ⟨by decide +kernel, _, rfl⟩

theorem witness_ReadOnlyCommandsHaveNoSideEffect : isReadOnly (.cunpack 1 [0x25]) = true := rfl

theorem witness_LockKeepsDeviceModel :
    tc.cfgOk = true ∧ cwOpc 0x00000011 ≠ 0x10 ∧ ∃ t, step (withCommand tc 0x00000011 [0]) = .next t :=
  ⟨rfl, by decide +kernel, _, rfl⟩

theorem witness_LockedConfigurationWritesFail : tc.cfgOk = true := rfl

theorem witness_CommandsBeforeCommitFail : State.reset.cfgOk = false := rfl

/-- V-D1 after one DNEXT: the FRAME leaves one byte. -/
def midDecode : State := decoding [0xFF, 0x94, 1, 2, 3, 4, 5, 6, 0xFF] 1

theorem witness_DecodeSeesConstantContext :
    (withCommand midDecode 0x00000033 []).inv = true ∧ midDecode.decActive = true
      ∧ ∃ t, step (withCommand midDecode 0x00000033 []) = .next t ∧ t.decActive = true :=
  ⟨by decide +kernel, rfl, _, rfl, by decide +kernel⟩

theorem witness_EachStateHasItsOwnWriters : ∃ t, step (withCommand fullQueue 0x00000040 [0xA4, 40]) = .next t ∧ t.rd ≠ fullQueue.rd :=
  ⟨_, rfl, by decide +kernel⟩

theorem witness_LastErrorIsNeverTested : Instr.csrr 0x04 ≠ .csrr 0x05 := by decide +kernel

/-- Slot 3 is outside the live range. -/
theorem witness_StaleSlotsAreUnobservable :
    fullQueue.inv = true ∧ { fullQueue with slots := [(0, 0xA1), (1, 0xA2), (2, 0xA3), (3, 0xEE)] }.inv = true
      ∧ liveSamples fullQueue = liveSamples { fullQueue with slots := [(0, 0xA1), (1, 0xA2), (2, 0xA3), (3, 0xEE)] } := by
  decide +kernel

theorem witness_NopChangesNothing :
    cwOpc 0x00000000 = 0x00 ∧ cwOpc 0x01000000 = 0x00 ∧ (0x01000000 : Word) ≠ 0 ∧ ([1] : List Word) ≠ [] := by decide +kernel

theorem witness_CsrrReadsImplementedRegisters : tc.params.legal = true := by decide +kernel

theorem witness_ReservedCsrFails : ∀ n ∈ [0x07, 0x0A, 0x0B, 0x10, 0xFF], reservedCsr n := by
  unfold reservedCsr
  decide

theorem witness_CsrwWritesCtrlOnly :
    State.reset.cfgOk = false ∧ tc.cfgOk = true ∧ ((2 : Word).getLsbD 0 = true ↔ tc.endian = .big)
      ∧ ¬ ((1 : Word).getLsbD 0 = true ↔ tc.endian = .big)
      ∧ ∀ n ∈ [0x00, 0x03, 0x05, 0x06, 0x08, 0x09, 0x0C, 0x0F], readOnlyCsr n := by
  unfold readOnlyCsr
  decide +kernel

theorem witness_CfgcWritesOneContainer :
    State.reset.cfgOk = false ∧ (31 : Byte).toNat < State.reset.params.nc ∧ State.reset.params.nc ≤ (32 : Byte).toNat := by
  decide +kernel

theorem witness_CfgfWritesOneField :
    State.reset.cfgOk = false ∧ (63 : Byte).toNat < State.reset.params.nf ∧ State.reset.params.nf ≤ (64 : Byte).toNat := by
  decide +kernel

theorem witness_CfgxWritesOneEntry :
    State.reset.cfgOk = false ∧ (255 : BitVec 16).toNat < State.reset.params.xtSize
      ∧ State.reset.params.xtSize ≤ (256 : BitVec 16).toNat := by decide +kernel

/-! ### The commit -/

/-- One register of one byte and one field of `offset` and width 5 in it (V-G8b, V-G8c). -/
def oneField (offset : Byte) : State :=
  { State.reset with
    params := { Params.chosen with nc := 1, nf := 1 }
    cdt := [(0, containerOfWord 0x00000109)]
    fdt := [(0, { fieldOfWords ⟨0x40050000, 0, 0, 0, 0, 0, 0, 0⟩ with offset := offset })] }

/-- V-G5: frames 2 and 5 have one header. -/
def twoHeaders : State := { State.reset with cdt := [(2, containerOfWord 0x94000703), (5, containerOfWord 0x94000403)] }

/-- V-G8c, offset 3 and width 5 in 8 bits: the greatest field that fits. -/
theorem witness_commit_legal : (oneField 3).params.legal = true ∧ (oneField 3).cfgOk = false ∧ LegalModel (oneField 3) := by
  refine ⟨by decide +kernel, rfl, fun c hc => ?_, fun c hc => ?_, fun f hf _ k => ?_⟩
  · obtain rfl : c = 0 := by simpa [oneField] using hc
    unfold Check1Fails
    decide +kernel
  · rintro ⟨-, c1, h1, -⟩
    obtain rfl : c = 0 := by simpa [oneField] using hc
    omega
  · obtain rfl : f = 0 := by simpa [oneField] using hf
    match k with
    | 3 => show ¬ (_ ∨ _); decide +kernel
    | 4 => show ¬ ¬ (_ ↔ _); decide +kernel
    | 5 => show ¬ (_ ∨ _); decide +kernel
    | 6 => exact fun h => h
    | 7 => exact fun h => h
    | 0 | 1 | 2 | _ + 8 => exact fun h => h

/-- V-G8b, offset 4: the same field does not fit. -/
theorem witness_commit_field : (∀ c < (oneField 4).params.nc, ¬ Check1Fails (oneField 4) c)
    ∧ (∀ c < (oneField 4).params.nc, ¬ Check2Fails (oneField 4) c) ∧ FirstFieldFailure (oneField 4) 0 5
    ∧ LeastBelow (oneField 4).params.nf (fun g => ∃ j, FirstFieldFailure (oneField 4) g j) 0 := by
  have first : FirstFieldFailure (oneField 4) 0 5 := by
    refine ⟨by decide +kernel, ?_, fun j hj => ?_⟩
    · show _ ∨ _
      decide +kernel
    · match j with
      | 3 => show ¬ (_ ∨ _); decide +kernel
      | 4 => show ¬ ¬ (_ ↔ _); decide +kernel
      | 0 | 1 | 2 => exact fun h => h
      | n + 5 => omega
  refine ⟨fun c hc => ?_, fun c hc => ?_, first, by decide +kernel, ⟨5, first⟩, by omega⟩
  · obtain rfl : c = 0 := by simpa [oneField] using hc
    unfold Check1Fails
    decide +kernel
  · rintro ⟨-, c1, h1, -⟩
    obtain rfl : c = 0 := by simpa [oneField] using hc
    omega

theorem witness_CommitSucceedsExactlyOnLegalModels :
    (oneField 3).params.legal = true ∧ (oneField 3).cfgOk = false ∧ LegalModel (oneField 3) ∧ ¬ LegalModel (oneField 4) :=
  ⟨witness_commit_legal.1, rfl, witness_commit_legal.2.2, fun h =>
    h.2.2 0 (by decide +kernel) (by decide +kernel) 5 witness_commit_field.2.2.1.2.1⟩

/-- V-G4a (SIZE 0), V-G5 and V-G8b. -/
theorem witness_CommitReportsFirstFailure :
    LeastBelow 32 (Check1Fails { State.reset with cdt := [(0, containerOfWord 0x00000009)] }) 0
      ∧ ((∀ c < 32, ¬ Check1Fails twoHeaders c) ∧ LeastBelow 32 (Check2Fails twoHeaders) 5)
      ∧ LeastBelow (oneField 4).params.nf (fun g => ∃ j, FirstFieldFailure (oneField 4) g j) 0 := by
  refine ⟨?_, ?_, witness_commit_field.2.2.2⟩
  · unfold LeastBelow Check1Fails
    decide +kernel
  · unfold LeastBelow Check2Fails Check1Fails ValidFrame
    decide +kernel

/-! ### The codec -/

/-- What Reads says of a TABLE field, by its raw value. -/
theorem reads_table {s : State} {f cint : Nat} {v : HVal} {unmapped ext : Bool} (hx : (fieldAt s f).xform = .table) :
    Reads s f cint v unmapped ext ↔
      if rawOf (fieldAt s f) cint < (fieldAt s f).xparam.toNat / 2 ^ 16 then
        v = xtAt s ((fieldAt s f).xparam.toNat % 2 ^ 16 + rawOf (fieldAt s f) cint) ∧ unmapped = false ∧ ext = false
      else v = BitVec.ofNat 64 (rawOf (fieldAt s f) cint) ∧ unmapped = true ∧ ext = false := by
  simp only [Reads, hx]

/-- V-C1a and V-C3. -/
theorem witness_FunpackReadsField :
    tc.cfgOk = true ∧ fieldExists tc 0 = true ∧ [(0x0B : Byte)].length = payloadOf tc (ownerOf tc 0)
      ∧ Reads tc 0 (bytesToInt [0x0B] tc.endian) 8 false false ∧ Reads tc 4 (bytesToInt [0x30] tc.endian) 3 true false := by
  refine ⟨rfl, by decide +kernel, by decide +kernel, ?_, ?_⟩
  · show _ ∧ _ ∧ _
    decide +kernel
  · rw [reads_table (by decide +kernel)]
    decide +kernel

/-- f2 packs 1, the upper end of its range 0..1. -/
theorem witness_FpackWritesFieldBits :
    fieldExists tc 2 = true ∧ WritableKind (fieldAt tc 2) ∧ Resolves (fieldAt tc 2) (.value 1) 1 ∧ IsAllowed tc (fieldAt tc 2) 1
      ∧ Encodes tc (fieldAt tc 2) 1 1 := by
  refine ⟨by decide +kernel, ?_, rfl, ?_, ?_⟩
  · show _ ∨ _
    decide +kernel
  · show _ ∧ _
    decide +kernel
  · show _ = _
    decide +kernel

/-- f4 is a table of 100, 200 and 300. -/
theorem no_table_entry (raw : Nat) : ¬ Encodes tc (fieldAt tc 4) 150 raw := by
  rintro ⟨h, he, -⟩
  have h3 : raw < 3 := lt_of_lt_of_eq h (by decide +kernel)
  revert he
  interval_cases raw <;> decide +kernel

/-- Field 64 is past NF, f12 is a data field, f3 has no default, f2 does not allow 2, f4 has no entry for 150. -/
theorem witness_FpackFailsInOrder :
    tc.inv = true ∧ fieldExists tc 64 = false ∧ (fieldExists tc 12 = true ∧ ¬ WritableKind (fieldAt tc 12))
      ∧ (WritableKind (fieldAt tc 3) ∧ ∀ v, ¬ Resolves (fieldAt tc 3) .useDefault v)
      ∧ (Resolves (fieldAt tc 2) (.value 2) 2 ∧ ¬ IsAllowed tc (fieldAt tc 2) 2)
      ∧ IsAllowed tc (fieldAt tc 4) 150 ∧ ∀ raw, ¬ Encodes tc (fieldAt tc 4) 150 raw := by
  refine ⟨by decide +kernel, by decide +kernel, ⟨by decide +kernel, ?_⟩, ⟨?_, ?_⟩, ⟨rfl, ?_⟩, trivial, no_table_entry⟩
  · show ¬ (_ ∨ _)
    decide +kernel
  · show _ ∨ _
    decide +kernel
  · rintro v ⟨h, -⟩
    exact absurd h (by decide +kernel)
  · show ¬ (_ ∧ _)
    decide +kernel

/-- f8 is IDENTITY of width 4, and 15 the greatest value it gives back. -/
theorem witness_FieldRoundTrip :
    ∃ t r, exec (.fpack 8 (.value 15)) tc = .next t ∧ t.responses = tc.responses ++ [r] ∧ statusOf r = 0
      ∧ (15 : HVal).toNat < 2 ^ (fieldAt tc 8).width.toNat := ⟨_, _, rfl, rfl, by decide +kernel⟩

/-- V-C18. -/
theorem witness_CunpackListsEveryField :
    containerExists tc 1 = true ∧ [(0x25 : Byte)].length = payloadOf tc 1
      ∧ [2, 3, 4] = fieldsOf tc 1 ∧ Reads tc 2 (bytesToInt [0x25] tc.endian) 1 false false
      ∧ Reads tc 3 (bytesToInt [0x25] tc.endian) 0 false false ∧ Reads tc 4 (bytesToInt [0x25] tc.endian) 300 false false := by
  refine ⟨by decide +kernel, by decide +kernel, by decide +kernel, ?_, ?_, ?_⟩
  · show _ ∧ _ ∧ _
    decide +kernel
  · show _ ∧ _ ∧ _
    decide +kernel
  · rw [reads_table (by decide +kernel)]
    decide +kernel

/-- Two overrides of f8 (V-C26). -/
def twoOverrides : List Override := [⟨8, .value 2⟩, ⟨8, .value 7⟩]

theorem last_override (base : FieldArg → Prop) : FinalArg base twoOverrides 8 (.value 7) :=
  .inl ⟨[⟨8, .value 2⟩], ⟨8, .value 7⟩, [], rfl, rfl, rfl, by simp⟩

theorem no_override {base : FieldArg → Prop} {arg : FieldArg} (h : base arg) : FinalArg base twoOverrides 9 arg :=
  .inr ⟨by decide +kernel, h⟩

/-- Under any base f8 packs its last override 7. -/
theorem packs_f8 (base : FieldArg → Prop) : PacksAs tc base twoOverrides 8 7 7 := by
  refine ⟨?_, ⟨_, last_override base, rfl⟩, trivial, ?_⟩
  · show _ ∨ _
    decide +kernel
  · show _ = _
    decide +kernel

/-- Over a base of 1 f9 packs 1. -/
theorem packs_f9 {base : FieldArg → Prop} {arg : FieldArg} (h : base arg) (hr : Resolves (fieldAt tc 9) arg 1) :
    PacksAs tc base twoOverrides 9 1 1 := by
  refine ⟨?_, ⟨_, no_override h, hr⟩, trivial, ?_⟩
  · show _ ∨ _
    decide +kernel
  · show _ = _
    decide +kernel

/-- V-C26, and the same overrides over the defaults. -/
theorem witness_ContainerPackMergesEveryField :
    containerExists tc 5 = true ∧ WritableContainer (containerAt tc 5) ∧ OverridesOf tc 5 twoOverrides
      ∧ [((8, 7, 7) : Nat × HVal × Nat), (9, 1, 1)].map (·.1) = fieldsOf tc 5 ∧ [(0x11 : Byte)].length = payloadOf tc 5
      ∧ PacksAs tc (UpdateBase tc 8 (bytesToInt [0x11] tc.endian)) twoOverrides 8 7 7
      ∧ PacksAs tc (UpdateBase tc 9 (bytesToInt [0x11] tc.endian)) twoOverrides 9 1 1
      ∧ PacksAs tc ReplaceBase twoOverrides 8 7 7 ∧ PacksAs tc ReplaceBase twoOverrides 9 1 1 := by
  refine ⟨by decide +kernel, ?_, ?_, by decide +kernel, by decide +kernel, packs_f8 _, packs_f9 (arg := .value 1) ⟨1, false, ?_, rfl⟩ rfl, packs_f8 _,
    packs_f9 (arg := .useDefault) rfl ⟨by decide +kernel, by decide +kernel⟩⟩
  · unfold WritableContainer
    decide +kernel
  · unfold OverridesOf
    decide +kernel
  · show _ ∧ _ ∧ _
    decide +kernel

/-- V-C27: the current value 128 of f0 is not allowed. V-C25: the current raw value 3 of f4 is unmapped. V-C21: f3 has no
default. An override of f4 by 150: no raw encoding. -/
theorem witness_ContainerPackReportsFirstBadValue :
    (fieldsOf tc 0 = ([] : List (Nat × HVal × Nat)).map (·.1) ++ 0 :: [1] ∧ StopsMerge tc (UpdateBase tc 0 (bytesToInt [0xFF] tc.endian)) [] 0 1)
      ∧ (fieldsOf tc 1 = [((2, 0, 0) : Nat × HVal × Nat), (3, 0, 0)].map (·.1) ++ 4 :: []
          ∧ StopsMerge tc (UpdateBase tc 4 (bytesToInt [0x30] tc.endian)) [] 4 3)
      ∧ (fieldsOf tc 1 = [((2, 0, 0) : Nat × HVal × Nat)].map (·.1) ++ 3 :: [4]
          ∧ PacksAs tc ReplaceBase [] 2 0 0 ∧ StopsMerge tc ReplaceBase [] 3 2)
      ∧ StopsMerge tc ReplaceBase [⟨3, .value 1⟩, ⟨4, .value 150⟩] 4 3 := by
  refine ⟨⟨by decide +kernel, .value 128, 128, .inr ⟨by simp, 128, false, ?_, rfl⟩, rfl, ?_⟩,
    ⟨by decide +kernel, .inl ?_⟩,
    ⟨by decide +kernel, ⟨?_, ⟨.useDefault, .inr ⟨by simp, rfl⟩, by decide +kernel, by decide +kernel⟩, ?_, ?_⟩, .useDefault,
      .inr ⟨by simp, rfl⟩, ?_⟩, .inr ⟨.value 150, 150, ?_, rfl, trivial, no_table_entry⟩⟩
  · show _ ∧ _ ∧ _
    decide +kernel
  · rintro ⟨j, hj, he⟩
    have h6 : j < 6 := by exact_mod_cast lt_of_lt_of_eq hj (by decide +kernel : _ = (6 : Int))
    revert he
    interval_cases j <;> decide +kernel
  · rintro arg (⟨pre, o, post, h, -⟩ | ⟨-, v, ext, h, -⟩)
    · simp at h
    · rw [reads_table (by decide +kernel), if_neg (by decide +kernel)] at h
      exact absurd h.2.1 (by simp)
  · show _ ∨ _
    decide +kernel
  · show _ ∧ _
    decide +kernel
  · show _ = _
    decide +kernel
  · rintro v ⟨h, -⟩
    exact absurd h (by decide +kernel)
  · exact .inl ⟨[⟨3, .value 1⟩], ⟨4, .value 150⟩, [], rfl, rfl, rfl, by simp⟩

/-- f0 and f1 cover bits 0 to 5 of container 0; bit 6 is the first uncovered one. -/
theorem witness_UpdateDropsUncoveredBits :
    tc.inv = true ∧ (∃ t r, exec (.cpacku 0 [0xC0] []) tc = .next t ∧ t.responses = tc.responses ++ [r] ∧ statusOf r = 0)
      ∧ ∀ f ∈ fieldsOf tc 0, ¬ ((fieldAt tc f).offset.toNat ≤ 6 ∧ 6 < (fieldAt tc f).offset.toNat + (fieldAt tc f).width.toNat) :=
  ⟨by decide +kernel, ⟨_, _, rfl, rfl, by decide +kernel⟩, by decide +kernel⟩

/-- `tc` with container 7, which holds data fields, made writable. -/
def tcWritable : State := { tc with cdt := tableWrite tc.cdt 7 (containerOfWord 0x00040609) }

/-- No container 8, c7 read-only, two bytes for c1, no field 40, f0 of another container behind a good override, f12 data. -/
theorem witness_ContainerWriteFailsInOrder :
    tc.cfgOk = true ∧ containerExists tc 8 = false ∧ (containerExists tc 7 = true ∧ ¬ WritableContainer (containerAt tc 7))
      ∧ (containerExists tc 1 = true ∧ WritableContainer (containerAt tc 1) ∧ [(0 : Byte), 0].length ≠ payloadOf tc 1)
      ∧ (OverridesOf tc 1 [] ∧ fieldExists tc 40 = false)
      ∧ (OverridesOf tc 1 [⟨3, .value 1⟩] ∧ fieldExists tc 0 = true ∧ ownerOf tc 0 ≠ 1)
      ∧ (WritableContainer (containerAt tcWritable 7) ∧ fieldsOf tcWritable 7 = [] ++ 12 :: [13, 14]
          ∧ ¬ WritableKind (fieldAt tcWritable 12)) := by
  unfold WritableContainer OverridesOf WritableKind
  decide +kernel

theorem witness_CodecReadsFailInOrder :
    tc.cfgOk = true ∧ fieldExists tc 64 = false ∧ (fieldExists tc 0 = true ∧ ([] : List Byte).length ≠ payloadOf tc (ownerOf tc 0))
      ∧ containerExists tc 32 = false ∧ containerExists tc 1 = true ∧ [(0 : Byte), 0].length ≠ payloadOf tc 1 := by decide +kernel

/-! ### The decoder -/

/-- The ranges 509..511 and 510..512, no bytes, and an active decode. -/
theorem witness_DbwrWritesItsRange :
    midDecode.decActive = true ∧ tc.decActive = false ∧ tc.params.dbufSize < (510 : Word).toNat + [(1 : Byte), 2, 3].length
      ∧ [(1 : Byte), 2, 3] ≠ [] ∧ (509 : Word).toNat + [(1 : Byte), 2, 3].length ≤ tc.params.dbufSize := by decide +kernel

theorem witness_DbrdReturnsItsRange :
    tc.params.dbufSize < (512 : Word).toNat + (1 : Byte).toNat
      ∧ (1 : Byte) ≠ 0 ∧ (511 : Word).toNat + (1 : Byte).toNat ≤ tc.params.dbufSize := by decide +kernel

theorem witness_DbrdAfterDbwrReturnsTheBytes :
    [(1 : Byte), 2, 3].length ≤ 255 ∧ (∃ t, exec (.dbwr 509 [1, 2, 3]) tc = .next t) ∧ tc.decActive = false
      ∧ [(1 : Byte), 2, 3] ≠ [] ∧ (509 : Word).toNat + [(1 : Byte), 2, 3].length ≤ tc.params.dbufSize :=
  ⟨by decide, ⟨_, rfl⟩, rfl, by simp, by decide +kernel⟩

theorem witness_DstartStartsDecode :
    tc.params.legal = true ∧ tc.cfgOk = true ∧ (512 : Word).toNat ≤ tc.params.dbufSize
      ∧ tc.params.dbufSize < (513 : Word).toNat := by decide +kernel

/-- V-D11: a frame without fields. -/
def bareFrame : State := { decoding [0x48, 0] 0 with fdt := [] }

/-- No decode; V-D1 record 1; V-D3 with one byte missing; a frame without fields that ends at DEC_LEN; V-D15 record 1. -/
theorem witness_DnextYieldsNextRecord :
    tc.inv = true ∧ tc.decActive = false
      ∧ ((decoding [0xFF, 0x94] 0).inv = true ∧ UnknownHeader (decoding [0xFF, 0x94] 0) 0xFF)
      ∧ ((decoding [0x90, 1, 2] 0).inv = true ∧ FrameAt (decoding [0x90, 1, 2] 0) 0 3
          ∧ 3 < 0 + (containerAt (decoding [0x90, 1, 2] 0) 3).size.toNat)
      ∧ (bareFrame.inv = true ∧ FrameAt bareFrame 0 4 ∧ 0 + (containerAt bareFrame 4).size.toNat ≤ bareFrame.decLen.toNat
          ∧ fieldsOf bareFrame 4 = [])
      ∧ (FrameAt (decoding [0x48, 0x5A] 0) 0 4 ∧ fieldsOf (decoding [0x48, 0x5A] 0) 4 = 7 :: []
          ∧ Reads (decoding [0x48, 0x5A] 0) 7 (bytesToInt [0x5A] .little) 0x5A false false) := by
  refine ⟨by decide +kernel, rfl, ⟨by decide +kernel, ?_⟩, ⟨by decide +kernel, ?_, by decide +kernel⟩,
    ⟨by decide +kernel, ?_, by decide +kernel, by decide +kernel⟩, ?_, by decide +kernel, ?_⟩
  · unfold UnknownHeader ValidFrame
    decide +kernel
  · unfold FrameAt ValidFrame
    decide +kernel
  · unfold FrameAt ValidFrame
    decide +kernel
  · unfold FrameAt ValidFrame
    decide +kernel
  · show _ ∧ _ ∧ _
    decide +kernel

/-- One byte left, and as many DNEXTs as there are bytes left. -/
theorem witness_DecodeTerminates :
    (decoding [0xFF] 0).inv = true ∧ (decoding [0xFF] 0).decActive = true ∧ (∃ t, exec .dnext (decoding [0xFF] 0) = .next t)
      ∧ (decoding [0xFF] 0).decLen.toNat ≤ (decoding [0xFF] 0).decPos.toNat + 1 :=
  ⟨by decide +kernel, rfl, ⟨_, rfl⟩, by decide +kernel⟩

/-- V-D2. -/
theorem witness_DecodeConsumesExactFrames :
    (decoding [0x94, 1, 2, 3, 4, 5, 6, 0x90, 0x0A, 0x0B, 0x0C] 0).inv = true
      ∧ WholeFrames (decoding [0x94, 1, 2, 3, 4, 5, 6, 0x90, 0x0A, 0x0B, 0x0C] 0) 0 [2, 3] := by
  refine ⟨by decide +kernel, ?_⟩
  unfold WholeFrames WholeFrames WholeFrames FrameAt ValidFrame
  decide +kernel

/-- Two unknown bytes that end at DEC_LEN. -/
theorem witness_UnknownBytesAreSkippedOneByOne :
    (decoding [0x03, 0x04] 0).inv = true ∧ (decoding [0x03, 0x04] 0).decPos.toNat + 2 ≤ (decoding [0x03, 0x04] 0).decLen.toNat
      ∧ ∀ k < 2, UnknownHeader (decoding [0x03, 0x04] 0)
          (dbufAt (decoding [0x03, 0x04] 0) ((decoding [0x03, 0x04] 0).decPos.toNat + k)) := by
  unfold UnknownHeader ValidFrame
  decide +kernel

/-! ### The queue -/

/-- An empty queue, one that is one short of full, and a full one. -/
theorem witness_QputRefinesBoundedFifo :
    State.reset.inv = true ∧ (liveSamples State.reset).length < State.reset.params.qcap - 1
      ∧ (liveSamples { fullQueue with rd := 1 }).length < fullQueue.params.qcap - 1
      ∧ fullQueue.inv = true ∧ (liveSamples fullQueue).length = fullQueue.params.qcap - 1 := by decide +kernel

theorem witness_QgetTakesOldestSample :
    liveSamples State.reset = [] ∧ fullQueue.inv = true ∧ liveSamples fullQueue = 0xA1 :: [0xA2, 0xA3] := by decide +kernel

theorem witness_QueueQueriesCountLiveSamples : fullQueue.inv = true := by decide +kernel

theorem witness_QdiscReportsAndClears : ∃ t, exec .qdisc fullQueue = .next t := ⟨_, rfl⟩

theorem witness_QueueKeepsNewestSamples : State.reset.inv = true ∧ liveSamples State.reset = [] := by decide +kernel

end Sys2Proof.Tests
end

section
/-! PROOFS. The statements of 00_scope.md: the byte orders of R12, the packing into words of R13, and the error registers of
R14. Their lemmas stand before them, each in the namespace of the definitions it speaks of. -/

/-! ### Byte sequences as integers (00_scope.md R12) -/

namespace Sys2Proof.Machine

theorem littleToInt_append (xs ys : List Byte) :
    littleToInt (xs ++ ys) = littleToInt xs + 2 ^ (8 * xs.length) * littleToInt ys := by
  induction xs with
  | nil => simp [littleToInt]
  | cons x xs ih =>
    have hpow : 2 ^ (8 * (xs.length + 1)) = 256 * 2 ^ (8 * xs.length) := by rw [Nat.mul_add, Nat.pow_add]; omega
    rw [List.cons_append, littleToInt, littleToInt, ih, List.length_cons, hpow]
    ring

/-- A last byte has the greatest weight under LITTLE. -/
theorem bytesToInt_little_concat (bytes : List Byte) (b : Byte) :
    bytesToInt (bytes ++ [b]) .little = bytesToInt bytes .little + b.toNat * 2 ^ (8 * bytes.length) := by
  simp [bytesToInt, littleToInt_append, littleToInt, Nat.mul_comm]

/-- A first byte has the greatest weight under BIG. -/
theorem bytesToInt_big_cons (bytes : List Byte) (b : Byte) :
    bytesToInt (b :: bytes) .big = bytesToInt bytes .big + b.toNat * 2 ^ (8 * bytes.length) := by
  simp [bytesToInt, littleToInt_append, littleToInt, Nat.mul_comm]

theorem intToLittle_littleToInt (bytes : List Byte) : intToLittle (littleToInt bytes) bytes.length = bytes := by
  induction bytes with
  | nil => rfl
  | cons b bs ih =>
    have hlow : BitVec.ofNat 8 (b.toNat + 256 * littleToInt bs) = b := by
      apply BitVec.eq_of_toNat_eq
      rw [BitVec.toNat_ofNat]
      omega
    have hhigh : (b.toNat + 256 * littleToInt bs) / 256 = littleToInt bs := by omega
    rw [littleToInt, List.length_cons, intToLittle, hlow, hhigh, ih]

/-- The `n` bytes of an integer hold it modulo 2^(8n). -/
theorem littleToInt_intToLittle (x n : Nat) : littleToInt (intToLittle x n) = x % 2 ^ (8 * n) := by
  induction n generalizing x with
  | zero => simp [intToLittle, littleToInt, Nat.mod_one]
  | succ n ih =>
    have hpow : 2 ^ (8 * (n + 1)) = 256 * 2 ^ (8 * n) := by rw [Nat.mul_add, Nat.pow_add]; omega
    rw [intToLittle, littleToInt, ih, BitVec.toNat_ofNat, hpow, Nat.mod_mul]

theorem intToBytes_bytesToInt (bytes : List Byte) (e : Endian) :
    intToBytes (bytesToInt bytes e) bytes.length e = bytes := by
  cases e with
  | little => exact intToLittle_littleToInt bytes
  | big =>
    have hrev := intToLittle_littleToInt bytes.reverse
    rw [List.length_reverse] at hrev
    rw [intToBytes, bytesToInt, hrev, List.reverse_reverse]

theorem bytesToInt_intToBytes (x n : Nat) (e : Endian) : bytesToInt (intToBytes x n e) e = x % 2 ^ (8 * n) := by
  cases e with
  | little => exact littleToInt_intToLittle x n
  | big => rw [intToBytes, bytesToInt, List.reverse_reverse, littleToInt_intToLittle]

end Sys2Proof.Machine

/-! ### Bytes in words (00_scope.md R13) -/

namespace Sys2Proof

theorem getD_wordsOfBytes {bytes : List Byte} {j : Nat} (hj : j < (wordsOfBytes bytes).length) :
    (wordsOfBytes bytes).getD j 0 = wordOfBytes bytes j := by
  rw [length_wordsOfBytes] at hj
  simp [wordsOfBytes, hj]

/-- Byte k of the words that carry a byte list, the zero pad included. -/
theorem byteOfWords_wordsOfBytes {bytes : List Byte} {k : Nat} (hk : k < 4 * (wordsOfBytes bytes).length) :
    byteOfWords (wordsOfBytes bytes) k = bytes.getD k 0 := by
  rw [byteOfWords, getD_wordsOfBytes (by omega), extract_wordOfBytes _ _ _ (Nat.mod_lt _ (by omega)), Nat.div_add_mod]

theorem getD_bytesOfWords (ws : List Word) {n k : Nat} (hk : k < n) : (bytesOfWords ws n).getD k 0 = byteOfWords ws k := by
  simp [bytesOfWords, hk]

end Sys2Proof

/-! ### The error registers (00_scope.md R14) -/

namespace Sys2Proof.Machine

open Sys2Proof.Cert

@[simp] theorem statusOf_failureResponse (f : Failure) : statusOf (failureResponse f) = statusByte f.code :=
  statusWord_status _ _ _ _

@[simp] theorem subOf_failureResponse (f : Failure) : subOf (failureResponse f) = f.sub := statusWord_sub _ _ _ _

@[simp] theorem statusOf_okResponse (fl : BitVec 4) (rs : List Word) : statusOf (okResponse fl rs) = 0 :=
  statusWord_status _ _ _ _

/-- What a command that answers leaves: the state of a raise, of a failed commit, or of a success with its rule's writes. -/
theorem ends_next {i : Instr} {s t : State} {o : Host.Outcome State Fault Refusal} (h : Ends i s o) (ho : o = .next t) :
    (∃ f, f.code ≠ .ok ∧ t = raiseState s f)
      ∨ (∃ e, i = .cfgcommit ∧ commitCheck s = some e
          ∧ t = raiseState { s with cfgErr := commitWord e } ⟨.configError, e.code, commitWord e⟩)
      ∨ ∃ s' fl rs, Writes i s s' ∧ t = respond s' (okResponse fl rs) := by
  cases h with
  | raised f hf => cases ho; exact .inl ⟨f, hf, rfl⟩
  | commitFailed e hi _ he => cases ho; exact .inr (.inl ⟨e, hi, he, rfl⟩)
  | succeeded s' fl rs hw _ _ => cases ho; exact .inr (.inr ⟨s', fl, rs, hw, rfl⟩)

/-- What a step that takes a command leaves: a failure writes the error registers and, under opcode 0x14 only, CFG_ERR; a
success has the writes of the instruction's rule. -/
theorem step_command_next {s t : State} {c : Command} {rest : List PortEvent} (hport : s.port = .command c :: rest)
    (hstep : step s = .next t) :
    (∃ f w, f.code ≠ .ok ∧ (w ≠ s.cfgErr → cwOpc c.cw = 0x14) ∧ t = raiseState { s with port := rest, cfgErr := w } f)
      ∨ ∃ i s' fl rs, decode s.params c = .ok i ∧ Writes i { s with port := rest } s'
          ∧ t = respond s' (okResponse fl rs) := by
  rcases step_command hport with ⟨e, _, hraise⟩ | ⟨i, hi, hexec⟩
  · cases hraise.symm.trans hstep
    exact .inl ⟨_, s.cfgErr, decodeFailure_code c e, fun h => absurd rfl h, rfl⟩
  · rcases ends_next (exec_ends i _) (hexec.symm.trans hstep) with
      ⟨f, hf, rfl⟩ | ⟨e, rfl, _, rfl⟩ | ⟨s', fl, rs, hw, rfl⟩
    · exact .inl ⟨f, s.cfgErr, hf, fun h => absurd rfl h, rfl⟩
    · exact .inl ⟨_, commitWord e, by simp, fun _ => opcode_of_decode hi, rfl⟩
    · exact .inr ⟨i, s', fl, rs, hi, hw, rfl⟩

/-- The operand word of a CSRW. -/
theorem csrw_of_decode {p : Params} {c : Command} {csr : Byte} {v : Word} (h : decode p c = .ok (.csrw csr v)) :
    v = c.ops.getD 0 0 := by
  obtain ⟨op, _, _, _, hasm⟩ := decode_ok h
  cases op <;> cases hasm
  rfl

/-- No rule writes LAST_ERR or LAST_SUB but CSRW's, which clears both where CLR_ERR is set. -/
theorem writes_lastError {i : Instr} {s s' : State} (hw : Writes i s s') :
    (s'.lastErr = s.lastErr ∧ s'.lastSub = s.lastSub)
      ∨ ∃ csr v, i = .csrw csr v ∧ v.getLsbD 1 = true ∧ s'.lastErr = 0 ∧ s'.lastSub = 0 := by
  cases i with
  | csrw csr v =>
    obtain ⟨rfl, _⟩ := hw
    by_cases hclr : v.getLsbD 1 = true
    · exact .inr ⟨csr, v, rfl, hclr, if_pos hclr, if_pos hclr⟩
    · exact .inl ⟨if_neg hclr, if_neg hclr⟩
  | dnext => obtain ⟨_, ⟨_, rfl⟩ | ⟨_, rfl⟩⟩ := hw <;> exact .inl ⟨rfl, rfl⟩
  | qput => simp only [Writes] at hw; subst hw; split <;> exact .inl ⟨rfl, rfl⟩
  | qget => obtain ⟨_, rfl⟩ | ⟨_, rfl⟩ := hw <;> exact .inl ⟨rfl, rfl⟩
  | cfgc | cfgf | cfgx | cfgcommit | dbwr | dstart => obtain ⟨_, _, rfl⟩ := hw; exact .inl ⟨rfl, rfl⟩
  | _ => obtain rfl := hw; exact .inl ⟨rfl, rfl⟩

end Sys2Proof.Machine

open Sys2Proof Sys2Proof.Machine Sys2Proof.Cert

/-- Settles O9: each byte order inverts itself, by induction on the bytes and on their number. -/
theorem byteOrderRoundTrip : Obligations.ByteOrderRoundTrip := by
  refine ⟨fun e bytes => intToBytes_bytesToInt bytes e, fun e n x hx => ⟨?_, length_intToBytes x n e⟩,
    fun bytes b => ⟨bytesToInt_little_concat bytes b, bytesToInt_big_cons bytes b⟩⟩
  rw [bytesToInt_intToBytes, Nat.mod_eq_of_lt hx]

/-- Settles O10, from the byte at each place of a word. -/
theorem wordPackingRoundTrip : Obligations.WordPackingRoundTrip :=
  ⟨fun v => ⟨rfl, valueOfWords_lo_hi v⟩,
    fun bytes => ⟨length_wordsOfBytes bytes, bytesOfWords_wordsOfBytes' bytes, fun _ hk => byteOfWords_wordsOfBytes hk⟩,
    fun ws n => ⟨length_bytesOfWords ws n, fun _ hk => getD_bytesOfWords ws hk⟩⟩

/-- Settles O15, by the ends a command step can come to. -/
theorem errorRegistersRecordTheLastFailure : Obligations.ErrorRegistersRecordTheLastFailure := by
  intro s t c rest r hport hstep hresp
  rcases step_command_next hport hstep with ⟨f, w, hf, hcommit, rfl⟩ | ⟨i, s', fl, rs, hi, hw, rfl⟩
  · have hr : failureResponse f = r := by simpa using hresp
    subst hr
    refine ⟨fun _ => ⟨?_, hcommit⟩, fun hok => absurd hok (by simpa using hf)⟩
    rw [statusOf_failureResponse, subOf_failureResponse]
    rfl
  · obtain ⟨_, hkeep, _, _⟩ := writes_host hw
    have hr : okResponse fl rs = r := by simpa [hkeep] using hresp
    subst hr
    refine ⟨fun hfail => absurd (statusOf_okResponse fl rs) hfail, fun _ => ?_⟩
    rcases writes_lastError hw with hsame | ⟨csr, v, rfl, hclr, hzero⟩
    · exact .inl hsame
    · exact .inr ⟨opcode_of_decode hi, csrw_of_decode hi ▸ hclr, hzero⟩

end

section
/-! PROOFS. The state invariant of 10_state.md R37 and R38. -/

namespace Sys2Proof.Machine

/-! ### The parts of the invariant -/

theorem inv_iff (s : State) :
    s.inv = true ↔ s.params.legal = true ∧ storesWf s = true ∧ decoderWf s = true ∧ queueWf s = true ∧ modelWf s = true := by
  simp only [State.inv, Bool.and_eq_true, and_assoc]

theorem storesWf_iff (s : State) :
    storesWf s = true ↔ tableWf s.params.nc s.cdt = true ∧ tableWf s.params.nf s.fdt = true
      ∧ tableWf s.params.xtSize s.xt = true ∧ memoryWf s.params.dbufSize s.dbuf = true
      ∧ tableWf s.params.qcap s.slots = true
      ∧ s.slots.all (fun e => decide (e.2.toNat < 2 ^ s.params.sampleW)) = true := by
  simp only [storesWf, Bool.and_eq_true, and_assoc]

theorem decoderWf_iff (s : State) :
    decoderWf s = true ↔ s.decActive = decide (s.decPos.toNat < s.decLen.toNat) ∧ s.decPos.toNat ≤ s.decLen.toNat
      ∧ s.decLen.toNat ≤ s.params.dbufSize ∧ (s.decActive = true → s.cfgOk = true) := by
  simp only [decoderWf, Bool.and_eq_true, beq_iff_eq, decide_eq_true_eq, and_assoc]
  cases s.decActive <;> simp

theorem queueWf_iff (s : State) :
    queueWf s = true ↔ s.rd.toNat < s.params.qcap ∧ s.wr.toNat < s.params.qcap
      ∧ ∀ j < queueSize s, (tableFind s.slots (liveSlot s j)).isSome = true := by
  simp only [queueWf, Bool.and_eq_true, decide_eq_true_eq, List.all_eq_true, List.mem_range, and_assoc]

theorem modelWf_iff (s : State) : modelWf s = true ↔ (s.cfgOk = true → commitCheck s = none) := by
  cases h : s.cfgOk <;> simp [modelWf, h]

/-- Without a committed Device Model there is nothing to check. -/
theorem modelWf_of_uncommitted {s : State} (h : s.cfgOk = false) : modelWf s = true := by simp [modelWf, h]

/-- What the laws of the queue ask of a state. -/
theorem cursors_of_inv {s : State} (h : s.inv = true) :
    s.params.legal = true ∧ s.rd.toNat < s.params.qcap ∧ s.wr.toNat < s.params.qcap := by
  obtain ⟨hp, _, _, hq, _⟩ := (inv_iff s).1 h
  obtain ⟨hr, hw, _⟩ := (queueWf_iff s).1 hq
  exact ⟨hp, hr, hw⟩

/-- A reset event leaves nothing written, nothing committed, no decode and no sample. -/
theorem inv_afterReset {p : Params} (hp : p.legal = true) (draw : Nat) (port : List PortEvent) (rs : List Response) :
    (State.afterReset p draw port rs).inv = true := by
  have hcap := legal_qcap hp
  have hpos : 0 < p.qcap := by omega
  rw [inv_iff, decoderWf_iff, queueWf_iff]
  exact ⟨hp, rfl, by simp, ⟨hpos, hpos, by simp [queueSize]⟩, rfl⟩

/-! ### The configuration commands keep it -/

theorem inv_clearModel {s : State} (h : s.inv = true) : (clearModel s).inv = true := by
  obtain ⟨hp, hst, _, hq, _⟩ := (inv_iff s).1 h
  obtain ⟨hc, hf, hrest⟩ := (storesWf_iff s).1 hst
  refine (inv_iff _).2 ⟨hp, (storesWf_iff _).2 ⟨tableWf_map _ hc, tableWf_map _ hf, hrest⟩, ?_, hq, rfl⟩
  simp [decoderWf_iff]

theorem inv_writeContainer {s : State} (h : s.inv = true) (hs : s.cfgOk = false) {c : Nat} (hc : c < s.params.nc)
    (d : ContainerDesc) : State.inv { s with cdt := tableWrite s.cdt c d } = true := by
  obtain ⟨hp, hst, hd, hq, _⟩ := (inv_iff s).1 h
  obtain ⟨hcdt, hrest⟩ := (storesWf_iff s).1 hst
  exact (inv_iff _).2 ⟨hp, (storesWf_iff _).2 ⟨tableWf_write d hcdt hc, hrest⟩, hd, hq, modelWf_of_uncommitted hs⟩

theorem inv_writeField {s : State} (h : s.inv = true) (hs : s.cfgOk = false) {f : Nat} (hf : f < s.params.nf)
    (d : FieldDesc) : State.inv { s with fdt := tableWrite s.fdt f d } = true := by
  obtain ⟨hp, hst, hd, hq, _⟩ := (inv_iff s).1 h
  obtain ⟨hcdt, hfdt, hrest⟩ := (storesWf_iff s).1 hst
  exact (inv_iff _).2 ⟨hp, (storesWf_iff _).2 ⟨hcdt, tableWf_write d hfdt hf, hrest⟩, hd, hq, modelWf_of_uncommitted hs⟩

theorem inv_writeXt {s : State} (h : s.inv = true) (hs : s.cfgOk = false) {k : Nat} (hk : k < s.params.xtSize)
    (v : HVal) : State.inv { s with xt := tableWrite s.xt k v } = true := by
  obtain ⟨hp, hst, hd, hq, _⟩ := (inv_iff s).1 h
  obtain ⟨hcdt, hfdt, hxt, hrest⟩ := (storesWf_iff s).1 hst
  exact (inv_iff _).2
    ⟨hp, (storesWf_iff _).2 ⟨hcdt, hfdt, tableWf_write v hxt hk, hrest⟩, hd, hq, modelWf_of_uncommitted hs⟩

/-- A commit locks in exactly what its checks passed. -/
theorem inv_commit {s : State} (h : s.inv = true) (hcheck : commitCheck s = none) :
    State.inv { s with cfgOk := true, cfgErr := 0 } = true := by
  obtain ⟨hp, hst, hd, hq, _⟩ := (inv_iff s).1 h
  obtain ⟨hact, hpos, hlen, _⟩ := (decoderWf_iff s).1 hd
  exact (inv_iff _).2
    ⟨hp, hst, (decoderWf_iff _).2 ⟨hact, hpos, hlen, fun _ => rfl⟩, hq, (modelWf_iff _).2 fun _ => hcheck⟩

/-! ### The decoder keeps it -/

theorem inv_writeDbuf {s : State} (h : s.inv = true) {a : Nat} {bytes : List Byte}
    (hfit : a + bytes.length ≤ s.params.dbufSize) : State.inv { s with dbuf := memoryWrite s.dbuf a bytes } = true := by
  obtain ⟨hp, hst, hd, hq, hm⟩ := (inv_iff s).1 h
  obtain ⟨hcdt, hfdt, hxt, hdbuf, hrest⟩ := (storesWf_iff s).1 hst
  exact (inv_iff _).2 ⟨hp, (storesWf_iff _).2 ⟨hcdt, hfdt, hxt, memoryWf_write hdbuf hfit, hrest⟩, hd, hq, hm⟩

/-- A cursor at most DEC_LEN, under a committed Device Model, is a good one. -/
theorem inv_setCursor {s : State} (h : s.inv = true) (hs : s.cfgOk = true) {len : BitVec 16} {pos : Nat}
    (hlen : len.toNat ≤ s.params.dbufSize) (hpos : pos ≤ len.toNat) :
    (setCursor { s with decLen := len } pos).inv = true := by
  obtain ⟨hp, hst, _, hq, hm⟩ := (inv_iff s).1 h
  have hnat : (BitVec.ofNat 16 pos).toNat = pos := by
    rw [BitVec.toNat_ofNat]
    exact Nat.mod_eq_of_lt (lt_of_le_of_lt hpos len.isLt)
  refine (inv_iff _).2 ⟨hp, hst, (decoderWf_iff _).2 ?_, hq, hm⟩
  simpa [hnat] using ⟨hpos, hlen, fun _ => hs⟩

/-- DNEXT never moves the cursor past DEC_LEN (42_decoder.md R209): a frame that would is cut to it. -/
theorem decodeStep_le {s : State} (h : s.decPos.toNat < s.decLen.toNat) : (decodeStep s).2 ≤ s.decLen.toNat := by
  simp only [decodeStep]
  split
  · exact h
  · split
    · exact le_rfl
    · simp only; omega

/-! ### The size of the queue after a QPUT and a QGET -/

theorem queueSize_enqueue {s : State} (hp : s.params.legal = true) (hr : s.rd.toNat < s.params.qcap)
    (hw : s.wr.toNat < s.params.qcap) (x : Sample) (hroom : queueSize s ≠ s.params.qcap - 1) :
    queueSize (enqueue s x) = queueSize s + 1 :=
  queueSize_advanceWr hp hr hw rfl rfl rfl hroom

theorem queueSize_evict {s : State} (hp : s.params.legal = true) (hr : s.rd.toNat < s.params.qcap)
    (hw : s.wr.toNat < s.params.qcap) (x : Sample) (ts : Word) : queueSize (evict (enqueue s x) ts) = queueSize s :=
  queueSize_advanceBoth hp hr hw rfl rfl rfl

theorem liveSlot_evict {s : State} (hp : s.params.legal = true) (hr : s.rd.toNat < s.params.qcap) (x : Sample) (ts : Word)
    (j : Nat) : liveSlot (evict (enqueue s x) ts) j = liveSlot s (j + 1) :=
  liveSlot_advanceRd (t := evict (enqueue s x) ts) hp hr rfl rfl j

theorem queueSize_qget {s : State} (hp : s.params.legal = true) (hr : s.rd.toNat < s.params.qcap)
    (hw : s.wr.toNat < s.params.qcap) (hne : queueEmpty s = false) :
    queueSize { s with rd := nextSlot s.params s.rd } = queueSize s - 1 :=
  queueSize_advanceRd hp hr hw rfl rfl rfl fun h0 => by simp [(queueEmpty_iff hr hw).2 h0] at hne

theorem liveSlot_qget {s : State} (hp : s.params.legal = true) (hr : s.rd.toNat < s.params.qcap) (j : Nat) :
    liveSlot { s with rd := nextSlot s.params s.rd } j = liveSlot s (j + 1) :=
  liveSlot_advanceRd (t := { s with rd := nextSlot s.params s.rd }) hp hr rfl rfl j

theorem queueSize_qreset (s : State) : queueSize { s with rd := 0, wr := 0 } = 0 := by simp [queueSize]

/-! ### The queue keeps it -/

/-- Up to and including WR, which is written, every slot from RD on was written by a QPUT. -/
theorem isSome_enqueue_slot {s : State} (hr : s.rd.toNat < s.params.qcap) (hw : s.wr.toNat < s.params.qcap)
    (hlive : ∀ j < queueSize s, (tableFind s.slots (liveSlot s j)).isSome = true) (x : Sample) {j : Nat}
    (hj : j ≤ queueSize s) : (tableFind (enqueue s x).slots (liveSlot s j)).isSome = true := by
  rw [enqueue_slots, tableFind_write]
  split
  · rfl
  · next hne =>
    refine hlive j (lt_of_le_of_ne hj ?_)
    rintro rfl
    exact hne (liveSlot_queueSize hr hw)

theorem storesWf_enqueue {s : State} (hp : s.params.legal = true) (hst : storesWf s = true)
    (hw : s.wr.toNat < s.params.qcap) (x : Sample) : storesWf (enqueue s x) = true := by
  obtain ⟨hcdt, hfdt, hxt, hdbuf, hslots, hwidth⟩ := (storesWf_iff s).1 hst
  refine (storesWf_iff _).2 ⟨hcdt, hfdt, hxt, hdbuf, tableWf_write _ hslots hw, tableWrite_all hwidth ?_⟩
  rw [decide_eq_true_eq, toNat_truncSample hp]
  exact Nat.mod_lt _ (Nat.two_pow_pos _)

theorem queueWf_enqueue {s : State} (hp : s.params.legal = true) (hq : queueWf s = true) (x : Sample)
    (hroom : queueSize s ≠ s.params.qcap - 1) : queueWf (enqueue s x) = true := by
  obtain ⟨hr, hw, hlive⟩ := (queueWf_iff s).1 hq
  refine (queueWf_iff _).2 ⟨hr, nextSlot_lt hp _, fun j hj => ?_⟩
  rw [queueSize_enqueue hp hr hw x hroom] at hj
  exact isSome_enqueue_slot hr hw hlive x (Nat.le_of_lt_succ hj)

theorem queueWf_evict {s : State} (hp : s.params.legal = true) (hq : queueWf s = true) (x : Sample) (ts : Word) :
    queueWf (evict (enqueue s x) ts) = true := by
  obtain ⟨hr, hw, hlive⟩ := (queueWf_iff s).1 hq
  refine (queueWf_iff _).2 ⟨nextSlot_lt hp _, nextSlot_lt hp _, fun j hj => ?_⟩
  rw [queueSize_evict hp hr hw] at hj
  rw [liveSlot_evict hp hr]
  exact isSome_enqueue_slot hr hw hlive x hj

theorem inv_qput {s : State} (h : s.inv = true) (x : Sample) (ts : Word) :
    State.inv (if (enqueue s x).wr = (enqueue s x).rd then evict (enqueue s x) ts else enqueue s x) = true := by
  obtain ⟨_, hr, hw⟩ := cursors_of_inv h
  obtain ⟨hp, hst, hd, hq, hm⟩ := (inv_iff s).1 h
  have hstores := storesWf_enqueue hp hst hw x
  split
  · exact (inv_iff _).2 ⟨hp, hstores, hd, queueWf_evict hp hq x ts, hm⟩
  · next hroom =>
    rw [enqueue_full_iff hp hr hw] at hroom
    exact (inv_iff _).2 ⟨hp, hstores, hd, queueWf_enqueue hp hq x hroom, hm⟩

theorem inv_qget {s : State} (h : s.inv = true) (hne : queueEmpty s = false) :
    State.inv { s with rd := nextSlot s.params s.rd } = true := by
  obtain ⟨hp, hst, hd, hq, hm⟩ := (inv_iff s).1 h
  obtain ⟨hr, hw, hlive⟩ := (queueWf_iff s).1 hq
  refine (inv_iff _).2 ⟨hp, hst, hd, (queueWf_iff _).2 ⟨nextSlot_lt hp _, hw, fun j hj => ?_⟩, hm⟩
  rw [queueSize_qget hp hr hw hne] at hj
  rw [liveSlot_qget hp hr]
  exact hlive (j + 1) (by omega)

theorem inv_qreset {s : State} (h : s.inv = true) : State.inv { s with rd := 0, wr := 0 } = true := by
  obtain ⟨hp, hst, hd, _, hm⟩ := (inv_iff s).1 h
  have hcap := legal_qcap hp
  have hpos : 0 < s.params.qcap := by omega
  refine (inv_iff _).2 ⟨hp, hst, hd, (queueWf_iff _).2 ⟨hpos, hpos, fun j hj => ?_⟩, hm⟩
  rw [queueSize_qreset] at hj
  exact absurd hj (Nat.not_lt_zero j)

/-! ### Every step keeps it -/

/-- Each rule's writes keep the invariant; of CSRW and QDISC it reads nothing they write. -/
theorem writes_inv {i : Instr} {s s' : State} (hw : Writes i s s') (h : s.inv = true) : s'.inv = true := by
  cases i with
  | csrw => obtain ⟨rfl, _⟩ := hw; exact h
  | cfgclr => obtain rfl := hw; exact inv_clearModel h
  | cfgc => obtain ⟨hs, hc, rfl⟩ := hw; exact inv_writeContainer h hs hc _
  | cfgf => obtain ⟨hs, hf, rfl⟩ := hw; exact inv_writeField h hs hf _
  | cfgx => obtain ⟨hs, hk, rfl⟩ := hw; exact inv_writeXt h hs hk _
  | cfgcommit => obtain ⟨_, hcheck, rfl⟩ := hw; exact inv_commit h hcheck
  | dbwr => obtain ⟨_, hfit, rfl⟩ := hw; exact inv_writeDbuf h hfit
  | dstart len =>
    obtain ⟨hs, hlen, rfl⟩ := hw
    refine inv_setCursor h hs ?_ (Nat.zero_le _)
    rw [BitVec.toNat_ofNat]
    exact (Nat.mod_le _ _).trans hlen
  | dnext =>
    obtain ⟨hs, ⟨_, rfl⟩ | ⟨hact, rfl⟩⟩ := hw
    · exact h
    · obtain ⟨_, _, hd, _, _⟩ := (inv_iff s).1 h
      obtain ⟨hcursor, _, hlen, _⟩ := (decoderWf_iff s).1 hd
      exact inv_setCursor h hs hlen (decodeStep_le (by simpa [hact] using hcursor))
  | qput x ts => obtain rfl := hw; exact inv_qput h x ts
  | qget =>
    obtain ⟨_, rfl⟩ | ⟨hne, rfl⟩ := hw
    · exact h
    · exact inv_qget h hne
  | qreset => obtain rfl := hw; exact inv_qreset h
  | _ => obtain rfl := hw; exact h

theorem step_of_no_event {s : State} (h : s.port = []) : step s = .next s := by simp [step, takeEvent, h]

theorem step_of_reset {s : State} {rest : List PortEvent} (h : s.port = .reset :: rest) :
    step s = .next (resetEvent { s with port := rest }) := by simp [step, takeEvent, h, runEvent]

theorem step_inv {s t : State} (h : s.inv = true) (hstep : step s = .next t) : t.inv = true := by
  match hport : s.port with
  | [] => cases (step_of_no_event hport).symm.trans hstep; exact h
  | .reset :: rest =>
    cases (step_of_reset hport).symm.trans hstep
    exact inv_afterReset ((inv_iff s).1 h).1 _ _ _
  | .command c :: rest =>
    rcases step_command_next hport hstep with ⟨f, w, _, _, rfl⟩ | ⟨i, s', fl, rs, _, hw, rfl⟩
    · exact h
    · rw [inv_respond]
      exact writes_inv hw h

end Sys2Proof.Machine

open Sys2Proof Sys2Proof.Machine

/-- Settles O16, by the port's events: a reset event gives a good state, a failed command writes nothing the invariant
reads, and the writes of each rule keep it. -/
theorem stepKeepsStateInvariant : Obligations.StepKeepsStateInvariant := fun _ _ => step_inv

end

section
/-! PROOFS. Descriptors as the words that configuration writes (10_state.md R31 to R35). -/

namespace Sys2Proof.Machine

/-! ### The codes of a descriptor's fields -/

@[simp] theorem containerTypeBit_of (b : Bool) : containerTypeBit (containerTypeOf b) = b := by cases b <;> rfl
@[simp] theorem containerTypeOf_bit (t : ContainerType) : containerTypeOf (containerTypeBit t) = t := by cases t <;> rfl
@[simp] theorem permissionBits_of : ∀ b : BitVec 2, permissionBits (permissionOf b) = b := by decide
@[simp] theorem permissionOf_bits (p : Permission) : permissionOf (permissionBits p) = p := by cases p <;> rfl
@[simp] theorem fieldKindBits_of : ∀ b : BitVec 2, fieldKindBits (fieldKindOf b) = b := by decide
@[simp] theorem fieldKindOf_bits (k : FieldKind) : fieldKindOf (fieldKindBits k) = k := by cases k <;> rfl
@[simp] theorem allowBits_of : ∀ b : BitVec 2, allowBits (allowOf b) = b := by decide
@[simp] theorem allowOf_bits (a : AllowKind) : allowOf (allowBits a) = a := by cases a <;> rfl
@[simp] theorem xformBits_of : ∀ b : BitVec 3, xformBits (xformOf b) = b := by decide

/-- A reserved XFORM code keeps the two bits that tell it from the other reserved ones. -/
theorem xformOf_reservedBits : ∀ low : BitVec 2, xformOf (xformBits (.reserved low)) = .reserved low := by decide

@[simp] theorem xformOf_bits (x : Xform) : xformOf (xformBits x) = x := by
  cases x with
  | reserved low => exact xformOf_reservedBits low
  | _ => rfl

/-! ### Words cut and put together -/

/-- A bit of a word is the slice of width 1. -/
theorem bit_getLsbD {n : Nat} (w : BitVec n) (k : Nat) : bit (w.getLsbD k) = w.extractLsb' k 1 := by
  apply BitVec.eq_of_getLsbD_eq
  intro i hi
  simp [bit, Nat.lt_one_iff.1 hi]

theorem bit_injective : Function.Injective bit := by decide

/-- Words put together from two pieces are equal only if both pieces are. -/
theorem bits_append_inj {n m : Nat} {a a' : BitVec n} {b b' : BitVec m} (h : a ++ b = a' ++ b') : a = a' ∧ b = b' := by
  have hhigh : (a ++ b).extractLsb' m n = (a' ++ b').extractLsb' m n := by rw [h]
  have hlow : (a ++ b).extractLsb' 0 m = (a' ++ b').extractLsb' 0 m := by rw [h]
  rw [BitVec.extractLsb'_append_eq_left, BitVec.extractLsb'_append_eq_left] at hhigh
  rw [BitVec.extractLsb'_append_eq_right, BitVec.extractLsb'_append_eq_right] at hlow
  exact ⟨hhigh, hlow⟩

/-! ### Container descriptors -/

theorem wordOfContainer_containerOfWord (w : Word) : wordOfContainer (containerOfWord w) = w := by
  simp (disch := decide) only [wordOfContainer, containerOfWord, containerTypeBit_of, permissionBits_of, bit_getLsbD,
    BitVec.extractLsb'_append_extractLsb'_eq_extractLsb']
  exact BitVec.extractLsb'_eq_self

/-- A container descriptor's word determines it. -/
theorem wordOfContainer_injective : Function.Injective wordOfContainer := by
  intro d e h
  obtain ⟨h, hvalid⟩ := bits_append_inj h
  obtain ⟨h, htype⟩ := bits_append_inj h
  obtain ⟨h, hperm⟩ := bits_append_inj h
  obtain ⟨h, hresv7to4⟩ := bits_append_inj h
  obtain ⟨h, hsize⟩ := bits_append_inj h
  obtain ⟨h, haddr⟩ := bits_append_inj h
  obtain ⟨hheader, hresv23⟩ := bits_append_inj h
  have htype' := Function.LeftInverse.injective containerTypeOf_bit (bit_injective htype)
  have hperm' := Function.LeftInverse.injective permissionOf_bits hperm
  cases d; cases e
  simp_all [bit_injective.eq_iff]

theorem containerOfWord_wordOfContainer (d : ContainerDesc) : containerOfWord (wordOfContainer d) = d :=
  wordOfContainer_injective (wordOfContainer_containerOfWord _)

/-! ### Field descriptors -/

theorem wordsOfField_fieldOfWords (ws : FieldWords) : wordsOfField (fieldOfWords ws) = ws := by
  have hw0 : (wordsOfField (fieldOfWords ws)).w0 = ws.w0 := by
    simp (disch := decide) only [wordsOfField, fieldOfWords, fieldKindBits_of, xformBits_of, allowBits_of, bit_getLsbD,
      BitVec.extractLsb'_append_extractLsb'_eq_extractLsb']
    exact BitVec.extractLsb'_eq_self
  calc wordsOfField (fieldOfWords ws) = { wordsOfField (fieldOfWords ws) with w0 := ws.w0 } := by rw [← hw0]
    _ = ws := by simp [wordsOfField, fieldOfWords]

/-- The two words of a 64-bit value determine it. -/
theorem value_ext {v v' : HVal} (hlo : loWord v = loWord v') (hhi : hiWord v = hiWord v') : v = v' := by
  rw [← valueOfWords_lo_hi v, hlo, hhi, valueOfWords_lo_hi]

/-- A field descriptor's words determine it. -/
theorem wordsOfField_injective : Function.Injective wordsOfField := by
  intro d e h
  simp only [wordsOfField, FieldWords.mk.injEq] at h
  obtain ⟨h, hxparam, hdefaultLo, hdefaultHi, haloLo, haloHi, hahiLo, hahiHi⟩ := h
  obtain ⟨h, hcont⟩ := bits_append_inj h
  obtain ⟨h, hoffset⟩ := bits_append_inj h
  obtain ⟨h, hwidth⟩ := bits_append_inj h
  obtain ⟨h, hkind⟩ := bits_append_inj h
  obtain ⟨h, hxform⟩ := bits_append_inj h
  obtain ⟨h, hallow⟩ := bits_append_inj h
  obtain ⟨h, hdefp⟩ := bits_append_inj h
  obtain ⟨hresv31, hvalid⟩ := bits_append_inj h
  have hkind' := Function.LeftInverse.injective fieldKindOf_bits hkind
  have hxform' := Function.LeftInverse.injective xformOf_bits hxform
  have hallow' := Function.LeftInverse.injective allowOf_bits hallow
  have hdefault := value_ext hdefaultLo hdefaultHi
  have halo := value_ext haloLo haloHi
  have hahi := value_ext hahiLo hahiHi
  cases d; cases e
  simp_all [bit_injective.eq_iff]

theorem fieldOfWords_wordsOfField (d : FieldDesc) : fieldOfWords (wordsOfField d) = d :=
  wordsOfField_injective (wordsOfField_fieldOfWords _)

end Sys2Proof.Machine

open Sys2Proof Sys2Proof.Machine

/-- Settles O8, from the slices of a word put together again and from the fields that a descriptor's words determine. -/
theorem descriptorsKeepEveryBit : Obligations.DescriptorsKeepEveryBit :=
  ⟨wordOfContainer_containerOfWord, containerOfWord_wordOfContainer, wordsOfField_fieldOfWords, fieldOfWords_wordsOfField⟩

end

section
/-! PROOFS. The reserved CSR numbers (10_state.md R29). -/

namespace Sys2Proof.Machine

open Sys2Proof.Cert

/-- A raise as its status word and INFO (60_exceptions.md R281). -/
theorem raise_eq_failWith (s : State) (f : Failure) : raise s f = failWith s (statusWord f.code f.sub 0 1) f.info := by
  rw [failWith, statusWord_status, statusWord_sub]
  rfl

theorem csrRead_reserved (s : State) {csr : Byte} (h : reservedCsr csr.toNat) : csrRead s csr = none := by
  simp only [reservedCsr] at h
  simp only [csrRead]
  split
  case h_14 => rfl
  all_goals omega

/-- BAD_CSR sub 1, naming the CSR. -/
theorem raise_badCsr (s : State) (csr : Byte) :
    raise s ⟨.badCsr, 1, csr.setWidth 32⟩ = failWith s 0x0010010B (BitVec.ofNat 32 csr.toNat) := by
  have hstatus : statusWord .badCsr 1 0 1 = 0x0010010B := by decide
  rw [raise_eq_failWith, hstatus, BitVec.ofNat_toNat]

end Sys2Proof.Machine

open Sys2Proof Sys2Proof.Machine

/-- Settles O29: a reserved number reads as no register, which is the first check of CSRR and of CSRW. -/
theorem reservedCsrFails : Obligations.ReservedCsrFails := by
  intro s csr v hres
  have hnone := csrRead_reserved s hres
  constructor
  · simp only [exec, execCsrr, hnone, raise_badCsr]
  · simp only [exec, execCsrw, hnone, Option.isNone_none, if_true, raise_badCsr]

end

section
/-! PROOFS. Which command writes which piece of state (10_state.md R39). -/

namespace Sys2Proof.Machine

/-- A change of a piece of state comes from a command, by its opcode byte, whose rule lists the piece. -/
structure OwnWriters (opc : Nat) (s t : State) : Prop where
  rd : t.rd ≠ s.rd → opc = 0x40 ∨ opc = 0x41 ∨ opc = 0x45
  wr : t.wr ≠ s.wr → opc = 0x40 ∨ opc = 0x45
  slots : t.slots ≠ s.slots → opc = 0x40
  disc : t.discCnt ≠ s.discCnt ∨ t.discTs ≠ s.discTs → opc = 0x40 ∨ opc = 0x46
  cursor : t.decPos ≠ s.decPos ∨ t.decActive ≠ s.decActive → opc = 0x10 ∨ opc = 0x32 ∨ opc = 0x33
  decLen : t.decLen ≠ s.decLen → opc = 0x10 ∨ opc = 0x32
  dbuf : t.dbuf ≠ s.dbuf → opc = 0x30
  cdt : t.cdt ≠ s.cdt → opc = 0x10 ∨ opc = 0x11
  fdt : t.fdt ≠ s.fdt → opc = 0x10 ∨ opc = 0x12
  xt : t.xt ≠ s.xt → opc = 0x13
  endian : t.endian ≠ s.endian → opc = 0x02
  commit : t.cfgOk ≠ s.cfgOk ∨ t.cfgErr ≠ s.cfgErr → opc = 0x10 ∨ opc = 0x14

theorem OwnWriters.refl (opc : Nat) (s : State) : OwnWriters opc s s := by constructor <;> simp

theorem writes_ownWriters {i : Instr} {s s' : State} (hw : Writes i s s') : OwnWriters i.opcode.code.toNat s s' := by
  cases i with
  | csrw => obtain ⟨rfl, _⟩ := hw; constructor <;> simp [Instr.opcode, Opcode.code]
  | dnext => obtain ⟨_, ⟨_, rfl⟩ | ⟨_, rfl⟩⟩ := hw <;> constructor <;> simp [Instr.opcode, Opcode.code]
  | qput => simp only [Writes] at hw; subst hw; split <;> constructor <;> simp [Instr.opcode, Opcode.code]
  | qget => obtain ⟨_, rfl⟩ | ⟨_, rfl⟩ := hw <;> constructor <;> simp [Instr.opcode, Opcode.code]
  | cfgclr | qreset | qdisc =>
    simp only [Writes] at hw; subst hw; constructor <;> simp [Instr.opcode, Opcode.code]
  | cfgc | cfgf | cfgx | cfgcommit | dbwr | dstart =>
    obtain ⟨_, _, rfl⟩ := hw; constructor <;> simp [Instr.opcode, Opcode.code]
  | _ => obtain rfl := hw; exact .refl _ _

/-- A failed command writes none of it but, under CFGCOMMIT, CFG_ERR; a successful one has its rule's writes. -/
theorem step_ownWriters {s t : State} {c : Command} {rest : List PortEvent} (hport : s.port = .command c :: rest)
    (hstep : step s = .next t) : OwnWriters (cwOpc c.cw).toNat s t ∧ t.params = s.params ∧ t.draw = s.draw := by
  rcases step_command_next hport hstep with ⟨f, w, _, hcommit, rfl⟩ | ⟨i, s', fl, rs, hi, hw, rfl⟩
  · have hopc : w ≠ s.cfgErr → (cwOpc c.cw).toNat = 0x14 := fun h => congrArg BitVec.toNat (hcommit h)
    exact ⟨{ OwnWriters.refl _ s with commit := fun h => .inr (hopc (h.resolve_left fun hok => hok rfl)) }, rfl, rfl⟩
  · obtain ⟨_, _, hparams, hdraw⟩ := writes_host hw
    rw [opcode_of_decode hi]
    exact ⟨{ writes_ownWriters hw with }, hparams, hdraw⟩

end Sys2Proof.Machine

open Sys2Proof Sys2Proof.Machine

/-- Settles O23, from the writers of each piece under the ends a command step can come to. -/
theorem eachStateHasItsOwnWriters : Obligations.EachStateHasItsOwnWriters := by
  intro s t c rest hport hstep opc
  obtain ⟨h, hparams, hdraw⟩ := step_ownWriters hport hstep
  exact ⟨h.rd, h.wr, h.slots, h.disc, h.cursor, h.decLen, h.dbuf, h.cdt, h.fdt, h.xt, h.endian, h.commit, hparams, hdraw⟩

end

section
/-! PROOFS. The slots outside the live range (10_state.md R38, R40): what every command does to the live samples, as a function of
them alone, and that nothing but QGET reads a slot. -/

namespace Sys2Proof.Machine

/-! ### The live samples after a command -/

theorem slotAt_enqueue (s : State) (x : Sample) (k : Nat) :
    slotAt (enqueue s x) k = if k = s.wr.toNat then truncSample s.params x else slotAt s k :=
  slotAt_write s s.wr.toNat k _

/-- From RD up to and including WR, which QPUT writes, stand the live samples and the new one. -/
theorem samples_through_wr {s : State} (hr : s.rd.toNat < s.params.qcap) (hw : s.wr.toNat < s.params.qcap) (x : Sample) :
    ((List.range (queueSize s + 1)).map fun j => slotAt (enqueue s x) (liveSlot s j))
      = liveSamples s ++ [truncSample s.params x] := by
  rw [List.range_succ, List.map_append, List.map_singleton, liveSlot_queueSize hr hw, slotAt_enqueue, if_pos rfl]
  congr 1
  refine List.map_congr_left fun j hj => ?_
  rw [slotAt_enqueue, if_neg (liveSlot_ne_wr hr hw (List.mem_range.1 hj))]

theorem liveSamples_enqueue {s : State} (hp : s.params.legal = true) (hr : s.rd.toNat < s.params.qcap)
    (hw : s.wr.toNat < s.params.qcap) (x : Sample) (hroom : queueSize s ≠ s.params.qcap - 1) :
    liveSamples (enqueue s x) = liveSamples s ++ [truncSample s.params x] := by
  rw [← samples_through_wr hr hw, ← queueSize_enqueue hp hr hw x hroom]
  rfl

theorem liveSamples_evict {s : State} (hp : s.params.legal = true) (hr : s.rd.toNat < s.params.qcap)
    (hw : s.wr.toNat < s.params.qcap) (x : Sample) (ts : Word) :
    liveSamples (evict (enqueue s x) ts) = (liveSamples s ++ [truncSample s.params x]).tail := by
  rw [← samples_through_wr hr hw, List.range_succ_eq_map, liveSamples, queueSize_evict hp hr hw]
  simp only [liveSlot_evict hp hr, List.map_cons, List.tail_cons, List.map_map]
  rfl

theorem liveSamples_qget {s : State} (hp : s.params.legal = true) (hr : s.rd.toNat < s.params.qcap)
    (hw : s.wr.toNat < s.params.qcap) (hne : queueEmpty s = false) :
    liveSamples { s with rd := nextSlot s.params s.rd } = (liveSamples s).tail := by
  rw [liveSamples, queueSize_qget hp hr hw hne, liveSamples]
  simp only [liveSlot_qget hp hr]
  cases queueSize s with
  | zero => rfl
  | succ n => rw [List.range_succ_eq_map, List.map_cons, List.tail_cons, List.map_map]; rfl

theorem liveSamples_of_empty {s : State} (hr : s.rd.toNat < s.params.qcap) (hw : s.wr.toNat < s.params.qcap)
    (he : queueEmpty s = true) : liveSamples s = [] := by
  rw [liveSamples, (queueEmpty_iff hr hw).1 he, List.range_zero, List.map_nil]

/-- The oldest live sample stands in SLOT[RD]. -/
theorem head?_liveSamples {s : State} (hr : s.rd.toNat < s.params.qcap) (hw : s.wr.toNat < s.params.qcap)
    (hne : queueEmpty s = false) : (liveSamples s).head? = some (slotAt s s.rd.toNat) := by
  obtain ⟨n, hn⟩ : ∃ n, queueSize s = n + 1 :=
    Nat.exists_eq_add_one_of_ne_zero fun h0 => by simp [(queueEmpty_iff hr hw).2 h0] at hne
  rw [liveSamples, hn, List.range_succ_eq_map, List.map_cons, List.head?_cons, liveSlot, Nat.add_zero, Nat.mod_eq_of_lt hr]

/-- The live samples depend on the cursors and the slots, and on what the slots held at reset. -/
theorem liveSamples_congr {s t : State} (hp : t.params = s.params) (hd : t.draw = s.draw) (hr : t.rd = s.rd)
    (hw : t.wr = s.wr) (hs : t.slots = s.slots) : liveSamples t = liveSamples s := by
  simp only [liveSamples, queueSize, liveSlot, slotAt, hp, hd, hr, hw, hs]

/-- A command that is no QPUT, QGET or QRESET leaves the live samples. -/
theorem OwnWriters.liveSamples {opc : Nat} {s t : State} (h : OwnWriters opc s t)
    (hopc : opc ≠ 0x40 ∧ opc ≠ 0x41 ∧ opc ≠ 0x45) (hp : t.params = s.params) (hd : t.draw = s.draw) :
    Machine.liveSamples t = Machine.liveSamples s := by
  obtain ⟨hput, hget, hreset⟩ := hopc
  refine liveSamples_congr hp hd ?_ ?_ ?_
  · exact not_imp_comm.1 h.rd (by simp [hput, hget, hreset])
  · exact not_imp_comm.1 h.wr (by simp [hput, hreset])
  · exact not_imp_comm.1 h.slots hput

/-- What a command makes of the live samples (43_queue.md R231, R232, R236). -/
def queueAfter (p : Params) (xs : List Sample) : Instr → List Sample
  | .qput x _ => if xs.length = p.qcap - 1 then (xs ++ [truncSample p x]).tail else xs ++ [truncSample p x]
  | .qget => xs.tail
  | .qreset => []
  | _ => xs

theorem queueAfter_qput (p : Params) (xs : List Sample) (x : Sample) (ts : Word) :
    queueAfter p xs (.qput x ts)
      = if xs.length = p.qcap - 1 then (xs ++ [truncSample p x]).tail else xs ++ [truncSample p x] := rfl

/-- The writes of every rule act on the live samples alone. -/
theorem writes_liveSamples {i : Instr} {s s' : State} (hwrites : Writes i s s') (h : s.inv = true) :
    liveSamples s' = queueAfter s.params (liveSamples s) i := by
  obtain ⟨hp, hr, hw⟩ := cursors_of_inv h
  cases i with
  | qput x ts =>
    obtain rfl := hwrites
    simp only [queueAfter_qput, length_liveSamples, ← enqueue_full_iff hp hr hw x]
    split
    · exact liveSamples_evict hp hr hw x ts
    · next hroom => exact liveSamples_enqueue hp hr hw x (mt (enqueue_full_iff hp hr hw x).2 hroom)
  | qget =>
    obtain ⟨he, rfl⟩ | ⟨hne, rfl⟩ := hwrites
    · rw [liveSamples_of_empty hr hw he]; rfl
    · exact liveSamples_qget hp hr hw hne
  | qreset =>
    obtain rfl := hwrites
    rw [liveSamples, queueSize_qreset]
    rfl
  | _ =>
    obtain ⟨_, _, hparams, hdraw⟩ := writes_host hwrites
    exact (writes_ownWriters hwrites).liveSamples (by simp [Instr.opcode, Opcode.code]) hparams hdraw

/-! ### What reads a slot -/

/-- The state with these slots in place of its own. -/
def withSlots (s : State) (sl : Table Sample) : State := { s with slots := sl }

/-- The outcome with these slots in its next state. -/
def outcomeWithSlots (sl : Table Sample) : Host.Outcome State Fault Refusal → Host.Outcome State Fault Refusal
  | .next t => .next (withSlots t sl)
  | .fault r => .fault r
  | .refused r => .refused r

theorem mergeFields_withSlots (s : State) (sl : Table Sample) (mode : MergeMode) (ovr : List Override) (fs : List Nat) :
    mergeFields (withSlots s sl) mode ovr fs = mergeFields s mode ovr fs := by
  induction fs with
  | nil => rfl
  | cons f fs ih =>
    have hbase : mergeBase (withSlots s sl) mode f = mergeBase s mode f := rfl
    have hpack (arg : FieldArg) : packField (withSlots s sl) f arg = packField s f arg := rfl
    have hfield : fieldAt (withSlots s sl) f = fieldAt s f := rfl
    simp only [mergeFields, ih, hbase, hpack, hfield]

theorem containerPack_withSlots (s : State) (sl : Table Sample) (c : Nat) (mode : MergeMode) (ovr : List Override) :
    containerPack (withSlots s sl) c mode ovr = containerPack s c mode ovr := by
  simp only [containerPack, mergeFields_withSlots]
  rfl

theorem finishPack_withSlots (s : State) (sl : Table Sample) (c : Nat) (mode : MergeMode) (ovr : List Override) :
    finishPack (withSlots s sl) c mode ovr = outcomeWithSlots sl (finishPack s c mode ovr) := by
  have hover : overrideFailure (withSlots s sl) c = overrideFailure s c := rfl
  simp only [finishPack, containerPack_withSlots, hover]
  split
  · rfl
  · split <;> rfl

/-- No command but QPUT and QGET reads the slots or writes them. -/
theorem exec_withSlots {i : Instr} (hput : i.opcode ≠ .qput) (hget : i.opcode ≠ .qget) (s : State) (sl : Table Sample) :
    exec i (withSlots s sl) = outcomeWithSlots sl (exec i s) := by
  cases i with
  | qput => contradiction
  | qget => contradiction
  | csrr csr =>
    have hread : csrRead (withSlots s sl) csr = csrRead s csr := rfl
    simp only [exec, execCsrr, hread]
    cases csrRead s csr <;> rfl
  | cfgcommit =>
    have hcheck : commitCheck (withSlots s sl) = commitCheck s := rfl
    simp only [exec, execCfgcommit, hcheck, apply_ite (outcomeWithSlots sl)]
    cases commitCheck s <;> rfl
  | fpack f arg =>
    have hpack : packField (withSlots s sl) f.toNat arg = packField s f.toNat arg := rfl
    simp only [exec, execFpack, hpack, apply_ite (outcomeWithSlots sl)]
    cases packField s f.toNat arg <;> rfl
  | csrw | cfgc | cfgf | cfgx | funpack | cunpack | cpacku | cpackr | dbwr | dbrd | dstart | dnext =>
    simp only [exec, execCsrw, execCfgc, execCfgf, execCfgx, execFunpack, execCunpack, execCpacku, execCpackr, execDbwr,
      execDbrd, execDstart, execDnext, finishPack_withSlots, apply_ite (outcomeWithSlots sl)]
    rfl
  | nop | cfgclr | qsize | qempty | qfull | qreset | qdisc => rfl

/-- Every command answers a next state. -/
theorem exec_next (i : Instr) (s : State) : ∃ t, exec i s = .next t := by
  have h := exec_ends i s
  generalize exec i s = o at h ⊢
  cases h <;> exact ⟨_, rfl⟩

theorem exec_qput_of_full {s : State} {x : Sample} (hfull : (enqueue s x).wr = (enqueue s x).rd) (ts : Word) :
    exec (.qput x ts) s = succeed (evict (enqueue s x) ts) 0 [] := by
  simp only [exec, execQput, if_pos hfull]

theorem exec_qput_of_room {s : State} {x : Sample} (hroom : (enqueue s x).wr ≠ (enqueue s x).rd) (ts : Word) :
    exec (.qput x ts) s = succeed (enqueue s x) 0 [] := by
  simp only [exec, execQput, if_neg hroom]

theorem exec_qget_of_empty {s : State} (he : queueEmpty s = true) :
    exec .qget s = succeed s (flagsField true false false) [] := by
  simp only [exec, execQget, he, if_true]

theorem exec_qget_of_nonempty {s : State} (hne : queueEmpty s = false) :
    exec .qget s = succeed { s with rd := nextSlot s.params s.rd } 0 (sampleResult s.params (slotAt s s.rd.toNat)) := by
  simp only [exec, execQget, hne, Bool.false_eq_true, if_false]

/-- A command acts on the live samples alone: QPUT, QGET and QRESET always succeed, and no failure touches the queue. -/
theorem exec_liveSamples {i : Instr} {s t : State} (h : s.inv = true) (he : exec i s = .next t) :
    liveSamples t = queueAfter s.params (liveSamples s) i := by
  cases i with
  | qput x ts =>
    cases he
    rw [liveSamples_respond]
    exact writes_liveSamples (i := .qput x ts) rfl h
  | qget =>
    cases hempty : queueEmpty s with
    | true =>
      cases (exec_qget_of_empty hempty).symm.trans he
      rw [liveSamples_respond]
      exact writes_liveSamples (i := .qget) (.inl ⟨hempty, rfl⟩) h
    | false =>
      cases (exec_qget_of_nonempty hempty).symm.trans he
      rw [liveSamples_respond]
      exact writes_liveSamples (i := .qget) (.inr ⟨hempty, rfl⟩) h
  | qreset =>
    cases he
    rw [liveSamples_respond]
    exact writes_liveSamples (i := .qreset) rfl h
  | _ =>
    rcases ends_next (exec_ends _ s) he with ⟨f, _, rfl⟩ | ⟨e, _, _, rfl⟩ | ⟨s', fl, rs, hw, rfl⟩
    · rfl
    · rfl
    · rw [liveSamples_respond]
      exact writes_liveSamples hw h

/-- QPUT writes the same sample to the same slot, whatever the slots hold. -/
theorem exec_qput_withSlots (x : Sample) (ts : Word) (s : State) (sl : Table Sample) :
    exec (.qput x ts) (withSlots s sl)
      = outcomeWithSlots (tableWrite sl s.wr.toNat (truncSample s.params x)) (exec (.qput x ts) s) := by
  by_cases hfull : (enqueue s x).wr = (enqueue s x).rd
  · rw [exec_qput_of_full hfull, exec_qput_of_full (s := withSlots s sl) hfull]
    rfl
  · rw [exec_qput_of_room hfull, exec_qput_of_room (s := withSlots s sl) hfull]
    rfl

/-- QGET reads SLOT[RD] of a queue that is not empty, which is the oldest live sample. -/
theorem exec_qget_withSlots {s : State} {sl : Table Sample} (hr : s.rd.toNat < s.params.qcap)
    (hw : s.wr.toNat < s.params.qcap) (hsame : liveSamples s = liveSamples (withSlots s sl)) :
    exec .qget (withSlots s sl) = outcomeWithSlots sl (exec .qget s) := by
  cases he : queueEmpty s with
  | true =>
    rw [exec_qget_of_empty he, exec_qget_of_empty (s := withSlots s sl) he]
    rfl
  | false =>
    have hslot : slotAt (withSlots s sl) (withSlots s sl).rd.toNat = slotAt s s.rd.toNat := by
      have hhead := head?_liveSamples (s := withSlots s sl) hr hw he
      rw [← hsame, head?_liveSamples hr hw he] at hhead
      exact (Option.some.inj hhead).symm
    rw [exec_qget_of_nonempty he, exec_qget_of_nonempty (s := withSlots s sl) he, hslot]
    rfl

/-- With the same live samples in other slots every command gives the same outcome, but for the slots. -/
theorem exec_of_same_liveSamples (i : Instr) {s : State} {sl : Table Sample} (h : s.inv = true)
    (hsame : liveSamples s = liveSamples (withSlots s sl)) :
    ∃ sl', exec i (withSlots s sl) = outcomeWithSlots sl' (exec i s) := by
  obtain ⟨_, hr, hw⟩ := cursors_of_inv h
  cases i with
  | qput x ts => exact ⟨_, exec_qput_withSlots x ts s sl⟩
  | qget => exact ⟨sl, exec_qget_withSlots hr hw hsame⟩
  | _ => exact ⟨sl, exec_withSlots (by simp [Instr.opcode]) (by simp [Instr.opcode]) s sl⟩

end Sys2Proof.Machine

open Sys2Proof Sys2Proof.Machine

/-- Settles O25: only the slots of the two outcomes differ, and each command acts on the live samples alone. -/
theorem staleSlotsAreUnobservable : Obligations.StaleSlotsAreUnobservable := by
  intro i s sl hs hs' hsame
  obtain ⟨t, ht⟩ := exec_next i s
  obtain ⟨sl', hu⟩ := exec_of_same_liveSamples i hs hsame
  rw [ht] at hu
  refine ⟨t, withSlots t sl', ht, hu, rfl, rfl, ?_⟩
  calc liveSamples t = queueAfter s.params (liveSamples s) i := exec_liveSamples hs ht
    _ = queueAfter s.params (liveSamples (withSlots s sl)) i := by rw [hsame]; rfl
    _ = liveSamples (withSlots t sl') := (exec_liveSamples hs' hu).symm

end

section
/-! PROOFS. The commands without a side effect (20_memory.md R68): they write nothing but the report to the host, and what they
answer does not depend on what was reported before. -/

namespace Sys2Proof.Machine

open Sys2Proof.Cert

/-! ### What a read-only command writes -/

theorem writes_of_readOnly {i : Instr} {s s' : State} (hro : isReadOnly i = true) (hw : Writes i s s') : s' = s := by
  cases i with
  | csrr | funpack | fpack | cunpack | cpacku | cpackr | dbrd | qsize | qempty | qfull => exact hw
  | _ => cases hro

/-- A read-only command raises a status, which a CSRR of STATUS never does, or returns its results and writes nothing. -/
theorem readOnly_next {i : Instr} {s t : State} (hro : isReadOnly i = true) (he : exec i s = .next t) :
    (∃ f, f.code ≠ .ok ∧ i ≠ .csrr 0x05 ∧ t = raiseState s f) ∨ ∃ fl rs, t = respond s (okResponse fl rs) := by
  by_cases hi : i = .csrr 0x05
  · subst hi
    cases he
    exact .inr ⟨_, _, rfl⟩
  · rcases ends_next (exec_ends i s) he with ⟨f, hf, rfl⟩ | ⟨_, rfl, _⟩ | ⟨s', fl, rs, hw, rfl⟩
    · exact .inl ⟨f, hf, hi, rfl⟩
    · cases hro
    · obtain rfl := writes_of_readOnly hro hw
      exact .inr ⟨fl, rs, rfl⟩

/-! ### What a read-only command reads -/

/-- The state with this report to the host in place of its own: the responses returned and the error registers. -/
def withReport (s : State) (rs : List Response) (err sub : Byte) : State :=
  { s with responses := rs, lastErr := err, lastSub := sub }

theorem respond_eq_withReport (s : State) (r : Response) :
    respond s r = withReport s (s.responses ++ [r]) s.lastErr s.lastSub := rfl

theorem raiseState_eq_withReport (s : State) (f : Failure) :
    raiseState s f = withReport s (s.responses ++ [failureResponse f]) (statusByte f.code) f.sub := rfl

/-- Two outcomes, from `s` and from `t`, that give the same answer and write nothing but the report. -/
inductive SameAnswer (s t : State) : Host.Outcome State Fault Refusal → Host.Outcome State Fault Refusal → Prop where
  | raised (f : Failure) : SameAnswer s t (raise s f) (raise t f)
  | succeeded (fl : BitVec 4) (rs : List Word) : SameAnswer s t (succeed s fl rs) (succeed t fl rs)

/-- A check that both sides make gives the same answer if both its branches do. -/
theorem SameAnswer.check {s t : State} {c : Prop} [Decidable c] {o o' p p' : Host.Outcome State Fault Refusal}
    (hpos : SameAnswer s t o p) (hneg : SameAnswer s t o' p') :
    SameAnswer s t (if c then o else o') (if c then p else p') := by
  split
  · exact hpos
  · exact hneg

theorem SameAnswer.response {s t s' : State} {o p : Host.Outcome State Fault Refusal} {r : Response}
    (h : SameAnswer s t o p) (ho : o = .next s') (hr : s'.responses = s.responses ++ [r]) :
    ∃ t', p = .next t' ∧ t'.responses = t.responses ++ [r] := by
  cases h with
  | raised f => cases ho; exact ⟨_, rfl, by simpa using hr⟩
  | succeeded fl rs => cases ho; exact ⟨_, rfl, by simpa using hr⟩

/-- No CSR but STATUS shows the report. -/
theorem csrRead_withReport {s : State} {csr err sub : Byte} (rs : List Response)
    (hstatus : csr = 0x05 → err = s.lastErr ∧ sub = s.lastSub) :
    csrRead (withReport s rs err sub) csr = csrRead s csr := by
  by_cases hcsr : csr = 0x05
  · obtain ⟨rfl, rfl⟩ := hstatus hcsr
    rfl
  · have hnum : csr.toNat ≠ 0x05 := fun h => hcsr (BitVec.eq_of_toNat_eq h)
    simp only [csrRead]
    split
    case h_6 => contradiction
    all_goals rfl

/-- A merge reads the state through the merge base, the packing and the descriptors of the fields. -/
theorem mergeFields_congr {s t : State} {mode : MergeMode} (hbase : mergeBase t mode = mergeBase s mode)
    (hpack : packField t = packField s) (hfield : fieldAt t = fieldAt s) (ovr : List Override) (fs : List Nat) :
    mergeFields t mode ovr fs = mergeFields s mode ovr fs := by
  induction fs with
  | nil => rfl
  | cons f fs ih => simp only [mergeFields, ih, hbase, hpack, hfield]

theorem containerPack_withReport (s : State) (rs : List Response) (err sub : Byte) (c : Nat) (mode : MergeMode)
    (ovr : List Override) : containerPack (withReport s rs err sub) c mode ovr = containerPack s c mode ovr := by
  simp only [containerPack, mergeFields_congr (s := s) (t := withReport s rs err sub) (mode := mode) rfl rfl rfl]
  rfl

theorem finishPack_sameAnswer (s : State) (rs : List Response) (err sub : Byte) (c : Nat) (mode : MergeMode)
    (ovr : List Override) :
    SameAnswer s (withReport s rs err sub) (finishPack s c mode ovr) (finishPack (withReport s rs err sub) c mode ovr) := by
  have hover : overrideFailure (withReport s rs err sub) c = overrideFailure s c := rfl
  simp only [finishPack, containerPack_withReport, hover]
  cases ovr.findSome? (overrideFailure s c) with
  | some f => exact .raised f
  | none =>
    cases containerPack s c mode ovr with
    | error f => exact .raised f
    | ok m => exact .succeeded 0 _

/-- A read-only command answers the same whatever was reported before, but for a CSRR of STATUS, which shows the error
registers. -/
theorem exec_sameAnswer {i : Instr} {s : State} {err sub : Byte} (rs : List Response) (hro : isReadOnly i = true)
    (hstatus : i = .csrr 0x05 → err = s.lastErr ∧ sub = s.lastSub) :
    SameAnswer s (withReport s rs err sub) (exec i s) (exec i (withReport s rs err sub)) := by
  cases i with
  | csrr csr =>
    simp only [exec, execCsrr, csrRead_withReport rs fun h => hstatus (congrArg Instr.csrr h)]
    cases csrRead s csr with
    | none => exact .raised _
    | some v => exact .succeeded 0 [v]
  | funpack f bytes => exact .check (.raised _) (.check (.raised _) (.check (.raised _) (.succeeded _ _)))
  | fpack f arg =>
    refine .check (.raised _) (.check (.raised _) (.check (.raised _) ?_))
    have hpack : packField (withReport s rs err sub) f.toNat arg = packField s f.toNat arg := rfl
    simp only [hpack]
    cases packField s f.toNat arg with
    | error e => exact .raised e
    | ok pk => exact .succeeded 0 _
  | cunpack c bytes => exact .check (.raised _) (.check (.raised _) (.check (.raised _) (.succeeded _ _)))
  | cpacku c bytes ovr =>
    exact .check (.raised _) (.check (.raised _) (.check (.raised _) (.check (.raised _)
      (finishPack_sameAnswer s rs err sub c.toNat _ ovr))))
  | cpackr c ovr =>
    exact .check (.raised _) (.check (.raised _) (.check (.raised _)
      (finishPack_sameAnswer s rs err sub c.toNat .replace ovr)))
  | dbrd a n => exact .check (.raised _) (.succeeded _ _)
  | qsize | qempty | qfull => exact .succeeded 0 _
  | _ => cases hro

end Sys2Proof.Machine

open Sys2Proof Sys2Proof.Machine Sys2Proof.Cert

/-- Settles O18: a read-only command writes the report alone, and answers the same after its own report. -/
theorem readOnlyCommandsHaveNoSideEffect : Obligations.ReadOnlyCommandsHaveNoSideEffect := by
  intro i s hro
  obtain ⟨t, ht⟩ := exec_next i s
  rcases readOnly_next hro ht with ⟨f, hf, hi, rfl⟩ | ⟨fl, rs, rfl⟩
  · refine ⟨_, failureResponse f, ht, rfl, fun hok => absurd hok (by simpa using hf), ?_⟩
    rw [raiseState_eq_withReport]
    exact (exec_sameAnswer _ hro fun h => absurd h hi).response ht rfl
  · refine ⟨_, okResponse fl rs, ht, rfl, fun _ => ⟨rfl, rfl⟩, ?_⟩
    rw [respond_eq_withReport]
    exact (exec_sameAnswer _ hro fun _ => ⟨rfl, rfl⟩).response ht rfl

end

section
/-! PROOFS. The statements of 30_encoding.md: the decoder by its three checks, what the encoder and the decoder give each other,
the opcode table's masks, and the response that every command gets. -/

namespace Sys2Proof

/-! ### The decoder, one equation per end (44_control.md R263) -/

theorem decode_illegalOpcode {p : Params} {c : Command} (h : opcodeOf (cwOpc c.cw) = none) :
    decode p c = .error .illegalOpcode := by
  simp [decode, h]

section
variable {p : Params} {c : Command} {op : Opcode} (hop : opcodeOf (cwOpc c.cw) = some op)
include hop

theorem decode_reservedField (hres : reservedZero op c.cw = false) : decode p c = .error .reservedField := by
  simp [decode, hop, hres]

theorem decode_badLength (hres : reservedZero op c.cw = true) (hlen : c.ops.length ≠ operandCount p op c.cw) :
    decode p c = .error .badLength := by
  simp [decode, hop, hres, hlen]

theorem decode_eq_assemble (hres : reservedZero op c.cw = true) (hlen : c.ops.length = operandCount p op c.cw) :
    decode p c = .ok (assemble p op c.cw c.ops) := by
  simp [decode, hop, hres, hlen]

end

/-! ### The opcode map -/

theorem mem_opcodeMap (op : Opcode) : op ∈ opcodeMap := by cases op <;> decide

theorem opcodeOf_eq_some_iff {b : Byte} {op : Opcode} : opcodeOf b = some op ↔ b = op.code :=
  ⟨fun h => (code_of_opcodeOf h).symm, fun h => h ▸ opcodeOf_code op⟩

theorem opcodeOf_eq_none {b : Byte} (h : ∀ op : Opcode, b ≠ op.code) : opcodeOf b = none :=
  Option.eq_none_iff_forall_ne_some.2 fun op hop => h op (opcodeOf_eq_some_iff.1 hop)

/-! ### Decoding what was encoded -/

/-- Every well-formed instruction's encoding passes the three checks. -/
theorem encode_passesChecks (i : Instr) : Laws.PassesChecks.Statement i := by
  cases i with
  | nop => exact Laws.PassesChecks.nop
  | csrr csr => exact Laws.PassesChecks.csrr csr
  | csrw csr v => exact Laws.PassesChecks.csrw csr v
  | cfgclr => exact Laws.PassesChecks.cfgclr
  | cfgc c word => exact Laws.PassesChecks.cfgc c word
  | cfgf f ws => exact Laws.PassesChecks.cfgf f ws
  | cfgx idx value => exact Laws.PassesChecks.cfgx idx value
  | cfgcommit => exact Laws.PassesChecks.cfgcommit
  | funpack f bytes => exact Laws.PassesChecks.funpack f bytes
  | fpack f arg => exact Laws.PassesChecks.fpack f arg
  | cunpack c bytes => exact Laws.PassesChecks.cunpack c bytes
  | cpacku c bytes ovr => exact Laws.PassesChecks.cpacku c bytes ovr
  | cpackr c ovr => exact Laws.PassesChecks.cpackr c ovr
  | dbwr a bytes => exact Laws.PassesChecks.dbwr a bytes
  | dbrd a n => exact Laws.PassesChecks.dbrd a n
  | dstart len => exact Laws.PassesChecks.dstart len
  | dnext => exact Laws.PassesChecks.dnext
  | qput sample ts => exact Laws.PassesChecks.qput sample ts
  | qget => exact Laws.PassesChecks.qget
  | qsize => exact Laws.PassesChecks.qsize
  | qempty => exact Laws.PassesChecks.qempty
  | qfull => exact Laws.PassesChecks.qfull
  | qreset => exact Laws.PassesChecks.qreset
  | qdisc => exact Laws.PassesChecks.qdisc

/-- The words of a sample that SW words hold give it back. -/
theorem natOfWords_sample {p : Params} {sample : Sample} (h : sampleFits p sample = true) :
    natOfWords (wordsOfNat (sampleWords p) sample.toNat) = sample.toNat := by
  rw [natOfWords_wordsOfNat]
  exact Nat.mod_eq_of_lt (of_decide_eq_true h)

/-- The operands of a well-formed instruction are assembled from the words that carry them. -/
theorem assemble_encode {p : Params} {i : Instr} (h : i.wf p = true) :
    assemble p i.opcode (encodeCw i) (encodeOps p i) = i := by
  cases i with
  | cfgx idx value => simp [assemble, encodeCw, encodeOps, Instr.opcode, cfgx_index]
  | fpack f arg =>
    cases arg <;> simp [assemble, encodeCw, encodeOps, Instr.opcode, cwUseDefault, FieldArg.ud, FieldArg.words]
  | funpack _ bytes | cunpack _ bytes | dbwr _ bytes =>
    simp only [Instr.wf, bytesFit, decide_eq_true_eq] at h
    simp [assemble, encodeCw, encodeOps, Instr.opcode, toNat_count h, bytesOfWords_wordsOfBytes']
  | cpacku c bytes ovr =>
    simp only [Instr.wf, bytesFit, overridesFit, Bool.and_eq_true, decide_eq_true_eq] at h
    obtain ⟨hbytes, _⟩ := h
    have hdrop : (wordsOfBytes bytes ++ ovr.flatMap Override.words).drop (wordCount bytes.length)
        = ovr.flatMap Override.words := List.drop_left' (length_wordsOfBytes bytes)
    simp only [assemble, encodeCw, encodeOps, Instr.opcode, cwA_mkCw, cwB_mkCw, toNat_count hbytes,
      bytesOfWords_wordsOfBytes, hdrop, overridesOfWords_flatMap]
  | cpackr c ovr => simp [assemble, encodeCw, encodeOps, Instr.opcode, overridesOfWords_flatMap]
  | qput sample ts =>
    have htake : (wordsOfNat (sampleWords p) sample.toNat ++ [ts]).take (sampleWords p)
        = wordsOfNat (sampleWords p) sample.toNat := List.take_left' (length_wordsOfNat _ _)
    simp [assemble, encodeOps, Instr.opcode, htake, natOfWords_sample h]
  | _ => simp [assemble, encodeCw, encodeOps, Instr.opcode]

theorem decode_encode {p : Params} {i : Instr} (h : i.wf p = true) : decode p (encode p i) = .ok i := by
  obtain ⟨hop, hres, hlen⟩ := encode_passesChecks i p h
  rw [decode_eq_assemble hop hres hlen]
  exact congrArg Except.ok (assemble_encode h)

/-! ### What the decoder reads is well-formed -/

/-- Each override entry takes three words. -/
theorem length_overridesOfWords : ∀ ws : List Word, (overridesOfWords ws).length = ws.length / 3
  | [] | [_] | [_, _] => by simp [overridesOfWords]
  | o0 :: o1 :: o2 :: rest => by
    simp only [overridesOfWords, List.length_cons, length_overridesOfWords rest]
    omega

theorem natOfWords_lt (ws : List Word) : natOfWords ws < 2 ^ (32 * ws.length) := by
  induction ws with
  | nil => simp [natOfWords]
  | cons w ws ih =>
    have hw := w.isLt
    have hpow : 2 ^ (32 * (ws.length + 1)) = 2 ^ 32 * 2 ^ (32 * ws.length) := by rw [← Nat.pow_add]; congr 1; omega
    rw [natOfWords, List.length_cons, hpow]
    omega

theorem bytesFit_bytesOfWords (ws : List Word) (n : Byte) : bytesFit (bytesOfWords ws n.toNat) = true := by
  have := n.isLt
  simp only [bytesFit, length_bytesOfWords, decide_eq_true_eq]
  omega

theorem overridesFit_overridesOfWords {ws : List Word} {n : Byte} (h : ws.length = 3 * n.toNat) :
    overridesFit (overridesOfWords ws) = true := by
  have := n.isLt
  simp only [overridesFit, length_overridesOfWords, h, decide_eq_true_eq]
  omega

theorem sampleFits_natOfWords {p : Params} {ws : List Word} (h : ws.length = sampleWords p) :
    sampleFits p (BitVec.ofNat 256 (natOfWords ws)) = true := by
  refine decide_eq_true ?_
  calc (BitVec.ofNat 256 (natOfWords ws)).toNat ≤ natOfWords ws := by rw [BitVec.toNat_ofNat]; exact Nat.mod_le _ _
    _ < 2 ^ (32 * ws.length) := natOfWords_lt ws
    _ = 2 ^ (32 * ((p.sampleW + 31) / 32)) := by rw [h, sampleWords]

theorem assemble_wf {p : Params} {op : Opcode} {cw : Word} {ops : List Word} (h : ops.length = operandCount p op cw) :
    (assemble p op cw ops).wf p = true := by
  cases op with
  | funpack | cunpack | dbwr => exact bytesFit_bytesOfWords _ (cwB cw)
  | cpacku =>
    have hdrop : (ops.drop (wordCount (cwB cw).toNat)).length = 3 * (cwC cw).toNat := by
      rw [List.length_drop, h, operandCount, Nat.add_sub_cancel_left]
    simp only [assemble, Instr.wf, bytesFit_bytesOfWords, overridesFit_overridesOfWords hdrop, Bool.and_self]
  | cpackr => exact overridesFit_overridesOfWords h
  | qput =>
    have htake : (ops.take (sampleWords p)).length = sampleWords p := by
      rw [List.length_take, h, operandCount]
      omega
    exact sampleFits_natOfWords htake
  | _ => rfl

/-! ### The opcode table's masks (spec/opcode_table.json) -/

/-- Two command words are equal if their four fields are. -/
theorem cw_ext_iff {v w : Word} : v = w ↔ cwOpc v = cwOpc w ∧ cwA v = cwA w ∧ cwB v = cwB w ∧ cwC v = cwC w := by
  refine ⟨fun h => h ▸ ⟨rfl, rfl, rfl, rfl⟩, fun ⟨hopc, ha, hb, hc⟩ => ?_⟩
  rw [← mkCw_fields v, hopc, ha, hb, hc, mkCw_fields]

@[simp] theorem cwOpc_and (v w : Word) : cwOpc (v &&& w) = cwOpc v &&& cwOpc w := BitVec.extractLsb'_and
@[simp] theorem cwA_and (v w : Word) : cwA (v &&& w) = cwA v &&& cwA w := BitVec.extractLsb'_and
@[simp] theorem cwB_and (v w : Word) : cwB (v &&& w) = cwB v &&& cwB w := BitVec.extractLsb'_and
@[simp] theorem cwC_and (v w : Word) : cwC (v &&& w) = cwC v &&& cwC w := BitVec.extractLsb'_and

/-- A mask of ones tests the whole field. -/
theorem byte_and_ones (b : Byte) : b &&& 0xFF#8 = b := BitVec.and_allOnes

/-- FPACK's mask 0xFE of B tests B[7:1]. -/
theorem byte_and_fe : ∀ b : Byte, b &&& 0xFE#8 = 0#8 ↔ b.extractLsb' 1 7 = 0#7 := by decide

open Sys2Proof.Cert

theorem tableMask_opc (op : Opcode) : cwOpc (tableMask op) = 0xFF#8 := by cases op <;> rfl

theorem tableMatch_fields (op : Opcode) : tableMatch op = mkCw op.code 0 0 0 := by cases op <;> rfl

/-- A row's mask covers the reserved fields of its opcode and no other bit of A, B and C. -/
theorem reservedZero_iff (op : Opcode) (cw : Word) :
    reservedZero op cw = true
      ↔ cwA cw &&& cwA (tableMask op) = 0 ∧ cwB cw &&& cwB (tableMask op) = 0 ∧ cwC cw &&& cwC (tableMask op) = 0 := by
  cases op with
  | csrr | csrw | cfgc | cfgf =>
    change (cwB cw == 0 && cwC cw == 0) = true ↔ cwA cw &&& 0 = 0 ∧ cwB cw &&& 0xFF#8 = 0 ∧ cwC cw &&& 0xFF#8 = 0
    simp [byte_and_ones]
  | cfgx | funpack | cunpack =>
    change (cwC cw == 0) = true ↔ cwA cw &&& 0 = 0 ∧ cwB cw &&& 0 = 0 ∧ cwC cw &&& 0xFF#8 = 0
    simp [byte_and_ones]
  | fpack =>
    change ((cwB cw).extractLsb' 1 7 == 0 && cwC cw == 0) = true
      ↔ cwA cw &&& 0 = 0 ∧ cwB cw &&& 0xFE#8 = 0 ∧ cwC cw &&& 0xFF#8 = 0
    simp [byte_and_ones, byte_and_fe]
  | cpacku =>
    change true = true ↔ cwA cw &&& 0 = 0 ∧ cwB cw &&& 0 = 0 ∧ cwC cw &&& 0 = 0
    simp
  | cpackr =>
    change (cwB cw == 0) = true ↔ cwA cw &&& 0 = 0 ∧ cwB cw &&& 0xFF#8 = 0 ∧ cwC cw &&& 0 = 0
    simp [byte_and_ones]
  | dbwr | dbrd =>
    change (cwA cw == 0 && cwC cw == 0) = true ↔ cwA cw &&& 0xFF#8 = 0 ∧ cwB cw &&& 0 = 0 ∧ cwC cw &&& 0xFF#8 = 0
    simp [byte_and_ones]
  | _ =>
    change (cwA cw == 0 && cwB cw == 0 && cwC cw == 0) = true
      ↔ cwA cw &&& 0xFF#8 = 0 ∧ cwB cw &&& 0xFF#8 = 0 ∧ cwC cw &&& 0xFF#8 = 0
    simp [byte_and_ones, and_assoc]

theorem match_iff (op : Opcode) (cw : Word) :
    cw &&& tableMask op = tableMatch op ↔ opcodeOf (cwOpc cw) = some op ∧ reservedZero op cw = true := by
  rw [cw_ext_iff, tableMatch_fields, opcodeOf_eq_some_iff, reservedZero_iff]
  simp only [cwOpc_and, cwA_and, cwB_and, cwC_and, cwOpc_mkCw, cwA_mkCw, cwB_mkCw, cwC_mkCw, tableMask_opc, byte_and_ones]

/-- NOPS as the table of R88 writes it. -/
theorem operandCount_eq_tableNops (p : Params) (op : Opcode) (cw : Word) :
    operandCount p op cw = tableNops p op (cwB cw).toNat (cwC cw).toNat := by
  cases op with
  | fpack =>
    have hud : cwUseDefault cw = true ↔ (cwB cw).toNat % 2 = 1 := by
      simp [cwUseDefault, BitVec.getLsbD, Nat.testBit_zero]
    simp only [operandCount, tableNops, hud]
  | _ => rfl

theorem not_unlistedOpcode_code (op : Opcode) : ¬ unlistedOpcode op.code.toNat := by
  cases op <;> simp [unlistedOpcode, Opcode.code]

end Sys2Proof

namespace Sys2Proof.Machine

open Sys2Proof.Cert

/-! ### A command that the generic checks refuse -/

/-- The status word of each refusal: one result, no flags (60_exceptions.md R281, R282). -/
def refusalStatus : DecodeError → Word
  | .illegalOpcode => 0x00100101
  | .reservedField => 0x00100201
  | .badLength => 0x00100102

theorem raise_decodeFailure (s : State) (c : Command) (e : DecodeError) :
    raise s (decodeFailure c e) = failWith s (refusalStatus e) (decodeFailure c e).info := by
  have hstatus : statusWord (decodeFailure c e).code (decodeFailure c e).sub 0 1 = refusalStatus e := by
    cases e with
    | illegalOpcode => exact (by decide : statusWord .illegalOpcode 1 0 1 = 0x00100101)
    | reservedField => exact (by decide : statusWord .illegalOpcode 2 0 1 = 0x00100201)
    | badLength => exact (by decide : statusWord .badLength 1 0 1 = 0x00100102)
  rw [raise_eq_failWith, hstatus]

theorem step_refused {s : State} {c : Command} {rest : List PortEvent} {e : DecodeError} (hport : s.port = .command c :: rest)
    (he : decode s.params c = .error e) :
    step s = failWith { s with port := rest } (refusalStatus e) (decodeFailure c e).info := by
  rw [← raise_decodeFailure]
  rcases step_command hport with ⟨e', he', hstep⟩ | ⟨i, hi, _⟩
  · cases he.symm.trans he'
    exact hstep
  · cases he.symm.trans hi

/-! ### The shape of a response (30_encoding.md R82, R83) -/

/-- NRES counts the results, bit 19 is 0, a success has sub-code 0, and a failure has one result, no flags and a code of R280. -/
structure WellShaped (r : Response) : Prop where
  nres : (r.status.extractLsb' 20 12).toNat = r.results.length
  bit19 : r.status.getLsbD 19 = false
  ok : statusOf r = 0 → subOf r = 0
  failed : statusOf r ≠ 0 → r.results.length = 1 ∧ r.status.extractLsb' 16 4 = 0 ∧ (statusOf r).toNat ≤ 0x0B

theorem failureResponse_wellShaped {f : Failure} (hf : f.code ≠ .ok) : WellShaped (failureResponse f) where
  nres := by simp [failureResponse]
  bit19 := statusWord_bit19 _ _ _ _
  ok h := absurd h (by simpa using hf)
  failed _ := ⟨rfl, statusWord_flags _ _ _ _, by simpa using statusByte_le f.code⟩

theorem okResponse_wellShaped {fl : BitVec 4} {rs : List Word} (hfl : fl.getLsbD 3 = false) (hrs : rs.length < 4096) :
    WellShaped (okResponse fl rs) where
  nres := by simpa [okResponse] using hrs
  bit19 := (statusWord_bit19 _ _ _ _).trans hfl
  ok _ := statusWord_sub _ _ _ _
  failed h := absurd (statusOf_okResponse fl rs) h

/-- An outcome that answers `s` with one response of the stated shape and leaves its port. -/
def Answers (s : State) (o : Host.Outcome State Fault Refusal) : Prop :=
  ∃ t r, o = .next t ∧ t.port = s.port ∧ t.responses = s.responses ++ [r] ∧ WellShaped r

theorem raise_answers (s : State) {f : Failure} (hf : f.code ≠ .ok) : Answers s (raise s f) :=
  ⟨_, _, rfl, rfl, rfl, failureResponse_wellShaped hf⟩

/-- With legal parameters every result list fits NRES. -/
theorem ends_answers {i : Instr} {s : State} {o : Host.Outcome State Fault Refusal} (hp : s.params.legal = true)
    (h : Ends i s o) : Answers s o := by
  cases h with
  | raised f hf => exact raise_answers s hf
  | commitFailed e => exact raise_answers { s with cfgErr := commitWord e } (by simp)
  | succeeded s' fl rs hw hfl hrs =>
    obtain ⟨hport, hresp, _, _⟩ := writes_host hw
    exact ⟨_, okResponse fl rs, rfl, hport, by rw [respond_responses, hresp], okResponse_wellShaped hfl (hrs hp)⟩

theorem step_answers {s : State} {c : Command} {rest : List PortEvent} (hp : s.params.legal = true)
    (hport : s.port = .command c :: rest) : Answers { s with port := rest } (step s) := by
  rcases step_command hport with ⟨e, _, hstep⟩ | ⟨i, _, hstep⟩
  · exact hstep ▸ raise_answers _ (decodeFailure_code c e)
  · exact hstep ▸ ends_answers hp (exec_ends i _)

end Sys2Proof.Machine

open Sys2Proof Sys2Proof.Machine Sys2Proof.Cert

/-- Settles O1: the encoding passes the decoder's checks, and the operands are assembled from the words that carry them. -/
theorem decodeOfEncodeIsIdentity : Obligations.DecodeOfEncodeIsIdentity := fun _ _ h => decode_encode h

/-- Settles O2: the operand count bounds what is assembled. -/
theorem decodedInstructionIsWellFormed : Obligations.DecodedInstructionIsWellFormed := by
  intro p c i h
  obtain ⟨op, _, _, hlen, rfl⟩ := decode_ok h
  exact assemble_wf hlen

/-- Settles O3, field by field of the command word. -/
theorem reservedFieldsAreTheTableMask : Obligations.ReservedFieldsAreTheTableMask := fun op cw => (match_iff op cw).symm

/-- Settles O7: a match of the row passes the first two checks, so that the operand count decides. -/
theorem operandCountDecidesLength : Obligations.OperandCountDecidesLength := by
  intro s c rest op hport hmatch
  obtain ⟨hop, hres⟩ := (match_iff op c.cw).1 hmatch
  rw [← operandCount_eq_tableNops]
  exact ⟨fun hlen => step_refused hport (decode_badLength hop hres hlen),
    fun hlen => ⟨_, decode_eq_assemble hop hres hlen, assemble_opcode _ _ _ _⟩⟩

/-- Settles O14, by the ends a command step can come to. -/
theorem everyCommandGetsOneResponse : Obligations.EveryCommandGetsOneResponse := by
  intro s c rest hp hport
  obtain ⟨t, r, hstep, hrest, hresp, hr⟩ := step_answers hp hport
  exact ⟨t, r, hstep, hrest, hresp, hr.nres, hr.bit19, hr.ok, hr.failed⟩

/-- Settles O4, by running the decoder on each command. -/
theorem writtenOutWordsDecode : Obligations.WrittenOutWordsDecode := by
  unfold Obligations.WrittenOutWordsDecode
  decide

/-- Settles O5: no opcode of the map has an unlisted code, and the opcode is the first check. -/
theorem unlistedOpcodeFails : Obligations.UnlistedOpcodeFails := by
  intro s c rest hport hunlisted
  have hnone : opcodeOf (cwOpc c.cw) = none :=
    opcodeOf_eq_none fun op hop => not_unlistedOpcode_code op (hop ▸ hunlisted)
  exact step_refused hport (decode_illegalOpcode hnone)

/-- Settles O6: a listed opcode that does not match its row fails the second check, before the operand count. -/
theorem nonzeroReservedFieldFails : Obligations.NonzeroReservedFieldFails := by
  intro s c rest op hport hopc hmismatch
  have hop := opcodeOf_eq_some_iff.2 hopc
  have hres : reservedZero op c.cw = false :=
    Bool.eq_false_iff.2 fun hzero => hmismatch ((match_iff op c.cw).2 ⟨hop, hzero⟩)
  exact step_refused hport (decode_reservedField hop hres)

end

section
/-! PROOFS. The layer under the statements of 40_codec.md: the two ends of a command as status words, the terms of the statements
as what the model computes, and what a committed Device Model gives of its fields. -/

namespace Sys2Proof.Machine

open Sys2Proof.Cert

/-! ### The ends of a command as status words (30_encoding.md R83, 60_exceptions.md R281) -/

/-- A status that names the index `k`, which one operand byte holds. -/
theorem raise_naming {code : StatusCode} {sub : Byte} {w : Word} (hw : statusWord code sub 0 1 = w) (s : State) (k : Byte) :
    raise s ⟨code, sub, k.setWidth 32⟩ = failWith s w (BitVec.ofNat 32 k.toNat) := by
  rw [raise_eq_failWith, hw, BitVec.ofNat_toNat]

theorem raise_unknownField (s : State) (f : Byte) :
    raise s ⟨.unknownField, 1, f.setWidth 32⟩ = failWith s 0x00100106 (BitVec.ofNat 32 f.toNat) := raise_naming (by decide) s f

theorem raise_unknownContainer (s : State) (c : Byte) :
    raise s ⟨.unknownContainer, 1, c.setWidth 32⟩ = failWith s 0x00100107 (BitVec.ofNat 32 c.toNat) :=
  raise_naming (by decide) s c

theorem raise_byteCount (s : State) (k : Byte) :
    raise s ⟨.badLength, 2, k.setWidth 32⟩ = failWith s 0x00100202 (BitVec.ofNat 32 k.toNat) := raise_naming (by decide) s k

/-- A status that names the index `k` as `Pack` and the merge find it. -/
theorem raise_indexWord {code : StatusCode} {sub : Byte} {w : Word} (hw : statusWord code sub 0 1 = w) (s : State) (k : Nat) :
    raise s ⟨code, sub, indexWord k⟩ = failWith s w (BitVec.ofNat 32 k) := by
  rw [raise_eq_failWith, hw, indexWord]

theorem statusWord_invalidValue {sub : Nat} (h : sub < 2 ^ 8) :
    statusWord .invalidValue (BitVec.ofNat 8 sub) 0 1 = BitVec.ofNat 32 (0x00100008 + sub * 2 ^ 8) := by
  have hcode : (statusByte .invalidValue).toNat = 8 := rfl
  apply BitVec.eq_of_toNat_eq
  rw [statusWord_toNat, hcode, toNat_zero_bits, BitVec.toNat_ofNat, BitVec.toNat_ofNat]
  omega

/-- NRES keeps twelve bits of the count on both sides. -/
theorem statusWord_ok (n : Nat) : statusWord .ok 0 0 n = okStatus n := by
  have hcode : (statusByte .ok).toNat = 0 := rfl
  apply BitVec.eq_of_toNat_eq
  rw [statusWord_toNat, hcode, toNat_zero_bits, toNat_zero_bits, okStatus, BitVec.toNat_ofNat]
  omega

theorem succeed_eq_okWith (s : State) (rs : List Word) : succeed s 0 rs = okWith s (okStatus rs.length) rs := by
  rw [okWith, ← statusWord_ok]
  rfl

theorem statusWord_unpacked (unmapped ext : Bool) :
    statusWord .ok 0 (flagsField false unmapped ext) 2
      = BitVec.ofNat 32 (0x00200000 + 0x00020000 * asNat unmapped + 0x00040000 * asNat ext) := by
  cases unmapped <;> cases ext <;> decide

/-! ### Outcomes that return an OK response -/

/-- The outcome answers `s` with the response `r`, whose status is OK. -/
def AnswersOk (s : State) (o : Host.Outcome State Fault Refusal) (r : Response) : Prop :=
  ∃ t, o = .next t ∧ t.responses = s.responses ++ [r] ∧ statusOf r = 0

theorem not_answersOk_raise {s : State} {f : Failure} {r : Response} (hf : f.code ≠ .ok) : ¬ AnswersOk s (raise s f) r := by
  rintro ⟨_, ⟨⟩, hr, hok⟩
  have hr' : failureResponse f = r := by simpa using hr
  subst hr'
  exact absurd hok (by simpa using hf)

theorem answersOk_succeed {s : State} {fl : BitVec 4} {rs : List Word} {r : Response}
    (h : AnswersOk s (succeed s fl rs) r) : r = okResponse fl rs := by
  obtain ⟨_, ⟨⟩, hr, _⟩ := h
  simpa using hr.symm

/-- An OK response has passed each check. -/
theorem answersOk_check {s : State} {c : Prop} [Decidable c] {f : Failure} {o : Host.Outcome State Fault Refusal} {r : Response}
    (hf : f.code ≠ .ok) (h : AnswersOk s (if c then raise s f else o) r) : ¬ c ∧ AnswersOk s o r := by
  split at h
  · exact absurd h (not_answersOk_raise hf)
  · exact ⟨‹_›, h⟩

/-! ### The terms of the statements as what the model computes -/

theorem writableKind_iff (d : FieldDesc) : WritableKind d ↔ packEnabled d = true := by
  rw [WritableKind, packEnabled]
  cases d.kind <;> simp

theorem writableContainer_iff (d : ContainerDesc) : WritableContainer d ↔ containerWritable d = true := by
  rw [WritableContainer, containerWritable]
  cases d.type <;> simp

theorem resolves_iff {d : FieldDesc} {arg : FieldArg} {v : HVal} : Resolves d arg v ↔ resolveArg d arg = some v := by
  cases arg <;> simp [Resolves, resolveArg]

theorem resolveArg_eq_none {d : FieldDesc} {arg : FieldArg} (h : ∀ v, ¬ Resolves d arg v) : resolveArg d arg = none := by
  rw [Option.eq_none_iff_forall_not_mem]
  exact fun v hv => h v (resolves_iff.2 hv)

/-- The search of an allowed set finds a member where there is one (R124). -/
theorem any_xtAt_iff (s : State) (lo len : Int) (v : HVal) :
    ((List.range len.toNat).any fun j => xtAt s (lo + (j : Int)).toNat == v) = true
      ↔ ∃ j : Nat, (j : Int) < len ∧ xtAt s (lo + j).toNat = v := by
  simp only [List.any_eq_true, List.mem_range, beq_iff_eq, Int.lt_toNat]

theorem isAllowed_iff (s : State) (d : FieldDesc) (v : HVal) :
    IsAllowed s d v ↔ d.allow ≠ .reserved ∧ allowed s d v = true := by
  rw [IsAllowed, allowed]
  cases d.allow with
  | none => simp
  | range => simp
  | set => simp only [any_xtAt_iff]; simp
  | reserved => simp

theorem fieldRaw_eq_rawOf (d : FieldDesc) (cint : Nat) : fieldRaw d cint = rawOf d cint := fieldRaw_eq d cint

/-- `Reads` is Unpack under a transform that R34 lists. -/
theorem reads_iff {s : State} {f cint : Nat} {v : HVal} {unmapped ext : Bool} :
    Reads s f cint v unmapped ext
      ↔ (∀ low, (fieldAt s f).xform ≠ .reserved low) ∧ unpackField s f cint = ⟨v, unmapped, ext⟩ := by
  simp only [Reads, unpackField, xUnpack, fieldRaw_eq_rawOf, tableBase_eq, tableLen_eq, shlScale]
  cases (fieldAt s f).xform with
  | identity | shl | external => simp [eq_comm]
  | table =>
    by_cases hraw : rawOf (fieldAt s f) cint < (fieldAt s f).xparam.toNat / 2 ^ 16
    · simp only [if_pos hraw]; simp [eq_comm]
    · simp only [if_neg hraw]; simp [eq_comm]
  | reserved low => simp

theorem xPack_of_encodes {s : State} {d : FieldDesc} {v : HVal} {raw : Nat} (h : Encodes s d v raw) : xPack s d v = some raw := by
  rw [Encodes] at h
  rw [xPack]
  cases hx : d.xform with
  | identity | external => simp only [hx] at h; rw [h]
  | shl =>
    simp only [hx] at h
    obtain ⟨hk, hraw, hv⟩ := h
    exact shlExponent_of_eq hk hraw hv
  | table =>
    simp only [hx] at h
    exact tableIndex_eq_some.2 (by rwa [tableBase_eq, tableLen_eq])
  | reserved low => simp only [hx] at h

/-- Under a transform that commit check 6 accepts, what XPack finds encodes the value. -/
theorem encodes_of_xPack {p : Params} {s : State} {d : FieldDesc} {v : HVal} {raw : Nat} (hd : badXform p d = false)
    (h : xPack s d v = some raw) : Encodes s d v raw := by
  rw [badXform] at hd
  rw [xPack] at h
  rw [Encodes]
  cases hx : d.xform with
  | identity | external => simp only [hx, Option.some.injEq] at h; exact h.symm
  | shl =>
    simp only [hx] at h hd
    have hk : shlScale d ≠ 0 := by rintro hk; simp [hk] at hd
    obtain ⟨hraw, _, hv⟩ := shlExponent_eq_some h
    exact ⟨Nat.one_le_iff_ne_zero.2 hk, hraw, hv⟩
  | table =>
    simp only [hx] at h
    simpa only [tableBase_eq, tableLen_eq] using tableIndex_eq_some.1 h
  | reserved low => simp [hx] at hd

/-! ### The fields of a committed Device Model (41_config.md R183) -/

/-- What commit checks 5 to 7 leave of a field: it lies in its container, and its transform and its allowed set are legal. -/
structure FieldWf (s : State) (d : FieldDesc) : Prop where
  inside : d.offset.toNat + d.width.toNat ≤ payloadBits (containerAt s d.cont.toNat)
  xform : badXform s.params d = false
  allow : badAllow s.params d = false

theorem fieldWf_of_fieldCheck {s : State} {d : FieldDesc} (h : fieldCheck s d = none) : FieldWf s d := by
  simp only [fieldCheck] at h
  split at h
  · cases h
  split at h
  · cases h
  split at h
  · cases h
  rename_i hinside
  split at h
  · cases h
  rename_i hx
  split at h
  · cases h
  rename_i ha
  simp only [Bool.or_eq_true, decide_eq_true_eq, not_or, Nat.not_lt] at hinside
  exact ⟨hinside.2, by simpa using hx, by simpa using ha⟩

theorem fieldExists_iff (s : State) (f : Nat) : fieldExists s f = true ↔ f < s.params.nf ∧ (fieldAt s f).valid = true := by
  simp [fieldExists]

theorem mem_fieldsOf {s : State} {c f : Nat} : f ∈ fieldsOf s c ↔ fieldExists s f = true ∧ ownerOf s f = c := by
  simp [fieldsOf, fieldExists_iff, and_assoc]

/-- Every field of a committed Device Model has passed the checks. -/
theorem fieldWf_of_fieldExists {s : State} {f : Nat} (hinv : s.inv = true) (hcfg : s.cfgOk = true)
    (hf : fieldExists s f = true) : FieldWf s (fieldAt s f) := by
  obtain ⟨hlt, hvalid⟩ := (fieldExists_iff s f).1 hf
  obtain ⟨_, _, _, _, hmodel⟩ := (inv_iff s).1 hinv
  have hfields : checkFields s = none := (Option.or_eq_none_iff.1 ((modelWf_iff s).1 hmodel hcfg)).2
  have hcheck := checkFields_eq_none.1 hfields f hlt
  rw [checkField, if_pos hvalid, Option.map_eq_none_iff] at hcheck
  exact fieldWf_of_fieldCheck hcheck

section
variable {s : State} {d : FieldDesc} (hd : FieldWf s d)
include hd

theorem FieldWf.xform_ne_reserved (low : BitVec 2) : d.xform ≠ .reserved low := fun hx => by
  have hbad := hd.xform
  simp [badXform, hx] at hbad

theorem FieldWf.allow_ne_reserved : d.allow ≠ .reserved := fun ha => by
  have hbad := hd.allow
  simp [badAllow, ha] at hbad

/-- No TABLE field has more entries than its raw values reach. -/
theorem FieldWf.tableLen_le (hx : d.xform = .table) : tableLen d ≤ 2 ^ d.width.toNat := by
  have hbad := hd.xform
  simp only [badXform, hx, Bool.or_eq_false_iff, decide_eq_false_iff_not, Nat.not_lt] at hbad
  exact hbad.1.2

theorem FieldWf.allowed_eq_false {v : HVal} (h : ¬ IsAllowed s d v) : allowed s d v = false :=
  Bool.eq_false_iff.2 fun ha => h ((isAllowed_iff s d v).2 ⟨hd.allow_ne_reserved, ha⟩)

theorem FieldWf.xPack_eq_none {v : HVal} (h : ∀ raw, ¬ Encodes s d v raw) : xPack s d v = none := by
  rw [Option.eq_none_iff_forall_not_mem]
  exact fun raw hraw => h raw (encodes_of_xPack hd.xform hraw)

end

/-! ### Pack through the terms of the statements (40_codec.md R126) -/

theorem packField_of_encodes {s : State} {f : Nat} {arg : FieldArg} {v : HVal} {raw : Nat}
    (hres : Resolves (fieldAt s f) arg v) (hallow : IsAllowed s (fieldAt s f) v) (henc : Encodes s (fieldAt s f) v raw) :
    packField s f arg = .ok ⟨partialOf (fieldAt s f) raw, v⟩ :=
  packField_ok_iff.2 ⟨v, raw, resolves_iff.1 hres, ((isAllowed_iff _ _ _).1 hallow).2, xPack_of_encodes henc, rfl⟩

theorem packField_of_not_isAllowed {s : State} {f : Nat} {arg : FieldArg} {v : HVal} (hd : FieldWf s (fieldAt s f))
    (hres : Resolves (fieldAt s f) arg v) (hallow : ¬ IsAllowed s (fieldAt s f) v) :
    packField s f arg = .error ⟨.invalidValue, 1, indexWord f⟩ :=
  packField_not_allowed (resolves_iff.1 hres) (hd.allowed_eq_false hallow)

theorem packField_of_not_encodes {s : State} {f : Nat} {arg : FieldArg} {v : HVal} (hd : FieldWf s (fieldAt s f))
    (hres : Resolves (fieldAt s f) arg v) (hallow : IsAllowed s (fieldAt s f) v)
    (henc : ∀ raw, ¬ Encodes s (fieldAt s f) v raw) : packField s f arg = .error ⟨.invalidValue, 3, indexWord f⟩ :=
  packField_no_raw (resolves_iff.1 hres) ((isAllowed_iff _ _ _).1 hallow).2 (hd.xPack_eq_none henc)

end Sys2Proof.Machine

end

section
/-! PROOFS. The statements of 40_codec.md about one field: FUNPACK and FPACK, and the order of the failures of FUNPACK and
CUNPACK. -/

namespace Sys2Proof.Machine

open Sys2Proof.Cert

/-! ### FUNPACK, FPACK and CUNPACK, one equation per end -/

section
variable {s : State} (hcfg : s.cfgOk = true)
include hcfg

theorem exec_funpack_of_not_fieldExists {f : Byte} (hf : fieldExists s f.toNat = false) (bytes : List Byte) :
    exec (.funpack f bytes) s = failWith s 0x00100106 (BitVec.ofNat 32 f.toNat) := by
  rw [← raise_unknownField]
  simp [exec, execFunpack, hcfg, hf]

theorem exec_funpack_of_length_ne {f : Byte} (hf : fieldExists s f.toNat = true) {bytes : List Byte}
    (hlen : bytes.length ≠ payloadOf s (ownerOf s f.toNat)) :
    exec (.funpack f bytes) s = failWith s 0x00100202 (BitVec.ofNat 32 f.toNat) := by
  rw [← raise_byteCount]
  simp [exec, execFunpack, hcfg, hf, hlen]

theorem exec_funpack_of_reads {f : Byte} (hf : fieldExists s f.toNat = true) {bytes : List Byte}
    (hlen : bytes.length = payloadOf s (ownerOf s f.toNat)) {u : Unpacked}
    (hu : unpackField s f.toNat (bytesToInt bytes s.endian) = u) :
    exec (.funpack f bytes) s = okWith s
      (BitVec.ofNat 32 (0x00200000 + 0x00020000 * asNat u.unmapped + 0x00040000 * asNat u.ext))
      [loWord u.value, hiWord u.value] := by
  rw [← statusWord_unpacked]
  simp [exec, execFunpack, hcfg, hf, hlen, hu, succeed, okResponse, okWith]

theorem exec_fpack_of_not_fieldExists {f : Byte} (hf : fieldExists s f.toNat = false) (arg : FieldArg) :
    exec (.fpack f arg) s = failWith s 0x00100106 (BitVec.ofNat 32 f.toNat) := by
  rw [← raise_unknownField]
  simp [exec, execFpack, hcfg, hf]

theorem exec_fpack_of_not_packEnabled {f : Byte} (hf : fieldExists s f.toNat = true)
    (hen : packEnabled (fieldAt s f.toNat) = false) (arg : FieldArg) :
    exec (.fpack f arg) s = failWith s 0x00100109 (BitVec.ofNat 32 f.toNat) := by
  rw [← raise_naming (by decide : statusWord .notWritable 1 0 1 = 0x00100109)]
  simp [exec, execFpack, hcfg, hf, hen]

/-- A Pack that fails, with the status word `w` of its sub-code. -/
theorem exec_fpack_of_error {f : Byte} (hf : fieldExists s f.toNat = true) (hen : packEnabled (fieldAt s f.toNat) = true)
    {arg : FieldArg} {sub : Byte} {w : Word} (hpack : packField s f.toNat arg = .error ⟨.invalidValue, sub, indexWord f.toNat⟩)
    (hw : statusWord .invalidValue sub 0 1 = w) : exec (.fpack f arg) s = failWith s w (BitVec.ofNat 32 f.toNat) := by
  simp [exec, execFpack, hcfg, hf, hen, hpack, raise_indexWord hw]

theorem exec_fpack_of_ok {f : Byte} (hf : fieldExists s f.toNat = true) (hen : packEnabled (fieldAt s f.toNat) = true)
    {arg : FieldArg} {pk : Packed} (hpack : packField s f.toNat arg = .ok pk) :
    exec (.fpack f arg) s = succeed s 0 (imageWords pk.partialInt (payloadOf s (ownerOf s f.toNat)) s.endian) := by
  simp [exec, execFpack, hcfg, hf, hen, hpack]

theorem exec_cunpack_of_not_containerExists {c : Byte} (hc : containerExists s c.toNat = false) (bytes : List Byte) :
    exec (.cunpack c bytes) s = failWith s 0x00100107 (BitVec.ofNat 32 c.toNat) := by
  rw [← raise_unknownContainer]
  simp [exec, execCunpack, hcfg, hc]

theorem exec_cunpack_of_length_ne {c : Byte} (hc : containerExists s c.toNat = true) {bytes : List Byte}
    (hlen : bytes.length ≠ payloadOf s c.toNat) :
    exec (.cunpack c bytes) s = failWith s 0x00100202 (BitVec.ofNat 32 c.toNat) := by
  rw [← raise_byteCount]
  simp [exec, execCunpack, hcfg, hc, hlen]

end

/-! ### What FUNPACK reads back of what FPACK packs (40_codec.md R129) -/

/-- An FPACK that returns OK has packed an existing field. -/
theorem fpack_of_answersOk {s : State} {f : Byte} {arg : FieldArg} {r : Response}
    (h : AnswersOk s (exec (.fpack f arg) s) r) :
    fieldExists s f.toNat = true ∧ ∃ pk, packField s f.toNat arg = .ok pk
      ∧ r.results = imageWords pk.partialInt (payloadOf s (ownerOf s f.toNat)) s.endian := by
  simp only [exec, execFpack] at h
  obtain ⟨_, h⟩ := answersOk_check (by simp) h
  obtain ⟨hf, h⟩ := answersOk_check (by simp) h
  obtain ⟨_, h⟩ := answersOk_check (by simp) h
  refine ⟨by simpa using hf, ?_⟩
  cases hpack : packField s f.toNat arg with
  | error e =>
    rw [hpack] at h
    exact absurd h (not_answersOk_raise (by rw [(packField_error hpack).1]; simp))
  | ok pk =>
    rw [hpack] at h
    exact ⟨pk, rfl, by rw [answersOk_succeed h]; rfl⟩

/-- A container image carries an integer of its payload's width. -/
theorem bytesToInt_imageWords (x n : Nat) (e : Endian) (rest : List Word) :
    bytesToInt (bytesOfWords (imageWords x n e ++ rest) n) e = x % 2 ^ (8 * n) := by
  have hbytes := bytesOfWords_wordsOfBytes (intToBytes x n e) rest
  rw [length_intToBytes] at hbytes
  rw [imageWords, hbytes, bytesToInt_intToBytes]

theorem bytesToInt_image (x n : Nat) (e : Endian) : bytesToInt (bytesOfWords (imageWords x n e) n) e = x % 2 ^ (8 * n) := by
  simpa using bytesToInt_imageWords x n e []

/-- Inside its container a packed field is read back as the low W bits of its raw value. -/
theorem fieldRaw_packed {d : FieldDesc} {n : Nat} (hn : d.offset.toNat + d.width.toNat ≤ 8 * n) (raw : Nat) :
    fieldRaw d (partialOf d raw % 2 ^ (8 * n)) = raw % 2 ^ d.width.toNat := by
  have hlt : partialOf d raw < 2 ^ (8 * n) := (packed_lt _ _ _).trans_le (Nat.pow_le_pow_right (by omega) hn)
  rw [Nat.mod_eq_of_lt hlt, fieldRaw_eq, partialOf, packed_div]

/-- The transforms invert each other: SHL and TABLE on every value that packs, the others on what fits the field (R129). -/
theorem xUnpack_xPack {s : State} {d : FieldDesc} {v : HVal} {raw : Nat} (hd : FieldWf s d) (h : xPack s d v = some raw)
    (hfits : d.xform = .identity ∨ d.xform = .external → v.toNat < 2 ^ d.width.toNat) :
    (xUnpack s d (raw % 2 ^ d.width.toNat)).value = v := by
  rw [xPack] at h
  rw [xUnpack]
  cases hx : d.xform with
  | identity | external =>
    simp only [hx, Option.some.injEq] at h
    subst h
    simp [Nat.mod_eq_of_lt (hfits (by simp [hx]))]
  | shl =>
    simp only [hx] at h
    obtain ⟨hraw, _, hv⟩ := shlExponent_eq_some h
    simp only [Nat.mod_eq_of_lt hraw]
    rw [← BitVec.ofInt_natCast, hv, BitVec.ofInt_toInt]
  | table =>
    simp only [hx] at h
    obtain ⟨hlt, hv, _⟩ := tableIndex_eq_some.1 h
    simp only [Nat.mod_eq_of_lt (hlt.trans_le (hd.tableLen_le hx)), if_pos hlt, hv]
  | reserved low => exact absurd hx (hd.xform_ne_reserved low)

/-- The status of an unpack is OK whatever its flags. -/
theorem statusOf_unpacked (unmapped ext : Bool) (rs : List Word) :
    statusOf ⟨BitVec.ofNat 32 (0x00200000 + 0x00020000 * asNat unmapped + 0x00040000 * asNat ext), rs⟩ = 0 := by
  rw [← statusWord_unpacked]
  exact statusWord_status _ _ _ _

theorem exec_funpack_of_value {s : State} {f : Byte} {bytes : List Byte} {v : HVal} (hcfg : s.cfgOk = true)
    (hf : fieldExists s f.toNat = true) (hlen : bytes.length = payloadOf s (ownerOf s f.toNat))
    (hv : (unpackField s f.toNat (bytesToInt bytes s.endian)).value = v) :
    ∃ status, statusOf ⟨status, []⟩ = 0 ∧ exec (.funpack f bytes) s = okWith s status [loWord v, hiWord v] := by
  subst hv
  exact ⟨_, statusOf_unpacked _ _ [], exec_funpack_of_reads hcfg hf hlen rfl⟩

end Sys2Proof.Machine

open Sys2Proof Sys2Proof.Machine Sys2Proof.Cert

/-- Settles O46: each check is the first that fails. -/
theorem codecReadsFailInOrder : Obligations.CodecReadsFailInOrder := fun _ _ bytes hcfg =>
  ⟨fun hf => exec_funpack_of_not_fieldExists hcfg hf bytes, fun hf hlen => exec_funpack_of_length_ne hcfg hf hlen,
    fun hc => exec_cunpack_of_not_containerExists hcfg hc bytes, fun hc hlen => exec_cunpack_of_length_ne hcfg hc hlen⟩

/-- Settles O37: what `Reads` names is what Unpack returns. -/
theorem funpackReadsField : Obligations.FunpackReadsField := fun _ _ _ _ _ _ hcfg hf hlen hreads =>
  exec_funpack_of_reads hcfg hf hlen (reads_iff.1 hreads).2

/-- Settles O38: the field passes every stage of Pack. -/
theorem fpackWritesFieldBits : Obligations.FpackWritesFieldBits := by
  intro s f arg v raw hcfg hf hkind hres hallow henc n
  rw [exec_fpack_of_ok hcfg hf ((writableKind_iff _).1 hkind) (packField_of_encodes hres hallow henc), succeed_eq_okWith,
    length_imageWords]
  rfl

/-- Settles O39: each stage of FPACK is the first that fails; a committed field has no reserved transform or allowed set. -/
theorem fpackFailsInOrder : Obligations.FpackFailsInOrder := by
  intro s f arg hinv hcfg
  refine ⟨fun hf => exec_fpack_of_not_fieldExists hcfg hf arg, fun hf => ?_⟩
  have hd := fieldWf_of_fieldExists hinv hcfg hf
  refine ⟨fun hkind => ?_, fun hkind => ?_⟩
  · exact exec_fpack_of_not_packEnabled hcfg hf (by rwa [writableKind_iff, Bool.not_eq_true] at hkind) arg
  · have hen := (writableKind_iff _).1 hkind
    refine ⟨fun hnone => ?_, fun v hres => ⟨fun hallow => ?_, fun hallow henc => ?_⟩⟩
    · exact exec_fpack_of_error hcfg hf hen (packField_no_default (resolveArg_eq_none hnone)) (by decide)
    · exact exec_fpack_of_error hcfg hf hen (packField_of_not_isAllowed hd hres hallow) (by decide)
    · exact exec_fpack_of_error hcfg hf hen (packField_of_not_encodes hd hres hallow henc) (by decide)

/-- Settles O40: the image holds the field's raw value whole, and the transform inverts on it. -/
theorem fieldRoundTrip : Obligations.FieldRoundTrip := by
  intro s t f v r hinv hcfg hexec hresp hok hfits
  obtain ⟨hf, pk, hpack, hr⟩ := fpack_of_answersOk ⟨t, hexec, hresp, hok⟩
  obtain ⟨w, raw, hres, _, hraw, rfl⟩ := packField_ok_iff.1 hpack
  cases hres
  have hd := fieldWf_of_fieldExists hinv hcfg hf
  have hinside : (fieldAt s f.toNat).offset.toNat + (fieldAt s f.toNat).width.toNat
      ≤ 8 * payloadOf s (ownerOf s f.toNat) := hd.inside
  have hraw' : fieldRaw (fieldAt s f.toNat)
      (bytesToInt (bytesOfWords r.results (payloadOf s (ownerOf s f.toNat))) s.endian)
        = raw % 2 ^ (fieldAt s f.toNat).width.toNat := by
    rw [hr, bytesToInt_image]
    exact fieldRaw_packed hinside raw
  have hvalue : (unpackField s f.toNat
      (bytesToInt (bytesOfWords r.results (payloadOf s (ownerOf s f.toNat))) s.endian)).value = v := by
    rw [unpackField, hraw', xUnpack_xPack hd hraw hfits]
  exact exec_funpack_of_value hcfg hf (length_bytesOfWords _ _) hvalue

end

section
/-! PROOFS. The statements of 40_codec.md about a whole container: CUNPACK, and the merge that CPACKU and CPACKR share. -/

namespace Sys2Proof.Machine

open Sys2Proof.Cert

/-! ### View entries (30_encoding.md R87) -/

theorem asNat_eq (b : Bool) : asNat b = b.toNat := by cases b <;> rfl

theorem entryWords_eq {f : Nat} (hf : f < 2 ^ 8) (unmapped ext : Bool) (v : HVal) :
    entryWords f unmapped ext v = entryOf f unmapped ext v := by
  have hword : viewWord f unmapped ext = BitVec.ofNat 32 (f + 2 ^ 8 * asNat unmapped + 2 ^ 9 * asNat ext) := by
    apply BitVec.eq_of_toNat_eq
    have hu := unmapped.toNat_le
    have he := ext.toNat_le
    rw [viewWord_toNat, BitVec.toNat_ofNat, asNat_eq, asNat_eq]
    omega
  rw [entryWords, entryOf, hword]

/-- With legal parameters a field index fits the eight bits of a view entry. -/
theorem lt_of_mem_fieldsOf {s : State} {c f : Nat} (hp : s.params.legal = true) (hf : f ∈ fieldsOf s c) : f < 2 ^ 8 :=
  ((fieldExists_iff s f).1 (mem_fieldsOf.1 hf).1).1.trans_le (legal_nf hp)

/-! ### CUNPACK -/

theorem exec_cunpack_eq {s : State} {c : Byte} {bytes : List Byte} (hcfg : s.cfgOk = true)
    (hc : containerExists s c.toNat = true) (hlen : bytes.length = payloadOf s c.toNat) :
    exec (.cunpack c bytes) s = okWith s (okStatus (3 * (fieldsOf s c.toNat).length))
      ((fieldsOf s c.toNat).flatMap (unpackedEntry s (bytesToInt bytes s.endian))) := by
  rw [← length_unpackedEntries s (bytesToInt bytes s.endian), ← succeed_eq_okWith]
  simp [exec, execCunpack, hcfg, hc, hlen]

theorem unpackedEntry_of_reads {s : State} {f cint : Nat} {v : HVal} {unmapped ext : Bool} (hf : f < 2 ^ 8)
    (h : Reads s f cint v unmapped ext) : unpackedEntry s cint f = entryOf f unmapped ext v := by
  simp only [unpackedEntry, (reads_iff.1 h).2, entryWords_eq hf]

/-! ### The checks of CPACKU and CPACKR before the merge (40_codec.md R133, R134) -/

theorem raise_containerNotWritable (s : State) (c : Byte) :
    raise s ⟨.notWritable, 2, c.setWidth 32⟩ = failWith s 0x00100209 (BitVec.ofNat 32 c.toNat) := raise_naming (by decide) s c

section
variable {s : State} {c : Byte} (hcfg : s.cfgOk = true)
include hcfg

theorem exec_packs_of_not_containerExists (hc : containerExists s c.toNat = false) (bytes : List Byte) (ovr : List Override) :
    exec (.cpacku c bytes ovr) s = failWith s 0x00100107 (BitVec.ofNat 32 c.toNat)
      ∧ exec (.cpackr c ovr) s = failWith s 0x00100107 (BitVec.ofNat 32 c.toNat) := by
  rw [← raise_unknownContainer]
  constructor
  · simp [exec, execCpacku, hcfg, hc]
  · simp [exec, execCpackr, hcfg, hc]

variable (hc : containerExists s c.toNat = true)
include hc

theorem exec_packs_of_not_containerWritable (hw : containerWritable (containerAt s c.toNat) = false) (bytes : List Byte)
    (ovr : List Override) :
    exec (.cpacku c bytes ovr) s = failWith s 0x00100209 (BitVec.ofNat 32 c.toNat)
      ∧ exec (.cpackr c ovr) s = failWith s 0x00100209 (BitVec.ofNat 32 c.toNat) := by
  rw [← raise_containerNotWritable]
  constructor
  · simp [exec, execCpacku, hcfg, hc, hw]
  · simp [exec, execCpackr, hcfg, hc, hw]

variable (hw : containerWritable (containerAt s c.toNat) = true)
include hw

theorem exec_cpacku_of_length_ne {bytes : List Byte} (hlen : bytes.length ≠ payloadOf s c.toNat) (ovr : List Override) :
    exec (.cpacku c bytes ovr) s = failWith s 0x00100202 (BitVec.ofNat 32 c.toNat) := by
  rw [← raise_byteCount]
  simp [exec, execCpacku, hcfg, hc, hw, hlen]

theorem exec_cpacku_eq_finishPack {bytes : List Byte} (hlen : bytes.length = payloadOf s c.toNat) (ovr : List Override) :
    exec (.cpacku c bytes ovr) s = finishPack s c.toNat (.update (bytesToInt bytes s.endian)) ovr := by
  simp [exec, execCpacku, hcfg, hc, hw, hlen]

theorem exec_cpackr_eq_finishPack (ovr : List Override) :
    exec (.cpackr c ovr) s = finishPack s c.toNat .replace ovr := by
  simp [exec, execCpackr, hcfg, hc, hw]

/-- An end that the merge comes to in both modes. -/
theorem exec_packs_of_finishPack {ovr : List Override} {o : Host.Outcome State Fault Refusal}
    (h : ∀ mode, finishPack s c.toNat mode ovr = o) (bytes : List Byte) :
    (bytes.length = payloadOf s c.toNat → exec (.cpacku c bytes ovr) s = o) ∧ exec (.cpackr c ovr) s = o :=
  ⟨fun hlen => (exec_cpacku_eq_finishPack hcfg hc hw hlen ovr).trans (h _),
    (exec_cpackr_eq_finishPack hcfg hc hw ovr).trans (h _)⟩

end

theorem overrideFailure_of_not_fieldExists {s : State} {c : Nat} {o : Override} (h : fieldExists s o.field.toNat = false) :
    overrideFailure s c o = some ⟨.unknownField, 1, o.field.setWidth 32⟩ := by
  simp [overrideFailure, h]

theorem overrideFailure_of_ownerOf_ne {s : State} {c : Nat} {o : Override} (h : fieldExists s o.field.toNat = true)
    (hc : ownerOf s o.field.toNat ≠ c) : overrideFailure s c o = some ⟨.unknownField, 2, o.field.setWidth 32⟩ := by
  simp [overrideFailure, h, hc]

theorem findSome?_overrideFailure {s : State} {c : Nat} {ovr : List Override} (h : OverridesOf s c ovr) :
    ovr.findSome? (overrideFailure s c) = none := by
  rw [List.findSome?_eq_none_iff]
  intro o ho
  obtain ⟨hf, hc⟩ := h o ho
  simp [overrideFailure, hf, hc]

/-- The first override that names no field of the container ends the command. -/
theorem finishPack_of_overrideFailure {s : State} {c : Nat} {pre post : List Override} {o : Override} {e : Failure}
    (hpre : OverridesOf s c pre) (ho : overrideFailure s c o = some e) (mode : MergeMode) :
    finishPack s c mode (pre ++ o :: post) = raise s e := by
  have hfirst : (pre ++ o :: post).findSome? (overrideFailure s c) = some e := by
    rw [List.findSome?_append, findSome?_overrideFailure hpre, Option.none_or, List.findSome?_cons_of_isSome (by simp [ho]), ho]
  simp only [finishPack, hfirst]

section
variable {s : State} {c : Nat} {mode : MergeMode} {ovr : List Override} (hovr : OverridesOf s c ovr)
include hovr

theorem finishPack_of_error {e : Failure} (h : containerPack s c mode ovr = .error e) :
    finishPack s c mode ovr = raise s e := by
  simp only [finishPack, findSome?_overrideFailure hovr, h]

theorem finishPack_of_ok {m : Merged} (h : containerPack s c mode ovr = .ok m) :
    finishPack s c mode ovr = succeed s 0 (mergedWords s c m) := by
  simp only [finishPack, findSome?_overrideFailure hovr, h]

end

/-- The first field of a read-only kind ends the merge before any value is packed. -/
theorem containerPack_of_not_writableKind {s : State} {c f : Nat} {pre post : List Nat} (hfs : fieldsOf s c = pre ++ f :: post)
    (hpre : ∀ g ∈ pre, WritableKind (fieldAt s g)) (hf : ¬ WritableKind (fieldAt s f)) (mode : MergeMode)
    (ovr : List Override) : containerPack s c mode ovr = .error ⟨.notWritable, 1, indexWord f⟩ := by
  have hfirst : (fieldsOf s c).find? (fun f => !packEnabled (fieldAt s f)) = some f := by
    rw [List.find?_eq_some_iff_append]
    exact ⟨by simpa [writableKind_iff] using hf, pre, post, hfs, fun g hg => by simpa [writableKind_iff] using hpre g hg⟩
  simp only [containerPack, hfirst]

theorem containerPack_of_writableKind {s : State} {c : Nat} (h : ∀ g ∈ fieldsOf s c, WritableKind (fieldAt s g))
    (mode : MergeMode) (ovr : List Override) : containerPack s c mode ovr = mergeFields s mode ovr (fieldsOf s c) := by
  have hnone : (fieldsOf s c).find? (fun f => !packEnabled (fieldAt s f)) = none := by
    rw [List.find?_eq_none]
    exact fun g hg => by simpa [writableKind_iff] using h g hg
  simp only [containerPack, hnone]

theorem mergeFields_of_containerPack {s : State} {c : Nat} {mode : MergeMode} {ovr : List Override} {m : Merged}
    (h : containerPack s c mode ovr = .ok m) : mergeFields s mode ovr (fieldsOf s c) = .ok m := by
  simp only [containerPack] at h
  split at h
  · cases h
  · exact h

/-! ### The argument of each field (40_codec.md R127) -/

/-- The base of a merge, as the statements name it for each mode. -/
def BaseArg (s : State) (mode : MergeMode) (f : Nat) : FieldArg → Prop :=
  match mode with
  | .update cur => UpdateBase s f cur
  | .replace => ReplaceBase

theorem mergeBase_of_baseArg {s : State} {mode : MergeMode} {f : Nat} {arg : FieldArg} (h : BaseArg s mode f arg) :
    mergeBase s mode f = .write arg := by
  cases mode with
  | update cur =>
    obtain ⟨v, ext, hreads, rfl⟩ := h
    simp [mergeBase, (reads_iff.1 hreads).2]
  | replace => cases h; rfl

theorem baseArg_of_mergeBase {s : State} {mode : MergeMode} {f : Nat} {arg : FieldArg} (hd : FieldWf s (fieldAt s f))
    (h : mergeBase s mode f = .write arg) : BaseArg s mode f arg := by
  cases mode with
  | update cur =>
    simp only [mergeBase] at h
    split at h
    · cases h
    · rename_i hu
      cases h
      refine ⟨_, (unpackField s f cur).ext, reads_iff.2 ⟨hd.xform_ne_reserved, ?_⟩, rfl⟩
      rw [← Bool.eq_false_iff.2 hu]
  | replace => cases h; rfl

/-- The argument that `FinalArg` names is the overlay's. -/
theorem overlay_of_finalArg {base : FieldArg → Prop} {b : MergeValue} {ovr : List Override} {f : Nat} {arg : FieldArg}
    (hbase : base arg → b = .write arg) (h : FinalArg base ovr f arg) : overlay b ovr f = .write arg := by
  rcases h with ⟨pre, o, post, rfl, ho, rfl, hpost⟩ | ⟨hnone, harg⟩
  · exact overlay_last b pre ho hpost
  · rw [overlay_none hnone, hbase harg]

theorem finalArg_of_overlay {base : FieldArg → Prop} {b : MergeValue} {ovr : List Override} {f : Nat} {arg : FieldArg}
    (hbase : b = .write arg → base arg) (h : overlay b ovr f = .write arg) : FinalArg base ovr f arg := by
  induction ovr using List.reverseRecOn with
  | nil => exact .inr ⟨by simp, hbase h⟩
  | append_singleton ovr o ih =>
    rw [overlay_append] at h
    split at h
    · rename_i ho
      cases h
      exact .inl ⟨ovr, o, [], rfl, ho, rfl, by simp⟩
    · rename_i ho
      rcases ih h with ⟨pre, x, post, rfl, hx, harg, hpost⟩ | ⟨hnone, harg⟩
      · refine .inl ⟨pre, x, post ++ [o], by simp, hx, harg, fun y hy => ?_⟩
        rcases List.mem_append.1 hy with hy | hy
        · exact hpost y hy
        · rwa [List.mem_singleton.1 hy]
      · refine .inr ⟨fun y hy => ?_, harg⟩
        rcases List.mem_append.1 hy with hy | hy
        · exact hnone y hy
        · rwa [List.mem_singleton.1 hy]

/-- A field without an argument is the unmapped one. -/
theorem overlay_eq_unmap {s : State} {mode : MergeMode} {ovr : List Override} {f : Nat} (hd : FieldWf s (fieldAt s f))
    (h : ∀ arg, ¬ FinalArg (BaseArg s mode f) ovr f arg) : overlay (mergeBase s mode f) ovr f = .unmap := by
  cases hval : overlay (mergeBase s mode f) ovr f with
  | unmap => rfl
  | write arg => exact absurd (finalArg_of_overlay (baseArg_of_mergeBase hd) hval) (h arg)

/-! ### A merge that packs every field -/

/-- The merge of `packed`, the fields with their values and raw values. -/
def mergedOf (s : State) (packed : List (Nat × HVal × Nat)) : Merged :=
  { image := packed.foldr (fun e acc => partialOf (fieldAt s e.1) e.2.2 ||| acc) 0
    view := packed.map fun e => ⟨e.1, e.2.1, isExternal (fieldAt s e.1)⟩ }

theorem mergeFields_of_packsAs {s : State} {mode : MergeMode} {ovr : List Override} {packed : List (Nat × HVal × Nat)}
    (h : ∀ e ∈ packed, PacksAs s (BaseArg s mode e.1) ovr e.1 e.2.1 e.2.2) :
    mergeFields s mode ovr (packed.map (·.1)) = .ok (mergedOf s packed) := by
  induction packed with
  | nil => rfl
  | cons e packed ih =>
    obtain ⟨_, ⟨arg, harg, hres⟩, hallow, henc⟩ := h e (by simp)
    exact mergeFields_cons (overlay_of_finalArg mergeBase_of_baseArg harg) (packField_of_encodes hres hallow henc)
      (ih fun x hx => h x (by simp [hx]))

theorem mergedWords_mergedOf {s : State} {c : Nat} {packed : List (Nat × HVal × Nat)} (h : ∀ e ∈ packed, e.1 < 2 ^ 8) :
    mergedWords s c (mergedOf s packed) = mergedResults s c packed := by
  have hview : ((mergedOf s packed).view.flatMap fun e => entryWords e.field false e.ext e.value)
      = packed.flatMap fun e => entryOf e.1 false (decide ((fieldAt s e.1).xform = .external)) e.2.1 := by
    rw [mergedOf, List.flatMap_map]
    exact List.flatMap_congr fun e he => entryWords_eq (h e he) _ _ _
  rw [mergedWords, hview]
  rfl

theorem length_mergedWords (s : State) (c : Nat) (m : Merged) :
    (mergedWords s c m).length = (payloadOf s c + 3) / 4 + 3 * m.view.length := by
  rw [mergedWords, List.length_append, length_imageWords, length_viewEntries]

/-- Every field packs: the image is the OR of their bits, and the view lists the values packed. -/
theorem finishPack_of_packsAs {s : State} {c : Nat} {mode : MergeMode} {ovr : List Override}
    {packed : List (Nat × HVal × Nat)} (hp : s.params.legal = true) (hovr : OverridesOf s c ovr)
    (hpacked : packed.map (·.1) = fieldsOf s c)
    (h : ∀ e ∈ packed, PacksAs s (BaseArg s mode e.1) ovr e.1 e.2.1 e.2.2) :
    finishPack s c mode ovr
      = okWith s (okStatus ((payloadOf s c + 3) / 4 + 3 * packed.length)) (mergedResults s c packed) := by
  have hkind : ∀ g ∈ fieldsOf s c, WritableKind (fieldAt s g) := by
    rw [← hpacked, List.forall_mem_map]
    exact fun e he => (h e he).1
  have hindex : ∀ e ∈ packed, e.1 < 2 ^ 8 := fun e he =>
    lt_of_mem_fieldsOf (c := c) hp (hpacked ▸ List.mem_map_of_mem he)
  have hmerge : containerPack s c mode ovr = .ok (mergedOf s packed) := by
    rw [containerPack_of_writableKind hkind, ← hpacked, mergeFields_of_packsAs h]
  have hlen : (mergedOf s packed).view.length = packed.length := List.length_map ..
  rw [finishPack_of_ok hovr hmerge, succeed_eq_okWith, length_mergedWords, hlen, mergedWords_mergedOf hindex]

/-! ### A merge that a field stops -/

theorem mergeFields_of_packField_error {s : State} {mode : MergeMode} {ovr : List Override} {f : Nat} {arg : FieldArg}
    {e : Failure} (harg : overlay (mergeBase s mode f) ovr f = .write arg) (h : packField s f arg = .error e) (fs : List Nat) :
    mergeFields s mode ovr (f :: fs) = .error e := by
  simp only [mergeFields, harg, h]

theorem mergeFields_of_unmap {s : State} {mode : MergeMode} {ovr : List Override} {f : Nat}
    (h : overlay (mergeBase s mode f) ovr f = .unmap) (fs : List Nat) :
    mergeFields s mode ovr (f :: fs) = .error ⟨.invalidValue, 3, indexWord f⟩ := by
  simp only [mergeFields, h]

theorem stopsMerge_le {s : State} {base : FieldArg → Prop} {ovr : List Override} {f sub : Nat}
    (h : StopsMerge s base ovr f sub) : sub ≤ 3 := by
  match sub, h with
  | 1, _ | 2, _ | 3, _ => decide

theorem mergeFields_of_stopsMerge {s : State} {mode : MergeMode} {ovr : List Override} {f sub : Nat}
    (hd : FieldWf s (fieldAt s f)) (h : StopsMerge s (BaseArg s mode f) ovr f sub) (fs : List Nat) :
    mergeFields s mode ovr (f :: fs) = .error ⟨.invalidValue, BitVec.ofNat 8 sub, indexWord f⟩ := by
  match sub, h with
  | 1, ⟨arg, v, harg, hres, hallow⟩ =>
    exact mergeFields_of_packField_error (overlay_of_finalArg mergeBase_of_baseArg harg)
      (packField_of_not_isAllowed hd hres hallow) fs
  | 2, ⟨arg, harg, hnone⟩ =>
    exact mergeFields_of_packField_error (overlay_of_finalArg mergeBase_of_baseArg harg)
      (packField_no_default (resolveArg_eq_none hnone)) fs
  | 3, .inl hunmap => exact mergeFields_of_unmap (overlay_eq_unmap hd hunmap) fs
  | 3, .inr ⟨arg, v, harg, hres, hallow, henc⟩ =>
    exact mergeFields_of_packField_error (overlay_of_finalArg mergeBase_of_baseArg harg)
      (packField_of_not_encodes hd hres hallow henc) fs

/-- The first field that cannot be packed ends the merge with its sub-code. -/
theorem finishPack_of_stopsMerge {s : State} {c f sub : Nat} {mode : MergeMode} {ovr : List Override}
    {packed : List (Nat × HVal × Nat)} {post : List Nat} (hd : FieldWf s (fieldAt s f)) (hovr : OverridesOf s c ovr)
    (hkind : ∀ g ∈ fieldsOf s c, WritableKind (fieldAt s g)) (hfs : fieldsOf s c = packed.map (·.1) ++ f :: post)
    (h : ∀ e ∈ packed, PacksAs s (BaseArg s mode e.1) ovr e.1 e.2.1 e.2.2) (hstop : StopsMerge s (BaseArg s mode f) ovr f sub) :
    finishPack s c mode ovr = failWith s (BitVec.ofNat 32 (0x00100008 + sub * 2 ^ 8)) (BitVec.ofNat 32 f) := by
  have hmerge : containerPack s c mode ovr = .error ⟨.invalidValue, BitVec.ofNat 8 sub, indexWord f⟩ := by
    rw [containerPack_of_writableKind hkind, hfs]
    exact mergeFields_append_error (mergeFields_of_packsAs h) (mergeFields_of_stopsMerge hd hstop post)
  have hsub := stopsMerge_le hstop
  rw [finishPack_of_error hovr hmerge, raise_indexWord (statusWord_invalidValue (by omega))]

/-! ### The image of an update (40_codec.md R128) -/

/-- A CPACKU that returns OK has merged every field of the container. -/
theorem cpacku_of_answersOk {s : State} {c : Byte} {bytes : List Byte} {ovr : List Override} {r : Response}
    (h : AnswersOk s (exec (.cpacku c bytes ovr) s) r) :
    ∃ m, mergeFields s (.update (bytesToInt bytes s.endian)) ovr (fieldsOf s c.toNat) = .ok m
      ∧ r.results = mergedWords s c.toNat m := by
  simp only [exec, execCpacku] at h
  obtain ⟨_, h⟩ := answersOk_check (by simp) h
  obtain ⟨_, h⟩ := answersOk_check (by simp) h
  obtain ⟨_, h⟩ := answersOk_check (by simp) h
  obtain ⟨_, h⟩ := answersOk_check (by simp) h
  simp only [finishPack] at h
  split at h
  · rename_i e he
    obtain ⟨o, _, ho⟩ := List.exists_of_findSome?_eq_some he
    exact absurd h (not_answersOk_raise (overrideFailure_code ho))
  split at h
  · rename_i e he
    exact absurd h (not_answersOk_raise (containerPack_error he))
  · rename_i m hm
    exact ⟨m, mergeFields_of_containerPack hm, by rw [answersOk_succeed h]; rfl⟩

end Sys2Proof.Machine

open Sys2Proof Sys2Proof.Machine Sys2Proof.Cert

/-- Settles O41: CUNPACK lists the fields in their order, each with what `Reads` names. -/
theorem cunpackListsEveryField : Obligations.CunpackListsEveryField := by
  intro s c bytes view hp hcfg hc hlen hview hreads
  have hentries : (fieldsOf s c.toNat).flatMap (unpackedEntry s (bytesToInt bytes s.endian))
      = view.flatMap fun e => entryOf e.1 e.2.2.1 e.2.2.2 e.2.1 := by
    rw [← hview, List.flatMap_map]
    refine List.flatMap_congr fun e he => unpackedEntry_of_reads ?_ (hreads e he)
    exact lt_of_mem_fieldsOf (c := c.toNat) hp (hview ▸ List.mem_map_of_mem he)
  rw [exec_cunpack_eq hcfg hc hlen, hentries, ← hview, List.length_map]

/-- Settles O42: both commands end in the merge, in their own mode. -/
theorem containerPackMergesEveryField : Obligations.ContainerPackMergesEveryField := by
  intro s c ovr packed hp hcfg hc hw hovr hpacked status
  rw [writableContainer_iff] at hw
  refine ⟨fun bytes hlen h => ?_, fun h => ?_⟩
  · rw [exec_cpacku_eq_finishPack hcfg hc hw hlen]
    exact finishPack_of_packsAs hp hovr hpacked h
  · rw [exec_cpackr_eq_finishPack hcfg hc hw]
    exact finishPack_of_packsAs hp hovr hpacked h

/-- Settles O43: the fields before the first bad one merge, and that one stops the merge. -/
theorem containerPackReportsFirstBadValue : Obligations.ContainerPackReportsFirstBadValue := by
  intro s c ovr packed f post sub hinv hcfg hc hw hovr hkind hfs status
  rw [writableContainer_iff] at hw
  have hf : f ∈ fieldsOf s c.toNat := by rw [hfs]; simp
  have hd := fieldWf_of_fieldExists hinv hcfg (mem_fieldsOf.1 hf).1
  refine ⟨fun bytes hlen => ?_, fun h hstop => ?_⟩
  · intro cur h hstop
    rw [exec_cpacku_eq_finishPack hcfg hc hw hlen]
    exact finishPack_of_stopsMerge hd hovr hkind hfs h hstop
  · rw [exec_cpackr_eq_finishPack hcfg hc hw]
    exact finishPack_of_stopsMerge hd hovr hkind hfs h hstop

/-- Settles O44: the image carries the merge's integer, which has no bit outside the fields. -/
theorem updateDropsUncoveredBits : Obligations.UpdateDropsUncoveredBits := by
  intro s t c bytes ovr r _ hexec hresp hok k hk
  obtain ⟨m, hm, hr⟩ := cpacku_of_answersOk ⟨t, hexec, hresp, hok⟩
  rw [hr, mergedWords, bytesToInt_imageWords, Nat.testBit_mod_two_pow, testBit_mergeFields hm hk, Bool.and_false]

/-- Settles O45: each check is the first that fails, whatever the mode of the merge. -/
theorem containerWriteFailsInOrder : Obligations.ContainerWriteFailsInOrder := by
  intro s c bytes ovr hcfg
  refine ⟨fun hc => exec_packs_of_not_containerExists hcfg hc bytes ovr, fun hc => ⟨fun hw => ?_, fun hw => ?_⟩⟩
  · rw [writableContainer_iff, Bool.not_eq_true] at hw
    exact exec_packs_of_not_containerWritable hcfg hc hw bytes ovr
  rw [writableContainer_iff] at hw
  refine ⟨fun hlen => exec_cpacku_of_length_ne hcfg hc hw hlen ovr, ?_, ?_⟩
  · rintro pre o post rfl hpre
    refine ⟨fun hf => exec_packs_of_finishPack hcfg hc hw (fun mode => ?_) bytes,
      fun hf hne => exec_packs_of_finishPack hcfg hc hw (fun mode => ?_) bytes⟩
    · rw [finishPack_of_overrideFailure hpre (overrideFailure_of_not_fieldExists hf), raise_unknownField]
    · rw [finishPack_of_overrideFailure hpre (overrideFailure_of_ownerOf_ne hf hne)]
      exact raise_naming (by decide) s o.field
  · intro hovr pre f post hfs hpre hf
    refine exec_packs_of_finishPack hcfg hc hw (fun mode => ?_) bytes
    rw [finishPack_of_error hovr (containerPack_of_not_writableKind hfs hpre hf mode ovr)]
    exact raise_indexWord (by decide) s f

end

section
/-! PROOFS. The layer under the statements of 41_config.md: the ends of the configuration writes, what a locked Device Model
keeps, and each commit check as the condition that R183 writes. -/

namespace Sys2Proof.Machine

open Sys2Proof.Cert

/-! ### The configuration writes (41_config.md R175 to R177) -/

theorem succeed_without_results (s : State) : succeed s 0 [] = okWith s 0 [] := succeed_eq_okWith s []

theorem raise_locked (s : State) : raise s ⟨.locked, 0, 0⟩ = failWith s 0x00100004 0 := by
  have hstatus : statusWord .locked 0 0 1 = 0x00100004 := by decide
  rw [raise_eq_failWith, hstatus]

theorem raise_tableRange (s : State) (idx : BitVec 16) :
    raise s ⟨.badLength, 3, idx.setWidth 32⟩ = failWith s 0x00100302 (BitVec.ofNat 32 idx.toNat) := by
  have hstatus : statusWord .badLength 3 0 1 = 0x00100302 := by decide
  rw [raise_eq_failWith, hstatus, BitVec.ofNat_toNat]

/-- The form of CFGC, CFGF and CFGX: an entry `k` of a store of `size` entries is written, giving `s'`, unless the Device
Model is locked or the index is out of range. -/
def configWrite (s : State) (size k : Nat) (outOfRange : Failure) (s' : State) : Host.Outcome State Fault Refusal :=
  if s.cfgOk then raise s ⟨.locked, 0, 0⟩ else if size ≤ k then raise s outOfRange else succeed s' 0 []

theorem exec_cfgc (c : Byte) (word : Word) (s : State) :
    exec (.cfgc c word) s = configWrite s s.params.nc c.toNat ⟨.unknownContainer, 1, c.setWidth 32⟩
      { s with cdt := tableWrite s.cdt c.toNat (containerOfWord word) } := rfl

theorem exec_cfgf (f : Byte) (ws : FieldWords) (s : State) :
    exec (.cfgf f ws) s = configWrite s s.params.nf f.toNat ⟨.unknownField, 1, f.setWidth 32⟩
      { s with fdt := tableWrite s.fdt f.toNat (fieldOfWords ws) } := rfl

theorem exec_cfgx (idx : BitVec 16) (v : HVal) (s : State) :
    exec (.cfgx idx v) s = configWrite s s.params.xtSize idx.toNat ⟨.badLength, 3, idx.setWidth 32⟩
      { s with xt := tableWrite s.xt idx.toNat v } := rfl

section
variable {s : State} {size k : Nat}

theorem configWrite_of_locked (hlock : s.cfgOk = true) (size k : Nat) (f : Failure) (s' : State) :
    configWrite s size k f s' = failWith s 0x00100004 0 := by
  rw [configWrite, if_pos hlock, raise_locked]

theorem configWrite_of_lt (hs : s.cfgOk = false) (hk : k < size) (f : Failure) (s' : State) :
    configWrite s size k f s' = okWith s' 0 [] := by
  rw [configWrite, if_neg (by simp [hs]), if_neg (by omega), succeed_without_results]

theorem configWrite_of_le (hs : s.cfgOk = false) (hk : size ≤ k) (f : Failure) (s' : State) :
    configWrite s size k f s' = raise s f := by
  rw [configWrite, if_neg (by simp [hs]), if_pos hk]

end

/-! ### What a locked Device Model keeps (41_config.md R173) -/

/-- The two states hold one Device Model: the same descriptors, XT, ENDIAN and CFG_OK. -/
structure SameDeviceModel (s t : State) : Prop where
  cdt : t.cdt = s.cdt
  fdt : t.fdt = s.fdt
  xt : t.xt = s.xt
  endian : t.endian = s.endian
  cfgOk : t.cfgOk = s.cfgOk

/-- A command that is neither a configuration command nor CSRW keeps the Device Model. -/
theorem OwnWriters.sameDeviceModel {opc : Nat} {s t : State} (h : OwnWriters opc s t)
    (hopc : opc ∉ [0x02, 0x10, 0x11, 0x12, 0x13, 0x14]) : SameDeviceModel s t where
  cdt := not_imp_comm.1 h.cdt (by simp_all)
  fdt := not_imp_comm.1 h.fdt (by simp_all)
  xt := not_imp_comm.1 h.xt (by simp_all)
  endian := not_imp_comm.1 h.endian (by simp_all)
  cfgOk := not_imp_comm.1 (fun hne => h.commit (.inl hne)) (by simp_all)

/-- Of the rules that write the Device Model only CFGCLR's passes its checks on a locked one; a CSRW that passes keeps
ENDIAN. -/
theorem writes_sameDeviceModel {i : Instr} {s s' : State} (hw : Writes i s s') (hlock : s.cfgOk = true)
    (hi : i ≠ .cfgclr) : SameDeviceModel s s' := by
  cases i with
  | cfgclr => contradiction
  | cfgc | cfgf | cfgx | cfgcommit =>
    obtain ⟨hunlocked, _⟩ := hw
    exact absurd hlock (by simp [hunlocked])
  | csrw csr v =>
    obtain ⟨rfl, hendian⟩ := hw
    exact ⟨rfl, rfl, rfl, hendian hlock, rfl⟩
  | _ => exact (writes_ownWriters hw).sameDeviceModel (by simp [Instr.opcode, Opcode.code])

theorem step_sameDeviceModel {s t : State} {c : Command} {rest : List PortEvent} (hport : s.port = .command c :: rest)
    (hlock : s.cfgOk = true) (hopc : cwOpc c.cw ≠ 0x10) (hstep : step s = .next t) : SameDeviceModel s t := by
  rcases step_command_next hport hstep with ⟨f, w, _, _, rfl⟩ | ⟨i, s', fl, rs, hi, hw, rfl⟩
  · exact ⟨rfl, rfl, rfl, rfl, rfl⟩
  · have hne : i ≠ .cfgclr := by
      rintro rfl
      exact hopc (opcode_of_decode hi)
    exact { writes_sameDeviceModel hw hlock hne with }

/-! ### The commit checks as conditions (41_config.md R183) -/

theorem check1Fails_iff (s : State) (c : Nat) :
    Check1Fails s c ↔ ((containerAt s c).valid && badContainer s.params (containerAt s c)) = true := by
  rw [Bool.and_eq_true, badContainer_iff]
  rfl

theorem check2Fails_iff (s : State) (c : Nat) : Check2Fails s c ↔ duplicateHeader s c = true :=
  (duplicateHeader_iff s c).symm

/-- A SHL scale is refused where the power does not fit an `s64`, however wide the field. -/
theorem badShl_iff (k w : Nat) :
    (decide (k = 0) || !shlFits k w) = true ↔ k = 0 ∨ 2 ^ 63 - 1 < k * 2 ^ (2 ^ w - 1) := by
  by_cases hk : k = 0
  · simp [hk]
  · have hfits := shlFits_iff (Nat.pos_of_ne_zero hk) w
    rw [← Nat.not_le, ← hfits]
    simp

theorem check6Fails_iff (s : State) (f : Nat) : FieldCheckFails s f 6 ↔ badXform s.params (fieldAt s f) = true := by
  simp only [FieldCheckFails, badXform]
  cases (fieldAt s f).xform with
  | shl => exact (badShl_iff _ _).symm
  | table => simp only [tableBase_eq, tableLen_eq, Bool.or_eq_true, decide_eq_true_eq, or_assoc]
  | identity | external | reserved => simp

theorem check7Fails_iff (s : State) (f : Nat) : FieldCheckFails s f 7 ↔ badAllow s.params (fieldAt s f) = true := by
  simp only [FieldCheckFails, badAllow]
  cases (fieldAt s f).allow with
  | set => simp only [Bool.or_eq_true, decide_eq_true_eq, or_assoc]
  | range | none | reserved => simp

/-- Whether check `k` of a field fails, by its number. -/
def failsCheck (s : State) (d : FieldDesc) : Nat → Bool
  | 3 => !containerExists s d.cont.toNat
  | 4 => decide (d.kind = .framePayload) != decide ((containerAt s d.cont.toNat).type = .frame)
  | 5 => decide (d.width.toNat < 1)
      || decide (payloadBits (containerAt s d.cont.toNat) < d.offset.toNat + d.width.toNat)
  | 6 => badXform s.params d
  | 7 => badAllow s.params d
  | _ => false

theorem fieldCheckFails_iff (s : State) (f k : Nat) : FieldCheckFails s f k ↔ failsCheck s (fieldAt s f) k = true := by
  match k with
  | 3 => simp [FieldCheckFails, failsCheck, containerExists, ownerOf]
  | 4 => simp [FieldCheckFails, failsCheck, ownerOf]
  | 5 =>
    rw [failsCheck, Bool.or_eq_true, decide_eq_true_eq, decide_eq_true_eq]
    rfl
  | 6 => exact check6Fails_iff s f
  | 7 => exact check7Fails_iff s f
  | 0 | 1 | 2 | _ + 8 => simp [FieldCheckFails, failsCheck]

/-- Only the checks 3 to 7 can fail for a field. -/
theorem fieldCheckFails_bounds {s : State} {f k : Nat} (h : FieldCheckFails s f k) : 3 ≤ k ∧ k ≤ 7 := by
  match k with
  | 3 | 4 | 5 | 6 | 7 => omega
  | 0 | 1 | 2 | _ + 8 => exact h.elim

/-! ### The first failing check of a field -/

/-- The number of the first check that fails for field `f`, if it is valid. -/
def firstFieldCheck (s : State) (f : Nat) : Option Nat :=
  (List.range 8).find? fun k => (fieldAt s f).valid && failsCheck s (fieldAt s f) k

theorem find?_cons_eq_ite {α : Type} (P : α → Bool) (x : α) (xs : List α) :
    (x :: xs).find? P = if P x then some x else xs.find? P := by
  rw [List.find?_cons]
  cases P x <;> rfl

/-- The checks of `fieldCheck` are a scan of their numbers. -/
theorem fieldCheck_eq_find? (s : State) (d : FieldDesc) :
    fieldCheck s d = ((List.range 8).find? (failsCheck s d)).map (BitVec.ofNat 8) := by
  have hchain : fieldCheck s d =
      if failsCheck s d 3 then some 3 else if failsCheck s d 4 then some 4 else if failsCheck s d 5 then some 5
      else if failsCheck s d 6 then some 6 else if failsCheck s d 7 then some 7 else none := rfl
  have hrange : (List.range 8).find? (failsCheck s d) = [3, 4, 5, 6, 7].find? (failsCheck s d) := rfl
  rw [hchain, hrange]
  simp only [find?_cons_eq_ite, apply_ite (Option.map (BitVec.ofNat 8))]
  rfl

theorem checkField_eq (s : State) (f : Nat) :
    checkField s f = (firstFieldCheck s f).map fun k => ⟨true, BitVec.ofNat 8 k, f⟩ := by
  rw [checkField, firstFieldCheck, fieldCheck_eq_find?]
  cases (fieldAt s f).valid with
  | true => simp only [if_true, Option.map_map, Bool.true_and]; rfl
  | false => simp

theorem firstFieldCheck_eq_some {s : State} {f k : Nat} : firstFieldCheck s f = some k ↔ FirstFieldFailure s f k := by
  simp only [firstFieldCheck, find?_range_eq_some, FirstFieldFailure, fieldCheckFails_iff, Bool.and_eq_true,
    Bool.not_eq_true]
  constructor
  · rintro ⟨_, ⟨hvalid, hk⟩, hleast⟩
    exact ⟨hvalid, hk, fun j hj => by simpa [hvalid] using hleast j hj⟩
  · rintro ⟨hvalid, hk, hleast⟩
    have hbound := fieldCheckFails_bounds ((fieldCheckFails_iff s f k).2 hk)
    exact ⟨by omega, ⟨hvalid, hk⟩, fun j hj => by simp [hleast j hj]⟩

theorem firstFieldCheck_eq_none {s : State} {f : Nat} :
    firstFieldCheck s f = none ↔ ((fieldAt s f).valid = true → ∀ k, ¬ FieldCheckFails s f k) := by
  simp only [firstFieldCheck, find?_range_eq_none, Bool.and_eq_false_imp]
  constructor
  · intro h hvalid k hk
    have hbound := fieldCheckFails_bounds hk
    rw [fieldCheckFails_iff, h k (by omega) hvalid] at hk
    exact Bool.false_ne_true hk
  · intro h k _ hvalid
    simpa [fieldCheckFails_iff] using h hvalid k

/-! ### The scans (41_config.md R183) -/

theorem checkContainers_eq_some_iff {s : State} {e : CommitFailure} :
    checkContainers s = some e ↔ ∃ c, e = ⟨false, 1, c⟩ ∧ LeastBelow s.params.nc (Check1Fails s) c := by
  simp only [checkContainers_eq_some, LeastBelow, check1Fails_iff, Bool.not_eq_true]

theorem checkContainers_eq_none_iff {s : State} :
    checkContainers s = none ↔ ∀ c < s.params.nc, ¬ Check1Fails s c := by
  simp only [checkContainers_eq_none, check1Fails_iff, Bool.not_eq_true]

theorem checkHeaders_eq_some_iff {s : State} {e : CommitFailure} :
    checkHeaders s = some e ↔ ∃ c, e = ⟨false, 2, c⟩ ∧ LeastBelow s.params.nc (Check2Fails s) c := by
  simp only [checkHeaders_eq_some, LeastBelow, check2Fails_iff, Bool.not_eq_true]

theorem checkHeaders_eq_none_iff {s : State} : checkHeaders s = none ↔ ∀ c < s.params.nc, ¬ Check2Fails s c := by
  simp only [checkHeaders_eq_none, check2Fails_iff, Bool.not_eq_true]

theorem checkField_eq_some {s : State} {f : Nat} {e : CommitFailure} :
    checkField s f = some e ↔ ∃ k, FirstFieldFailure s f k ∧ e = ⟨true, BitVec.ofNat 8 k, f⟩ := by
  simp only [checkField_eq, Option.map_eq_some_iff, firstFieldCheck_eq_some, eq_comm (b := e)]

theorem checkField_eq_none {s : State} {f : Nat} : checkField s f = none ↔ ∀ k, ¬ FirstFieldFailure s f k := by
  simp only [Option.eq_none_iff_forall_ne_some, ne_eq, checkField_eq_some]
  exact ⟨fun h k hk => h _ ⟨k, hk, rfl⟩, fun h _ ⟨k, hk, _⟩ => h k hk⟩

theorem checkFields_eq_some_iff {s : State} {e : CommitFailure} :
    checkFields s = some e ↔ ∃ f k, e = ⟨true, BitVec.ofNat 8 k, f⟩ ∧ FirstFieldFailure s f k
      ∧ LeastBelow s.params.nf (fun g => ∃ j, FirstFieldFailure s g j) f := by
  simp only [checkFields_eq_some, checkField_eq_some, checkField_eq_none, LeastBelow, not_exists]
  constructor
  · rintro ⟨f, hf, ⟨k, hk, rfl⟩, hleast⟩
    exact ⟨f, k, rfl, hk, hf, ⟨k, hk⟩, hleast⟩
  · rintro ⟨f, k, rfl, hk, hf, _, hleast⟩
    exact ⟨f, hf, ⟨k, hk, rfl⟩, hleast⟩

theorem checkFields_eq_none_iff {s : State} :
    checkFields s = none ↔ ∀ f < s.params.nf, (fieldAt s f).valid = true → ∀ k, ¬ FieldCheckFails s f k := by
  simp only [checkFields_eq_none, checkField_eq, Option.map_eq_none_iff, firstFieldCheck_eq_none]

/-- The three scans find nothing exactly on a Device Model. -/
theorem commitCheck_eq_none_iff {s : State} : commitCheck s = none ↔ LegalModel s := by
  simp only [commitCheck, Option.or_eq_none_iff, checkContainers_eq_none_iff, checkHeaders_eq_none_iff,
    checkFields_eq_none_iff, LegalModel, and_assoc]

/-- What a scan finds has one of the check codes 1 to 7 and an index that 16 bits hold. -/
theorem commitCheck_bounds {s : State} {e : CommitFailure} (hp : s.params.legal = true) (he : commitCheck s = some e) :
    1 ≤ e.code.toNat ∧ e.code.toNat ≤ 7 ∧ e.idx < 2 ^ 16 := by
  have hnc := legal_nc hp
  have hnf := legal_nf hp
  simp only [commitCheck, Option.or_eq_some_iff, checkContainers_eq_some_iff, checkHeaders_eq_some_iff,
    checkFields_eq_some_iff] at he
  obtain (⟨c, rfl, hc, _⟩ | ⟨_, c, rfl, hc, _⟩) | ⟨_, f, k, rfl, ⟨_, hk, _⟩, hf, _⟩ := he
  · exact ⟨by simp, by simp, by simp only; omega⟩
  · exact ⟨by simp, by simp, by simp only; omega⟩
  · have hbound := fieldCheckFails_bounds hk
    simp only [BitVec.toNat_ofNat]
    omega

/-! ### The ends of CFGCOMMIT -/

theorem exec_cfgcommit_of_locked {s : State} (hlock : s.cfgOk = true) :
    exec .cfgcommit s = failWith s 0x00100004 0 := by
  simp only [exec, execCfgcommit, hlock, if_true, raise_locked]

theorem exec_cfgcommit_of_legal {s : State} (hs : s.cfgOk = false) (h : LegalModel s) :
    exec .cfgcommit s = okWith { s with cfgOk := true, cfgErr := 0 } 0 [] := by
  simp only [exec, execCfgcommit, hs, Bool.false_eq_true, if_false, commitCheck_eq_none_iff.2 h, succeed_without_results]

/-- A failed commit as its status word and CFG_ERR, where the code and the index fit their fields. -/
theorem raiseCommit_eq_commitFails (s : State) {e : CommitFailure} (hcode : e.code.toNat ≤ 7) (hidx : e.idx < 2 ^ 16) :
    raiseCommit s e = commitFails s (asNat e.isField) e.code.toNat e.idx := by
  have hword : commitWord e = BitVec.ofNat 32 (asNat e.isField * 2 ^ 24 + e.code.toNat * 2 ^ 16 + e.idx) := by
    have hbit : e.isField.toNat ≤ 1 := Bool.toNat_le _
    apply BitVec.eq_of_toNat_eq
    rw [commitWord, cfgErrWord_toNat, BitVec.toNat_ofNat, asNat_eq]
    omega
  have hstatus : statusWord .configError e.code 0 1 = BitVec.ofNat 32 (0x0010000A + e.code.toNat * 2 ^ 8) := by
    have hbyte : (statusByte .configError).toNat = 0x0A := rfl
    apply BitVec.eq_of_toNat_eq
    rw [statusWord_toNat, hbyte, toNat_zero_bits, BitVec.toNat_ofNat]
    omega
  rw [raiseCommit, raise_eq_failWith, hstatus, hword]
  rfl

theorem exec_cfgcommit_of_failure {s : State} {e : CommitFailure} (hp : s.params.legal = true) (hs : s.cfgOk = false)
    (he : commitCheck s = some e) : exec .cfgcommit s = commitFails s (asNat e.isField) e.code.toNat e.idx := by
  obtain ⟨_, hcode, hidx⟩ := commitCheck_bounds hp he
  rw [← raiseCommit_eq_commitFails s hcode hidx]
  simp only [exec, execCfgcommit, hs, Bool.false_eq_true, if_false, he]

end Sys2Proof.Machine

open Sys2Proof Sys2Proof.Machine Sys2Proof.Cert

/-- Settles O19: a failed command writes no piece of the Device Model, and the rules that write one find it locked. -/
theorem lockKeepsDeviceModel : Obligations.LockKeepsDeviceModel := by
  intro s t c rest hlock hport hopc hstep
  have h := step_sameDeviceModel hport hlock hopc hstep
  exact ⟨h.cdt, h.fdt, h.xt, h.endian, h.cfgOk.trans hlock⟩

/-- Settles O31: CFGCLR clears VALID in the stored descriptors, and an unwritten one has VALID 0 already. -/
theorem cfgclrClearsDeviceModel : Obligations.CfgclrClearsDeviceModel := fun s =>
  ⟨_, _, succeed_without_results (clearModel s), containerAt_clear s, fieldAt_clear s⟩

/-- Settles O35: the scan finds nothing exactly on a Device Model, and what it finds has a code from 1 to 7. -/
theorem commitSucceedsExactlyOnLegalModels : Obligations.CommitSucceedsExactlyOnLegalModels := by
  intro s hp hs
  refine ⟨exec_cfgcommit_of_legal hs, fun hillegal => ?_⟩
  obtain ⟨e, he⟩ := Option.ne_none_iff_exists'.1 (mt commitCheck_eq_none_iff.1 hillegal)
  obtain ⟨hlow, hhigh, _⟩ := commitCheck_bounds hp he
  exact ⟨_, _, _, exec_cfgcommit_of_failure hp hs he, hlow, hhigh⟩

/-- Settles O36: each scan stops at its least failure, and a later scan runs only where the earlier ones find nothing. -/
theorem commitReportsFirstFailure : Obligations.CommitReportsFirstFailure := by
  intro s hp hs
  refine ⟨fun c hc => ?_, fun hcontainers => ⟨fun c hc => ?_, fun hheaders f k hf hk => ?_⟩⟩
  · have hscan := checkContainers_eq_some_iff.2 ⟨c, rfl, hc⟩
    exact exec_cfgcommit_of_failure (e := ⟨false, 1, c⟩) hp hs (by rw [commitCheck_eq, hscan])
  · have hscan := checkHeaders_eq_some_iff.2 ⟨c, rfl, hc⟩
    exact exec_cfgcommit_of_failure (e := ⟨false, 2, c⟩) hp hs
      (by rw [commitCheck_eq, checkContainers_eq_none_iff.2 hcontainers, hscan])
  · have hscan := checkFields_eq_some_iff.2 ⟨f, k, rfl, hk, hf⟩
    have hcommit : commitCheck s = some ⟨true, BitVec.ofNat 8 k, f⟩ := by
      rw [commitCheck_eq, checkContainers_eq_none_iff.2 hcontainers, checkHeaders_eq_none_iff.2 hheaders, hscan]
    obtain ⟨_, hfails, _⟩ := hk
    have hbound := fieldCheckFails_bounds hfails
    have hcode : (BitVec.ofNat 8 k).toNat = k := by
      rw [BitVec.toNat_ofNat]
      omega
    rw [exec_cfgcommit_of_failure hp hs hcommit, hcode]
    rfl

/-- Settles O11: the fields are a filter of the ascending indices. -/
theorem fieldsAreValidAndAscending : Obligations.FieldsAreValidAndAscending := by
  refine fun s c => ⟨fun f => ?_, List.pairwise_lt_range.filter _⟩
  rw [mem_fieldsOf, fieldExists_iff, and_assoc]
  rfl

/-- Settles O20: the lock is the first check of the three writes and of CFGCOMMIT, and CFGCLR has no check. -/
theorem lockedConfigurationWritesFail : Obligations.LockedConfigurationWritesFail :=
  ⟨fun _ hlock => ⟨fun _ _ => configWrite_of_locked hlock _ _ _ _, fun _ _ => configWrite_of_locked hlock _ _ _ _,
      fun _ _ => configWrite_of_locked hlock _ _ _ _, exec_cfgcommit_of_locked hlock⟩,
    fun s => ⟨clearModel s, succeed_without_results _, clearModel_cfgOk s⟩⟩

/-- Settles O32, from the read after a write of CDT and the descriptor's word. -/
theorem cfgcWritesOneContainer : Obligations.CfgcWritesOneContainer := by
  intro s c word hs
  refine ⟨fun hc => ⟨_, configWrite_of_lt hs hc _ _, ?_, fun k hk => ?_⟩, fun hc => ?_⟩
  · rw [containerAt_write, if_pos rfl, wordOfContainer_containerOfWord]
  · rw [containerAt_write, if_neg hk]
  · rw [exec_cfgc, configWrite_of_le hs hc, raise_unknownContainer]

/-- Settles O33, from the read after a write of FDT and the descriptor's words. -/
theorem cfgfWritesOneField : Obligations.CfgfWritesOneField := by
  intro s f ws hs
  refine ⟨fun hf => ⟨_, configWrite_of_lt hs hf _ _, ?_, fun k hk => ?_⟩, fun hf => ?_⟩
  · rw [fieldAt_write, if_pos rfl, wordsOfField_fieldOfWords]
  · rw [fieldAt_write, if_neg hk]
  · rw [exec_cfgf, configWrite_of_le hs hf, raise_unknownField]

/-- Settles O34, from the read after a write of XT. -/
theorem cfgxWritesOneEntry : Obligations.CfgxWritesOneEntry := by
  intro s idx v hs
  refine ⟨fun hidx => ⟨_, configWrite_of_lt hs hidx _ _, ?_, fun k hk => ?_⟩, fun hidx => ?_⟩
  · rw [xtAt_write, if_pos rfl]
  · rw [xtAt_write, if_neg hk]
  · rw [exec_cfgx, configWrite_of_le hs hidx, raise_tableRange]

end

section
/-! PROOFS. The decode buffer and the start of a decode: DBWR, DBRD and DSTART (42_decoder.md R200, R201, R203). -/

namespace Sys2Proof.Machine

open Sys2Proof.Cert

/-! ### The ends of the three commands -/

/-- BAD_LENGTH sub 3, with the operand that does not fit DBUF. -/
theorem raise_dbufRange (s : State) (w : Word) : raise s ⟨.badLength, 3, w⟩ = failWith s 0x00100302 w := by
  have hstatus : statusWord .badLength 3 0 1 = 0x00100302 := by decide
  rw [raise_eq_failWith, hstatus]

theorem raise_busy (s : State) : raise s ⟨.busy, 0, 0⟩ = failWith s 0x00100005 0 := by
  have hstatus : statusWord .busy 0 0 1 = 0x00100005 := by decide
  rw [raise_eq_failWith, hstatus]

theorem rangeFits_of_le {p : Params} {a n : Nat} (hn : n ≠ 0) (hend : a + n ≤ p.dbufSize) : rangeFits p a n = true := by
  simpa [rangeFits, hend] using Nat.one_le_iff_ne_zero.2 hn

theorem not_rangeFits {p : Params} {a n : Nat} (h : n = 0 ∨ p.dbufSize < a + n) : rangeFits p a n = false := by
  simp only [rangeFits, Bool.and_eq_false_iff, decide_eq_false_iff_not]
  omega

section
variable {s : State} {a : Word}

theorem exec_dbwr_of_active (hact : s.decActive = true) (a : Word) (bytes : List Byte) :
    exec (.dbwr a bytes) s = failWith s 0x00100005 0 := by
  rw [← raise_busy]
  simp [exec, execDbwr, hact]

theorem exec_dbwr_of_not_rangeFits (hact : s.decActive = false) {bytes : List Byte}
    (hfit : rangeFits s.params a.toNat bytes.length = false) : exec (.dbwr a bytes) s = failWith s 0x00100302 a := by
  rw [← raise_dbufRange]
  simp [exec, execDbwr, hact, hfit]

theorem exec_dbwr_of_rangeFits (hact : s.decActive = false) {bytes : List Byte}
    (hfit : rangeFits s.params a.toNat bytes.length = true) :
    exec (.dbwr a bytes) s = okWith { s with dbuf := memoryWrite s.dbuf a.toNat bytes } 0 [] := by
  rw [← succeed_without_results]
  simp [exec, execDbwr, hact, hfit]

theorem exec_dbrd_of_not_rangeFits {n : Byte} (hfit : rangeFits s.params a.toNat n.toNat = false) :
    exec (.dbrd a n) s = failWith s 0x00100302 a := by
  rw [← raise_dbufRange]
  simp [exec, execDbrd, hfit]

theorem exec_dbrd_of_rangeFits {n : Byte} (hfit : rangeFits s.params a.toNat n.toNat = true) :
    exec (.dbrd a n) s = okWith s (okStatus (wordCount n.toNat)) (wordsOfBytes (dbufRead s a.toNat n.toNat)) := by
  have hlen : (wordsOfBytes (dbufRead s a.toNat n.toNat)).length = wordCount n.toNat := by
    rw [length_wordsOfBytes, length_dbufRead]
  rw [← hlen, ← succeed_eq_okWith]
  simp [exec, execDbrd, hfit]

theorem exec_dstart_of_lt (hcfg : s.cfgOk = true) {len : Word} (hlen : s.params.dbufSize < len.toNat) :
    exec (.dstart len) s = failWith s 0x00100302 len := by
  rw [← raise_dbufRange]
  simp [exec, execDstart, hcfg, hlen]

theorem exec_dstart_of_le (hcfg : s.cfgOk = true) {len : Word} (hlen : len.toNat ≤ s.params.dbufSize) :
    exec (.dstart len) s = okWith (setCursor { s with decLen := BitVec.ofNat 16 len.toNat } 0) 0 [] := by
  rw [← succeed_without_results]
  simp [exec, execDstart, hcfg, Nat.not_lt.2 hlen]

end

/-! ### A range that was written -/

theorem dbufRead_write (s : State) (a : Nat) (bytes : List Byte) :
    dbufRead { s with dbuf := memoryWrite s.dbuf a bytes } a bytes.length = bytes := by
  apply List.ext_getElem (length_dbufRead _ _ _)
  intro k _ hk
  simp [dbufRead, dbufAt_write, hk]

end Sys2Proof.Machine

open Sys2Proof Sys2Proof.Machine Sys2Proof.Cert

/-- Settles O47, from the read after a write of DBUF. -/
theorem dbwrWritesItsRange : Obligations.DbwrWritesItsRange := by
  intro s a bytes
  refine ⟨fun hact => exec_dbwr_of_active hact a bytes, fun hact => ⟨fun hbad => ?_, fun hne hend => ?_⟩⟩
  · exact exec_dbwr_of_not_rangeFits hact (not_rangeFits (hbad.imp_left List.length_eq_zero_iff.2))
  · have hfit := rangeFits_of_le (List.length_eq_zero_iff.not.2 hne) hend
    refine ⟨_, exec_dbwr_of_rangeFits hact hfit, fun k hk => ?_, fun k hk => ?_⟩
    · rw [dbufAt_write, if_pos (by omega), Nat.add_sub_cancel_left]
    · rw [dbufAt_write, if_neg (by omega)]

/-- Settles O49: the DBWR passed its checks, and the bytes it wrote are those that the range holds. -/
theorem dbrdAfterDbwrReturnsTheBytes : Obligations.DbrdAfterDbwrReturnsTheBytes := by
  intro s t a bytes hcount hexec hact hne hend
  have hfit := rangeFits_of_le (List.length_eq_zero_iff.not.2 hne) hend
  cases (exec_dbwr_of_rangeFits hact hfit).symm.trans hexec
  have hn := toNat_count hcount
  rw [exec_dbrd_of_rangeFits (by rw [hn]; exact hfit), hn, dbufRead_respond, dbufRead_write]
  rfl

/-- Settles O48: the range check alone decides, and a success returns what DBUF holds. -/
theorem dbrdReturnsItsRange : Obligations.DbrdReturnsItsRange := by
  intro s a n
  refine ⟨fun hbad => exec_dbrd_of_not_rangeFits (not_rangeFits (hbad.imp_left ?_)), fun hne hend => ?_⟩
  · rintro rfl
    rfl
  · have hpos : n.toNat ≠ 0 := fun h => hne (BitVec.eq_of_toNat_eq h)
    exact exec_dbrd_of_rangeFits (rangeFits_of_le hpos hend)

/-- Settles O50: DBUF_SIZE is at most 65535, so that DEC_LEN holds every length that passes the check. -/
theorem dstartStartsDecode : Obligations.DstartStartsDecode := by
  intro s len hp hcfg
  refine ⟨fun hlen => ?_, exec_dstart_of_lt hcfg⟩
  have hsize := legal_dbufSize hp
  have hnat : (BitVec.ofNat 16 len.toNat).toNat = len.toNat := by
    rw [BitVec.toNat_ofNat]
    omega
  refine ⟨_, hnat, ?_⟩
  rw [exec_dstart_of_le hcfg hlen, setCursor, hnat]
  rfl

end

section
/-! PROOFS. The layer under the statements about DNEXT (42_decoder.md R204 to R209): the frame that a header names, the record of
each case and the cursor after it. -/

namespace Sys2Proof.Machine

open Sys2Proof.Cert

/-! ### The frame of a header in a committed Device Model (41_config.md R178, R183) -/

theorem legalModel_of_inv {s : State} (hinv : s.inv = true) (hcfg : s.cfgOk = true) : LegalModel s := by
  obtain ⟨_, _, _, _, hmodel⟩ := (inv_iff s).1 hinv
  exact commitCheck_eq_none_iff.1 ((modelWf_iff s).1 hmodel hcfg)

theorem isFrameOf_iff_validFrame (s : State) (h : Byte) (c : Nat) :
    isFrameOf s h c = true ↔ ValidFrame s c ∧ (containerAt s c).header = h := by
  rw [isFrameOf_iff, ValidFrame, and_assoc]

theorem frameOf_of_unknownHeader {s : State} {h : Byte} (hunknown : UnknownHeader s h) : frameOf s h = none :=
  find?_range_eq_none.2 fun c hc => Bool.eq_false_iff.2 fun hframe =>
    have ⟨hvalid, hheader⟩ := (isFrameOf_iff_validFrame s h c).1 hframe
    hunknown c hc hvalid hheader

theorem unknownHeader_or_frameAt (s : State) (pos : Nat) : UnknownHeader s (dbufAt s pos) ∨ ∃ c, FrameAt s pos c := by
  by_cases h : ∃ c, FrameAt s pos c
  · exact .inr h
  · exact .inl fun c hc hvalid hheader => h ⟨c, hc, hvalid, hheader⟩

section
variable {s : State} {pos c : Nat} (hmodel : LegalModel s) (hframe : FrameAt s pos c)
include hmodel hframe

/-- Check 2 leaves a header no second frame, so that the scan finds `c`. -/
theorem frameOf_of_frameAt : frameOf s (dbufAt s pos) = some c := by
  obtain ⟨_, hheaders, _⟩ := hmodel
  obtain ⟨hc, hvalid, hheader⟩ := hframe
  refine find?_range_eq_some.2 ⟨hc, (isFrameOf_iff_validFrame s _ c).2 ⟨hvalid, hheader⟩, fun j hj => ?_⟩
  refine Bool.eq_false_iff.2 fun hother => ?_
  obtain ⟨hvalid', hheader'⟩ := (isFrameOf_iff_validFrame s _ j).1 hother
  exact hheaders c hc ⟨hvalid, j, hj, hvalid', hheader'.trans hheader.symm⟩

/-- Check 1 leaves no frame of SIZE 0. -/
theorem one_le_size_of_frameAt : 1 ≤ (containerAt s c).size.toNat := by
  obtain ⟨hcontainers, _⟩ := hmodel
  obtain ⟨hc, ⟨hvalid, htype⟩, _⟩ := hframe
  exact Nat.not_lt.1 fun hsize => hcontainers c hc ⟨hvalid, .inr ⟨htype, .inl hsize⟩⟩

end

/-- REC0.CONT holds every container index. -/
theorem lt_of_frameAt {s : State} {pos c : Nat} (hp : s.params.legal = true) (hframe : FrameAt s pos c) : c < 2 ^ 8 := by
  obtain ⟨hc, _⟩ := hframe
  exact hc.trans_le (legal_nc hp).2

theorem payloadOf_of_frameAt {s : State} {pos c : Nat} (hframe : FrameAt s pos c) :
    payloadOf s c = (containerAt s c).size.toNat - 1 := by
  obtain ⟨_, ⟨_, htype⟩, _⟩ := hframe
  simp only [payloadOf, payloadBytes, htype]

/-! ### The record and the new cursor, case by case (42_decoder.md R204 to R206) -/

theorem decodeStep_of_unknownHeader {s : State} (hunknown : UnknownHeader s (dbufAt s s.decPos.toNat)) :
    decodeStep s = (invalidRecord s (dbufAt s s.decPos.toNat), s.decPos.toNat + 1) := by
  simp only [decodeStep, frameOf_of_unknownHeader hunknown]

section
variable {s : State} {c : Nat} (hmodel : LegalModel s) (hframe : FrameAt s s.decPos.toNat c)
include hmodel hframe

theorem decodeStep_of_truncated (hend : s.decLen.toNat < s.decPos.toNat + (containerAt s c).size.toNat) :
    decodeStep s = (truncRecord s c (dbufAt s s.decPos.toNat), s.decLen.toNat) := by
  simp only [decodeStep, frameOf_of_frameAt hmodel hframe, if_pos hend]

theorem decodeStep_of_whole (hend : s.decPos.toNat + (containerAt s c).size.toNat ≤ s.decLen.toNat) :
    decodeStep s = (frameRecord s c (dbufAt s s.decPos.toNat) (framePayload s c s.decPos.toNat),
      s.decPos.toNat + (containerAt s c).size.toNat) := by
  simp only [decodeStep, frameOf_of_frameAt hmodel hframe, if_neg (Nat.not_lt.2 hend)]

end

/-- Every record of an active decode moves the cursor: by one, by a SIZE of at least one, or to DEC_LEN. -/
theorem lt_decodeStep {s : State} (hmodel : LegalModel s) (hlt : s.decPos.toNat < s.decLen.toNat) :
    s.decPos.toNat < (decodeStep s).2 := by
  rcases unknownHeader_or_frameAt s s.decPos.toNat with hunknown | ⟨c, hframe⟩
  · rw [decodeStep_of_unknownHeader hunknown]
    exact Nat.lt_succ_self _
  · rcases Nat.lt_or_ge s.decLen.toNat (s.decPos.toNat + (containerAt s c).size.toNat) with hend | hend
    · rw [decodeStep_of_truncated hmodel hframe hend]
      exact hlt
    · rw [decodeStep_of_whole hmodel hframe hend]
      exact Nat.lt_add_of_pos_right (one_le_size_of_frameAt hmodel hframe)

/-! ### Record words (30_encoding.md R92) -/

theorem recordWord_eq_rec0 (kind : RecordKind) (hasValue unmapped ext : Bool) {c : Nat} (hc : c < 2 ^ 8) (h : Byte) :
    recordWord kind hasValue unmapped ext (BitVec.ofNat 8 c) h
      = rec0 (recordKindBits kind).toNat hasValue unmapped ext c h.toNat := by
  have hvalue := Bool.toNat_le hasValue
  have hunmapped := Bool.toNat_le unmapped
  have hext := Bool.toNat_le ext
  apply BitVec.eq_of_toNat_eq
  rw [recordWord_toNat, rec0, BitVec.toNat_ofNat, BitVec.toNat_ofNat, asNat_eq, asNat_eq, asNat_eq]
  omega

theorem recordWord_kind (kind : RecordKind) (hasValue unmapped ext : Bool) (cont hdr : Byte) :
    (recordWord kind hasValue unmapped ext cont hdr).extractLsb' 0 2 = recordKindBits kind := by
  have hvalue := Bool.toNat_le hasValue
  apply BitVec.eq_of_toNat_eq
  rw [BitVec.extractLsb'_toNat, recordWord_toNat, Nat.shiftRight_zero]
  omega

theorem recordWord_cont (kind : RecordKind) (hasValue unmapped ext : Bool) (cont hdr : Byte) :
    (recordWord kind hasValue unmapped ext cont hdr).extractLsb' 8 8 = cont := by
  have hvalue := Bool.toNat_le hasValue
  have hunmapped := Bool.toNat_le unmapped
  have hext := Bool.toNat_le ext
  apply BitVec.eq_of_toNat_eq
  rw [BitVec.extractLsb'_toNat, recordWord_toNat, Nat.shiftRight_eq_div_pow]
  omega

theorem recordWords_eq (w : Word) (pos : BitVec 16) (v : HVal) :
    recordWords w pos v = [w, BitVec.ofNat 32 pos.toNat, loWord v, hiWord v] := by
  rw [recordWords, BitVec.ofNat_toNat]

theorem okStatus_record (w : Word) (pos : BitVec 16) (v : HVal) : okStatus (recordWords w pos v).length = 0x00400000 := by
  have hlen : (recordWords w pos v).length = 4 := rfl
  rw [hlen]
  decide

theorem loWord_zero : loWord 0 = 0 := by decide
theorem hiWord_zero : hiWord 0 = 0 := by decide

theorem frameRecord_of_no_field {s : State} {c : Nat} (hfields : fieldsOf s c = []) (h : Byte) (cint : Nat) :
    frameRecord s c h cint = recordWords (recordWord .frame false false false (BitVec.ofNat 8 c) h) s.decPos 0 := by
  simp only [frameRecord, hfields]

theorem frameRecord_of_reads {s : State} {c f cint : Nat} {fs : List Nat} {v : HVal} {unmapped ext : Bool}
    (hfields : fieldsOf s c = f :: fs) (hreads : Reads s f cint v unmapped ext) (h : Byte) :
    frameRecord s c h cint = recordWords (recordWord .frame true unmapped ext (BitVec.ofNat 8 c) h) s.decPos v := by
  obtain ⟨_, hunpack⟩ := reads_iff.1 hreads
  simp only [frameRecord, hfields, hunpack]

/-- With or without a field, a FRAME record names its container. -/
theorem frameRecord_eq (s : State) (c : Nat) (h : Byte) (cint : Nat) : ∃ hasValue unmapped ext v,
    frameRecord s c h cint = recordWords (recordWord .frame hasValue unmapped ext (BitVec.ofNat 8 c) h) s.decPos v := by
  cases hfields : fieldsOf s c with
  | nil => exact ⟨_, _, _, _, frameRecord_of_no_field hfields h cint⟩
  | cons f fs =>
    refine ⟨true, (unpackField s f cint).unmapped, (unpackField s f cint).ext, (unpackField s f cint).value, ?_⟩
    simp only [frameRecord, hfields]

/-! ### DNEXT, one equation per record -/

section
variable {s : State} (hcfg : s.cfgOk = true)
include hcfg

theorem exec_dnext_of_inactive (hact : s.decActive = false) :
    exec .dnext s = okWith s 0x00400000 [0, BitVec.ofNat 32 s.decPos.toNat, 0, 0] := by
  have hend : exec .dnext s = succeed s 0 (endRecord s) := by simp [exec, execDnext, hcfg, hact]
  have hword : recordWord .done false false false 0 0 = 0 := by decide
  rw [hend, succeed_eq_okWith, endRecord, okStatus_record, recordWords_eq, hword, loWord_zero, hiWord_zero]

variable (hact : s.decActive = true)
include hact

theorem exec_dnext_of_active :
    exec .dnext s = okWith (movedTo s (decodeStep s).2) (okStatus (decodeStep s).1.length) (decodeStep s).1 := by
  rw [← succeed_eq_okWith]
  simp [exec, execDnext, hcfg, hact, setCursor, movedTo]

/-- A record of word `w` and value `v` at the cursor, and the cursor `pos` after it. -/
theorem exec_dnext_of_decodeStep {w : Word} {v : HVal} {pos : Nat} (hstep : decodeStep s = (recordWords w s.decPos v, pos)) :
    exec .dnext s
      = okWith (movedTo s pos) 0x00400000 [w, BitVec.ofNat 32 s.decPos.toNat, loWord v, hiWord v] := by
  rw [exec_dnext_of_active hcfg hact, hstep, okStatus_record, recordWords_eq]

theorem exec_dnext_of_unknownHeader (hunknown : UnknownHeader s (dbufAt s s.decPos.toNat)) :
    exec .dnext s = okWith (movedTo s (s.decPos.toNat + 1)) 0x00400000
      [rec0 2 false false false 0 (dbufAt s s.decPos.toNat).toNat, BitVec.ofNat 32 s.decPos.toNat, 0, 0] := by
  have hword (h : Byte) : recordWord .invalid false false false 0 h = rec0 2 false false false 0 h.toNat :=
    recordWord_eq_rec0 .invalid false false false (Nat.two_pow_pos 8) h
  rw [exec_dnext_of_decodeStep hcfg hact (decodeStep_of_unknownHeader hunknown), hword, loWord_zero, hiWord_zero]

variable {c : Nat} (hmodel : LegalModel s) (hframe : FrameAt s s.decPos.toNat c)
include hmodel hframe

theorem exec_dnext_of_truncated (hc : c < 2 ^ 8) (hend : s.decLen.toNat < s.decPos.toNat + (containerAt s c).size.toNat) :
    exec .dnext s = okWith (movedTo s s.decLen.toNat) 0x00400000
      [rec0 3 false false false c (dbufAt s s.decPos.toNat).toNat, BitVec.ofNat 32 s.decPos.toNat, 0, 0] := by
  rw [exec_dnext_of_decodeStep hcfg hact (decodeStep_of_truncated hmodel hframe hend), loWord_zero, hiWord_zero,
    recordWord_eq_rec0 .trunc false false false hc]
  rfl

variable (hend : s.decPos.toNat + (containerAt s c).size.toNat ≤ s.decLen.toNat)
include hend

theorem exec_dnext_of_whole {w : Word} {v : HVal}
    (hrecord : frameRecord s c (dbufAt s s.decPos.toNat) (framePayload s c s.decPos.toNat) = recordWords w s.decPos v) :
    exec .dnext s = okWith (movedTo s (s.decPos.toNat + (containerAt s c).size.toNat)) 0x00400000
      [w, BitVec.ofNat 32 s.decPos.toNat, loWord v, hiWord v] :=
  exec_dnext_of_decodeStep hcfg hact (by rw [decodeStep_of_whole hmodel hframe hend, hrecord])

theorem exec_dnext_of_no_field (hc : c < 2 ^ 8) (hfields : fieldsOf s c = []) :
    exec .dnext s = okWith (movedTo s (s.decPos.toNat + (containerAt s c).size.toNat)) 0x00400000
      [rec0 1 false false false c (dbufAt s s.decPos.toNat).toNat, BitVec.ofNat 32 s.decPos.toNat, 0, 0] := by
  rw [exec_dnext_of_whole hcfg hact hmodel hframe hend (frameRecord_of_no_field hfields _ _), loWord_zero, hiWord_zero,
    recordWord_eq_rec0 .frame false false false hc]
  rfl

theorem exec_dnext_of_reads (hc : c < 2 ^ 8) {f : Nat} {fs : List Nat} (hfields : fieldsOf s c = f :: fs) {v : HVal}
    {unmapped ext : Bool} (hreads : Reads s f (framePayload s c s.decPos.toNat) v unmapped ext) :
    exec .dnext s = okWith (movedTo s (s.decPos.toNat + (containerAt s c).size.toNat)) 0x00400000
      [rec0 1 true unmapped ext c (dbufAt s s.decPos.toNat).toNat, BitVec.ofNat 32 s.decPos.toNat, loWord v, hiWord v] := by
  rw [exec_dnext_of_whole hcfg hact hmodel hframe hend (frameRecord_of_reads hfields hreads _),
    recordWord_eq_rec0 .frame true unmapped ext hc]
  rfl

end

end Sys2Proof.Machine
end

section
/-! PROOFS. The statements about DNEXT: each record, and what a row of DNEXTs reads (42_decoder.md R204 to R209). -/

namespace Sys2Proof.Machine

open Sys2Proof.Cert

/-! ### The state after a DNEXT -/

theorem exec_inv {i : Instr} {s t : State} (h : s.inv = true) (he : exec i s = .next t) : t.inv = true := by
  rcases ends_next (exec_ends i s) he with ⟨_, _, rfl⟩ | ⟨_, _, _, rfl⟩ | ⟨s', _, _, hw, rfl⟩
  · exact h
  · exact h
  · rw [inv_respond]
    exact writes_inv hw h

/-- 10_state.md R37: DEC_ACTIVE = (DEC_POS < DEC_LEN), DEC_POS <= DEC_LEN, and a decode needs a committed Device Model. -/
theorem cursor_of_inv {s : State} (h : s.inv = true) : s.decActive = decide (s.decPos.toNat < s.decLen.toNat)
    ∧ s.decPos.toNat ≤ s.decLen.toNat ∧ (s.decActive = true → s.cfgOk = true) := by
  obtain ⟨_, _, hd, _, _⟩ := (inv_iff s).1 h
  obtain ⟨hact, hpos, _, hcfg⟩ := (decoderWf_iff s).1 hd
  exact ⟨hact, hpos, hcfg⟩

theorem toNat_decPos_movedTo {s : State} {pos : Nat} (hpos : pos ≤ s.decLen.toNat) : (movedTo s pos).decPos.toNat = pos :=
  Nat.mod_eq_of_lt (lt_of_le_of_lt hpos s.decLen.isLt)

/-- A DNEXT moves the cursor by one at least, or leaves it at DEC_LEN. -/
theorem dnext_forward {s t : State} (hinv : s.inv = true) (hcfg : s.cfgOk = true) (he : exec .dnext s = .next t) :
    t.cfgOk = true ∧ t.decLen = s.decLen ∧ min (s.decPos.toNat + 1) s.decLen.toNat ≤ t.decPos.toNat := by
  obtain ⟨hcursor, _, _⟩ := cursor_of_inv hinv
  cases hact : s.decActive with
  | false =>
    cases (exec_dnext_of_inactive hcfg hact).symm.trans he
    have hle : s.decLen.toNat ≤ s.decPos.toNat := by simpa [hact] using hcursor
    exact ⟨hcfg, rfl, (Nat.min_le_right _ _).trans hle⟩
  | true =>
    cases (exec_dnext_of_active hcfg hact).symm.trans he
    have hlt : s.decPos.toNat < s.decLen.toNat := by simpa [hact] using hcursor
    refine ⟨hcfg, rfl, ?_⟩
    rw [respond_decPos, toNat_decPos_movedTo (decodeStep_le hlt)]
    exact (Nat.min_le_left _ _).trans (lt_decodeStep (legalModel_of_inv hinv hcfg) hlt)

/-- As many DNEXTs as there are bytes left end the decode. -/
theorem dnexts_end {s : State} {k : Nat} (hinv : s.inv = true) (hcfg : s.cfgOk = true)
    (hk : s.decLen.toNat ≤ s.decPos.toNat + k) :
    ∃ t, dnexts k s t ∧ t.cfgOk = true ∧ t.decActive = false ∧ t.decPos = s.decLen := by
  induction k generalizing s with
  | zero =>
    obtain ⟨hcursor, hle, _⟩ := cursor_of_inv hinv
    have hend : s.decPos.toNat = s.decLen.toNat := Nat.le_antisymm hle hk
    exact ⟨s, rfl, hcfg, by simp [hcursor, hend], BitVec.eq_of_toNat_eq hend⟩
  | succ k ih =>
    obtain ⟨u, hu⟩ := exec_next .dnext s
    obtain ⟨hcfg', hlen, hforward⟩ := dnext_forward hinv hcfg hu
    have hinv' := exec_inv hinv hu
    obtain ⟨_, hle, _⟩ := cursor_of_inv hinv'
    obtain ⟨t, hrun, hcfgt, hact, hpos⟩ := ih hinv' hcfg' (by rw [hlen]; omega)
    exact ⟨t, ⟨u, hu, hrun⟩, hcfgt, hact, hpos.trans hlen⟩

/-! ### Whole frames (42_decoder.md R208) -/

/-- The frames behind the cursor do not depend on where it stands. -/
theorem wholeFrames_movedTo {s : State} {p pos : Nat} {cs : List Nat} (r : Response) (h : WholeFrames s pos cs) :
    WholeFrames (respond (movedTo s p) r) pos cs := by
  induction cs generalizing pos with
  | nil => exact h
  | cons c cs ih =>
    obtain ⟨hframe, hrest⟩ := h
    exact ⟨hframe, ih hrest⟩

theorem le_decLen_of_wholeFrames {s : State} {pos : Nat} {cs : List Nat} (h : WholeFrames s pos cs) : pos ≤ s.decLen.toNat := by
  induction cs generalizing pos with
  | nil => exact h.le
  | cons c cs ih =>
    obtain ⟨_, hrest⟩ := h
    exact (Nat.le_add_right _ _).trans (ih hrest)

/-- The status of a response to DNEXT, and KIND and CONT of its record (30_encoding.md R92). -/
def recordHead (r : Response) : Word × BitVec 2 × Nat :=
  (r.status, (r.results.getD 0 0).extractLsb' 0 2, ((r.results.getD 0 0).extractLsb' 8 8).toNat)

/-- A whole frame at the cursor gives its FRAME record, and the cursor moves to its end. -/
theorem exec_dnext_of_wholeFrame {s : State} {c : Nat} (hinv : s.inv = true) (hcfg : s.cfgOk = true)
    (hframe : FrameAt s s.decPos.toNat c) (hend : s.decPos.toNat + (containerAt s c).size.toNat ≤ s.decLen.toNat) :
    ∃ r, exec .dnext s = .next (respond (movedTo s (s.decPos.toNat + (containerAt s c).size.toNat)) r)
      ∧ recordHead r = (0x00400000, 1, c) := by
  obtain ⟨hp, _⟩ := (inv_iff s).1 hinv
  obtain ⟨hcursor, _, _⟩ := cursor_of_inv hinv
  have hmodel := legalModel_of_inv hinv hcfg
  have hsize := one_le_size_of_frameAt hmodel hframe
  have hact : s.decActive = true := by
    rw [hcursor, decide_eq_true_eq]
    omega
  have hc := lt_of_frameAt hp hframe
  obtain ⟨hasValue, unmapped, ext, v, hrecord⟩ :=
    frameRecord_eq s c (dbufAt s s.decPos.toNat) (framePayload s c s.decPos.toNat)
  refine ⟨_, exec_dnext_of_whole hcfg hact hmodel hframe hend hrecord, ?_⟩
  simp only [recordHead, List.getD_cons_zero, recordWord_kind, recordWord_cont, BitVec.toNat_ofNat, Nat.mod_eq_of_lt hc]
  rfl

theorem dnexts_wholeFrames {s : State} {cs : List Nat} (hinv : s.inv = true) (hcfg : s.cfgOk = true)
    (hcs : WholeFrames s s.decPos.toNat cs) :
    ∃ t rs, dnexts cs.length s t ∧ t.responses = s.responses ++ rs ∧ t.decActive = false ∧ t.decPos = s.decLen
      ∧ rs.map recordHead = cs.map fun c => ((0x00400000 : Word), (1 : BitVec 2), c) := by
  induction cs generalizing s with
  | nil =>
    obtain ⟨hcursor, _, _⟩ := cursor_of_inv hinv
    have hend : s.decPos.toNat = s.decLen.toNat := hcs
    exact ⟨s, [], rfl, (List.append_nil _).symm, by simp [hcursor, hend], BitVec.eq_of_toNat_eq hend, rfl⟩
  | cons c cs ih =>
    obtain ⟨hframe, hrest⟩ := hcs
    have hend := le_decLen_of_wholeFrames hrest
    obtain ⟨r, hexec, hhead⟩ := exec_dnext_of_wholeFrame hinv hcfg hframe hend
    have hnext : WholeFrames (respond (movedTo s (s.decPos.toNat + (containerAt s c).size.toNat)) r)
        (movedTo s (s.decPos.toNat + (containerAt s c).size.toNat)).decPos.toNat cs := by
      rw [toNat_decPos_movedTo hend]
      exact wholeFrames_movedTo r hrest
    obtain ⟨t, rs, hrun, hresp, hact, hpos, hheads⟩ := ih (exec_inv hinv hexec) hcfg hnext
    refine ⟨t, r :: rs, ⟨_, hexec, hrun⟩, ?_, hact, hpos, ?_⟩
    · rw [hresp, respond_responses, List.append_assoc]
      rfl
    · rw [List.map_cons, List.map_cons, hhead, hheads]

/-! ### Unknown bytes (42_decoder.md R207) -/

/-- The response of a DNEXT that finds no known header at `pos`. -/
def invalidResponse (s : State) (pos : Nat) : Response :=
  ⟨0x00400000, [rec0 2 false false false 0 (dbufAt s pos).toNat, BitVec.ofNat 32 pos, 0, 0]⟩

/-- The state after `j` unknown bytes: the cursor behind them, and one INVALID record for each. -/
def afterUnknown (s : State) (j : Nat) : State :=
  { s with
    decPos := BitVec.ofNat 16 (s.decPos.toNat + j)
    decActive := decide (s.decPos.toNat + j < s.decLen.toNat)
    responses := s.responses ++ (List.range j).map fun k => invalidResponse s (s.decPos.toNat + k) }

theorem afterUnknown_zero {s : State} (hinv : s.inv = true) : afterUnknown s 0 = s := by
  obtain ⟨hcursor, _, _⟩ := cursor_of_inv hinv
  simp [afterUnknown, ← hcursor]

/-- One INVALID record, and then those of the bytes behind it. -/
theorem afterUnknown_succ {s : State} {j : Nat} (hlt : s.decPos.toNat < s.decLen.toNat) :
    afterUnknown (respond (movedTo s (s.decPos.toNat + 1)) (invalidResponse s s.decPos.toNat)) j = afterUnknown s (j + 1) := by
  have hpos : (movedTo s (s.decPos.toNat + 1)).decPos.toNat = s.decPos.toNat + 1 := toNat_decPos_movedTo hlt
  have hnext (k : Nat) : s.decPos.toNat + 1 + k = s.decPos.toNat + (k + 1) := by omega
  simp only [afterUnknown, respond_decPos, respond_decLen, respond_responses, hpos, hnext, List.range_succ_eq_map,
    List.map_cons, List.map_map, List.append_assoc]
  rfl

theorem dnexts_unknown {s : State} {j : Nat} (hinv : s.inv = true) (hcfg : s.cfgOk = true)
    (hj : s.decPos.toNat + j ≤ s.decLen.toNat) (hunknown : ∀ k < j, UnknownHeader s (dbufAt s (s.decPos.toNat + k))) :
    dnexts j s (afterUnknown s j) := by
  induction j generalizing s with
  | zero => exact afterUnknown_zero hinv
  | succ j ih =>
    obtain ⟨hcursor, _, _⟩ := cursor_of_inv hinv
    have hlt : s.decPos.toNat < s.decLen.toNat := by omega
    have hexec : exec .dnext s = okWith _ _ _ :=
      exec_dnext_of_unknownHeader hcfg (by simp [hcursor, hlt]) (hunknown 0 (Nat.succ_pos j))
    have hpos : (movedTo s (s.decPos.toNat + 1)).decPos.toNat = s.decPos.toNat + 1 := toNat_decPos_movedTo hlt
    have hnext (k : Nat) : s.decPos.toNat + 1 + k = s.decPos.toNat + (k + 1) := by omega
    rw [← afterUnknown_succ hlt]
    refine ⟨_, hexec, ih (exec_inv hinv hexec) hcfg ?_ fun k hk => ?_⟩
    · rw [respond_decPos, hpos, hnext]
      exact hj
    · rw [respond_decPos, hpos, hnext]
      exact hunknown (k + 1) (Nat.succ_lt_succ hk)

end Sys2Proof.Machine

open Sys2Proof Sys2Proof.Machine Sys2Proof.Cert

/-- Settles O51, with one equation for each record. -/
theorem dnextYieldsNextRecord : Obligations.DnextYieldsNextRecord := by
  intro s hinv hcfg
  obtain ⟨hp, _⟩ := (inv_iff s).1 hinv
  have hmodel := legalModel_of_inv hinv hcfg
  refine ⟨exec_dnext_of_inactive hcfg, fun hact => ⟨exec_dnext_of_unknownHeader hcfg hact, fun c hframe => ?_⟩⟩
  have hc := lt_of_frameAt hp hframe
  refine ⟨exec_dnext_of_truncated hcfg hact hmodel hframe hc, fun hend =>
    ⟨exec_dnext_of_no_field hcfg hact hmodel hframe hend hc, fun f fs v unmapped ext hfields hreads => ?_⟩⟩
  rw [← payloadOf_of_frameAt hframe] at hreads
  exact exec_dnext_of_reads hcfg hact hmodel hframe hend hc hfields hreads

/-- Settles O52, by induction on the number of bytes left. -/
theorem decodeTerminates : Obligations.DecodeTerminates := by
  refine ⟨fun s t hinv hact he => ?_, fun s k hinv hcfg hk => ?_⟩
  · obtain ⟨hcursor, _, hcommitted⟩ := cursor_of_inv hinv
    obtain ⟨_, hle, _⟩ := cursor_of_inv (exec_inv hinv he)
    obtain ⟨_, hlen, hforward⟩ := dnext_forward hinv (hcommitted hact) he
    have hlt : s.decPos.toNat < s.decLen.toNat := by simpa [hact] using hcursor
    rw [Nat.min_eq_left hlt] at hforward
    exact ⟨hforward, hlen ▸ hle, hlen⟩
  · obtain ⟨t, hrun, hcfgt, hact, hpos⟩ := dnexts_end hinv hcfg hk
    exact ⟨t, hrun, hact, hpos ▸ exec_dnext_of_inactive hcfgt hact⟩

/-- Settles O53, by induction on the list of frames. -/
theorem decodeConsumesExactFrames : Obligations.DecodeConsumesExactFrames := fun _ _ => dnexts_wholeFrames

/-- Settles O54, by induction on the number of unknown bytes. -/
theorem unknownBytesAreSkippedOneByOne : Obligations.UnknownBytesAreSkippedOneByOne := fun _ _ hinv hcfg hj hunknown =>
  ⟨_, dnexts_unknown hinv hcfg hj hunknown, rfl⟩

end

section
/-! PROOFS. The statements of 43_queue.md: the queue as a bounded FIFO of its live samples (R230 to R240). -/

namespace Sys2Proof.Machine

open Sys2Proof.Cert

/-! ### One rule per end of a command (43_queue.md R231, R232, R237) -/

theorem exec_qput_of_lt {s : State} (h : s.inv = true) (hroom : queueSize s < s.params.qcap - 1) (x : Sample) (ts : Word) :
    exec (.qput x ts) s = okWith (enqueue s x) 0 [] := by
  obtain ⟨hp, hr, hw⟩ := cursors_of_inv h
  rw [exec_qput_of_room (mt (enqueue_full_iff hp hr hw x).1 hroom.ne), succeed_without_results]

theorem exec_qput_of_eq {s : State} (h : s.inv = true) (hfull : queueSize s = s.params.qcap - 1) (x : Sample) (ts : Word) :
    exec (.qput x ts) s = okWith (evict (enqueue s x) ts) 0 [] := by
  obtain ⟨hp, hr, hw⟩ := cursors_of_inv h
  rw [exec_qput_of_full ((enqueue_full_iff hp hr hw x).2 hfull), succeed_without_results]

theorem succeed_empty (s : State) : succeed s (flagsField true false false) [] = okWith s 0x00010000 [] := by
  have hstatus : statusWord .ok 0 (flagsField true false false) 0 = 0x00010000 := by decide
  rw [okWith, ← hstatus]
  rfl

theorem succeed_one_word (s : State) (w : Word) : succeed s 0 [w] = okWith s 0x00100000 [w] := by
  have hstatus : okStatus 1 = 0x00100000 := by decide
  rw [succeed_eq_okWith, List.length_singleton, hstatus]

theorem succeed_two_words (s : State) (v w : Word) : succeed s 0 [v, w] = okWith s 0x00200000 [v, w] := by
  have hstatus : okStatus 2 = 0x00200000 := by decide
  rw [succeed_eq_okWith, List.length_cons, List.length_singleton, hstatus]

theorem exec_qdisc (s : State) :
    exec .qdisc s = okWith { s with discCnt := 0, discTs := 0 } 0x00200000 [s.discCnt, s.discTs] :=
  succeed_two_words _ _ _

theorem boolWord_of_iff {b : Bool} {c : Prop} [Decidable c] (h : b = true ↔ c) : boolWord b = if c then 1 else 0 := by
  simp only [boolWord, h]

/-! ### The live samples of a good state (43_queue.md R238, R240) -/

theorem liveSamples_eq_nil_iff {s : State} (h : s.inv = true) : liveSamples s = [] ↔ queueEmpty s = true := by
  obtain ⟨_, hr, hw⟩ := cursors_of_inv h
  rw [← List.length_eq_zero_iff, length_liveSamples, queueEmpty_iff hr hw]

theorem queueSize_le {s : State} (h : s.inv = true) : queueSize s ≤ s.params.qcap - 1 := by
  obtain ⟨_, hr, hw⟩ := cursors_of_inv h
  exact Nat.le_sub_one_of_lt (queueSize_lt hr hw)

/-- What holds of every entry of a table holds of the entry that is found. -/
theorem of_tableFind {α : Type} {P : Nat × α → Bool} {t : Table α} (ht : t.all P = true) {k : Nat} {v : α}
    (hfind : tableFind t k = some v) : P (k, v) = true := by
  induction t with
  | nil => cases hfind
  | cons e t ih =>
    obtain ⟨j, w⟩ := e
    rw [List.all_cons, Bool.and_eq_true] at ht
    obtain ⟨hhead, htail⟩ := ht
    simp only [tableFind] at hfind
    split at hfind
    · next hj => cases hfind; exact hj ▸ hhead
    · exact ih htail hfind

/-- A slot holds SAMPLE_W bits, written since reset or not (10_state.md R38). -/
theorem toNat_slotAt_lt {s : State} (h : s.inv = true) (k : Nat) : (slotAt s k).toNat < 2 ^ s.params.sampleW := by
  obtain ⟨hp, hst, _⟩ := (inv_iff s).1 h
  obtain ⟨_, _, _, _, _, hwidth⟩ := (storesWf_iff s).1 hst
  rw [slotAt]
  cases hfind : tableFind s.slots k with
  | none =>
    rw [Option.getD_none, toNat_truncSample hp]
    exact Nat.mod_lt _ (Nat.two_pow_pos _)
  | some v => exact of_decide_eq_true (of_tableFind hwidth hfind)

theorem length_sampleResult (p : Params) (x : Sample) : (sampleResult p x).length = (p.sampleW + 31) / 32 :=
  length_wordsOfNat _ _

/-- SW words hold all SAMPLE_W bits of a sample. -/
theorem natOfWords_sampleResult {p : Params} {x : Sample} (hx : x.toNat < 2 ^ p.sampleW) :
    natOfWords (sampleResult p x) = x.toNat := by
  have hwidth : p.sampleW ≤ 32 * sampleWords p := by rw [sampleWords]; omega
  rw [sampleResult, natOfWords_wordsOfNat]
  exact Nat.mod_eq_of_lt (hx.trans_le (Nat.pow_le_pow_right (by decide) hwidth))

/-! ### Puts in a row (43_queue.md R239) -/

theorem qputs_concat {xs : List (Sample × Word)} {s t u : State} {x : Sample} {ts : Word} (hrun : qputs xs s t)
    (hput : exec (.qput x ts) t = .next u) : qputs (xs ++ [(x, ts)]) s u := by
  induction xs generalizing s with
  | nil => obtain rfl := hrun; exact ⟨u, hput, rfl⟩
  | cons e xs ih =>
    obtain ⟨v, hv, hrest⟩ := hrun
    exact ⟨v, hv, ih hrest⟩

/-- Counting on from a saturated count saturates the sum. -/
theorem min_succ_min (a m : Nat) : min (min a m + 1) m = min (a + 1) m := by omega

/-- What 43_queue.md R239 says of the state `t` that the puts `xs` make of a state `s` with an empty queue: it holds the newest
QCAP - 1 samples and has counted every other one. -/
structure HoldsNewest (s : State) (xs : List (Sample × Word)) (t : State) : Prop where
  inv : t.inv = true
  params : t.params = s.params
  live : liveSamples t = (xs.map fun e => cut s e.1).drop (xs.length - (s.params.qcap - 1))
  discCnt : t.discCnt.toNat = min (s.discCnt.toNat + (xs.length - (s.params.qcap - 1))) 0xFFFFFFFF
  discTs : t.discTs = if s.params.qcap - 1 < xs.length then (xs.map (·.2)).getLastD 0 else s.discTs

theorem HoldsNewest.nil {s : State} (h : s.inv = true) (hempty : liveSamples s = []) : HoldsNewest s [] s where
  inv := h
  params := rfl
  live := by rw [hempty, List.map_nil, List.drop_nil]
  discCnt := by have := s.discCnt.isLt; simp only [List.length_nil]; omega
  discTs := rfl

theorem HoldsNewest.queueSize_eq {s t : State} {xs : List (Sample × Word)} (h : HoldsNewest s xs t) :
    queueSize t = min xs.length (s.params.qcap - 1) := by
  rw [← length_liveSamples, h.live, List.length_drop, List.length_map]
  omega

theorem HoldsNewest.truncSample_eq {s t : State} {xs : List (Sample × Word)} (h : HoldsNewest s xs t) (x : Sample) :
    truncSample t.params x = cut s x := by rw [h.params]; rfl

/-- While there is room one more sample joins the others. -/
theorem HoldsNewest.concat_of_lt {s t : State} {xs : List (Sample × Word)} (h : HoldsNewest s xs t)
    (hroom : xs.length < s.params.qcap - 1) (x : Sample) (ts : Word) :
    ∃ u, exec (.qput x ts) t = .next u ∧ HoldsNewest s (xs ++ [(x, ts)]) u := by
  obtain ⟨hp, hr, hw⟩ := cursors_of_inv h.inv
  have hsize : queueSize t < t.params.qcap - 1 := by rw [h.queueSize_eq, h.params]; omega
  have hkeep : xs.length - (s.params.qcap - 1) = 0 := by omega
  have hkeep' : xs.length + 1 - (s.params.qcap - 1) = 0 := by omega
  have hexec := exec_qput_of_lt h.inv hsize x ts
  refine ⟨_, hexec, exec_inv h.inv hexec, h.params, ?_, ?_, ?_⟩
  · rw [liveSamples_respond, liveSamples_enqueue hp hr hw x hsize.ne, h.live, h.truncSample_eq]
    simp [hkeep, hkeep']
  · simpa [hkeep, hkeep'] using h.discCnt
  · simpa [hroom.not_gt, Nat.not_lt.2 (Nat.succ_le_of_lt hroom)] using h.discTs

/-- From QCAP - 1 puts on each one evicts the oldest sample and counts it. -/
theorem HoldsNewest.concat_of_le {s t : State} {xs : List (Sample × Word)} (h : HoldsNewest s xs t)
    (hfull : s.params.qcap - 1 ≤ xs.length) (x : Sample) (ts : Word) :
    ∃ u, exec (.qput x ts) t = .next u ∧ HoldsNewest s (xs ++ [(x, ts)]) u := by
  obtain ⟨hp, hr, hw⟩ := cursors_of_inv h.inv
  have hsize : queueSize t = t.params.qcap - 1 := by rw [h.queueSize_eq, h.params, Nat.min_eq_right hfull]
  have hgone : xs.length + 1 - (s.params.qcap - 1) = xs.length - (s.params.qcap - 1) + 1 := Nat.sub_add_comm hfull
  have hle : xs.length - (s.params.qcap - 1) ≤ (xs.map fun e => cut s e.1).length := by rw [List.length_map]; omega
  have hexec := exec_qput_of_eq h.inv hsize x ts
  refine ⟨_, hexec, exec_inv h.inv hexec, h.params, ?_, ?_, ?_⟩
  · rw [liveSamples_respond, liveSamples_evict hp hr hw, h.live, h.truncSample_eq, ← List.drop_append_of_le_length hle,
      List.tail_drop, List.map_append, List.map_singleton, List.length_append, List.length_singleton, hgone]
  · rw [respond_discCnt, evict_discCnt, toNat_saturatingSucc, enqueue_discCnt, h.discCnt, min_succ_min, List.length_append,
      List.length_singleton, hgone, Nat.add_assoc]
  · simp [Nat.lt_succ_of_le hfull]

theorem qputs_holdsNewest {s : State} (h : s.inv = true) (hempty : liveSamples s = []) (xs : List (Sample × Word)) :
    ∃ t, qputs xs s t ∧ HoldsNewest s xs t := by
  induction xs using List.reverseRecOn with
  | nil => exact ⟨s, rfl, .nil h hempty⟩
  | append_singleton xs e ih =>
    obtain ⟨t, hrun, ht⟩ := ih
    obtain ⟨u, hput, hu⟩ := (lt_or_ge xs.length (s.params.qcap - 1)).elim
      (fun hroom => ht.concat_of_lt hroom e.1 e.2) (fun hfull => ht.concat_of_le hfull e.1 e.2)
    exact ⟨u, qputs_concat hrun hput, hu⟩

end Sys2Proof.Machine

open Sys2Proof Sys2Proof.Machine Sys2Proof.Cert

/-- Settles O60, by induction on the puts from the last one backwards. -/
theorem queueKeepsNewestSamples : Obligations.QueueKeepsNewestSamples := by
  intro s xs hinv hempty
  obtain ⟨t, hrun, ht⟩ := qputs_holdsNewest hinv hempty xs
  exact ⟨t, hrun, ht.live, ht.discCnt, ht.discTs⟩

/-- Settles O55: the two cases are those of QPUT's test after the advance of WR. -/
theorem qputRefinesBoundedFifo : Obligations.QputRefinesBoundedFifo := by
  intro s x ts hinv
  obtain ⟨hp, hr, hw⟩ := cursors_of_inv hinv
  have hcap := legal_qcap hp
  refine ⟨(enqueue s x).slots, nextSlot s.params s.rd, nextSlot s.params s.wr, nextSlot_toNat hp _, ?_⟩
  rw [length_liveSamples]
  refine ⟨fun hroom => ⟨exec_qput_of_lt hinv hroom x ts, liveSamples_enqueue hp hr hw x hroom.ne⟩, fun hfull => ?_⟩
  have hne : liveSamples s ≠ [] := List.ne_nil_of_length_pos (by rw [length_liveSamples, hfull]; omega)
  refine ⟨nextSlot_toNat hp _, exec_qput_of_eq hinv hfull x ts, ?_⟩
  exact (liveSamples_evict hp hr hw x ts).trans (List.tail_append_of_ne_nil hne)

/-- Settles O56: the oldest live sample is the slot that QGET reads, and SW words hold it. -/
theorem qgetTakesOldestSample : Obligations.QgetTakesOldestSample := by
  intro s hinv
  obtain ⟨hp, hr, hw⟩ := cursors_of_inv hinv
  refine ⟨fun hnil => ?_, fun x rest hlive => ?_⟩
  · rw [exec_qget_of_empty ((liveSamples_eq_nil_iff hinv).1 hnil), succeed_empty]
  · have hne : queueEmpty s = false :=
      Bool.eq_false_iff.2 fun he => List.cons_ne_nil x rest (hlive ▸ (liveSamples_eq_nil_iff hinv).2 he)
    have hx : slotAt s s.rd.toNat = x := by
      have hhead := head?_liveSamples hr hw hne
      rw [hlive] at hhead
      exact (Option.some.inj hhead).symm
    have hlt : x.toNat < 2 ^ s.params.sampleW := hx ▸ toNat_slotAt_lt hinv _
    refine ⟨nextSlot s.params s.rd, sampleResult s.params x, nextSlot_toNat hp _, ?_, length_sampleResult _ _,
      natOfWords_sampleResult hlt, hlt, ?_⟩
    · rw [exec_qget_of_nonempty hne, hx, succeed_eq_okWith, length_sampleResult]
    · rw [liveSamples_qget hp hr hw hne, hlive, List.tail_cons]

/-- Settles O57: the size is the number of live samples, of which the cursors say whether it is 0 or QCAP - 1. -/
theorem queueQueriesCountLiveSamples : Obligations.QueueQueriesCountLiveSamples := by
  intro s hinv
  obtain ⟨hp, hr, hw⟩ := cursors_of_inv hinv
  have hcap := legal_qcap hp
  rw [length_liveSamples]
  refine ⟨succeed_one_word _ _, queueSize_le hinv, ?_, ?_, by omega⟩
  · rw [← boolWord_of_iff (queueEmpty_iff hr hw)]
    exact succeed_one_word _ _
  · rw [← boolWord_of_iff (queueFull_iff hp hr hw)]
    exact succeed_one_word _ _

/-- Settles O58: with both cursors at 0 the size is 0. -/
theorem qresetEmptiesQueue : Obligations.QresetEmptiesQueue := fun s =>
  ⟨succeed_without_results _, List.eq_nil_of_length_eq_zero ((length_liveSamples _).trans (queueSize_qreset s))⟩

/-- Settles O59: a state whose discard state is zero is left as it is by the second QDISC. -/
theorem qdiscReportsAndClears : Obligations.QdiscReportsAndClears := by
  refine fun s => ⟨exec_qdisc s, fun t ht => ?_⟩
  cases (exec_qdisc s).symm.trans ht
  exact exec_qdisc _

end

section
/-! PROOFS. The statements of 44_control.md: the command step (R263), NOP, CSRR and CSRW (R260 to R262). -/

namespace Sys2Proof.Machine

open Sys2Proof.Cert

/-! ### The command step (44_control.md R263) -/

theorem step_of_decode {s : State} {c : Command} {rest : List PortEvent} {i : Instr} (hport : s.port = .command c :: rest)
    (hi : decode s.params c = .ok i) : step s = exec i { s with port := rest } := by
  rcases step_command hport with ⟨e, he, _⟩ | ⟨i', hi', hstep⟩
  · cases hi.symm.trans he
  · cases hi.symm.trans hi'
    exact hstep

/-! ### NOP (44_control.md R260) -/

theorem exec_nop (s : State) : exec .nop s = okWith s 0 [] := succeed_without_results s

theorem opcodeOf_nop {cw : Word} (hopc : cwOpc cw = 0x00) : opcodeOf (cwOpc cw) = some .nop := opcodeOf_eq_some_iff.2 hopc

/-- NOP's row masks the whole command word, and its match is the word 0. -/
theorem reservedZero_nop_iff {cw : Word} (hopc : cwOpc cw = 0x00) : reservedZero .nop cw = true ↔ cw = 0 := by
  have hmask : cw &&& tableMask .nop = cw := BitVec.and_allOnes
  have hrow := match_iff .nop cw
  rw [hmask] at hrow
  exact ⟨fun hres => hrow.2 ⟨opcodeOf_nop hopc, hres⟩, fun hcw => (hrow.1 hcw).2⟩

/-! ### The registers' words as numbers (10_state.md R23 to R25) -/

theorem eq_ofNat_of_toNat {w : Word} {n : Nat} (h : w.toNat = n) : w = BitVec.ofNat 32 n := by
  rw [← h, BitVec.ofNat_toNat, BitVec.setWidth_eq]

theorem endianBit_eq_true_iff (e : Endian) : endianBit e = true ↔ e = .big := by cases e <;> simp [endianBit]

theorem ctrlRegister_eq (s : State) : ctrlRegister s = if s.endian = .big then 1 else 0 := by
  rw [ctrlRegister]
  cases s.endian <;> rfl

theorem queueEmpty_eq_decide (s : State) : queueEmpty s = decide (s.rd = s.wr) := rfl

/-- The test for a full queue does not wrap in the sixteen bits of a cursor. -/
theorem queueFull_eq_decide {s : State} (h : s.params.legal = true) :
    queueFull s = decide ((s.wr.toNat + 1) % s.params.qcap = s.rd.toNat) := by
  rw [queueFull, Bool.beq_eq_decide_eq, ← nextSlot_toNat h, decide_eq_decide]
  exact BitVec.toNat_inj.symm

theorem statusRegister_eq {s : State} (h : s.params.legal = true) :
    statusRegister s = BitVec.ofNat 32 (asNat s.cfgOk + 2 * asNat s.decActive + 4 * asNat (decide (s.rd = s.wr))
      + 8 * asNat (decide ((s.wr.toNat + 1) % s.params.qcap = s.rd.toNat))
      + 2 ^ 8 * s.lastErr.toNat + 2 ^ 16 * s.lastSub.toNat) := by
  refine eq_ofNat_of_toNat ?_
  rw [statusRegister_toNat, ← queueEmpty_eq_decide, ← queueFull_eq_decide h]
  simp only [asNat_eq]
  omega

/-! ### CSRR and CSRW, one equation per end (44_control.md R261, R262) -/

theorem exec_csrr_of_read {s : State} {csr : Byte} {v : Word} (h : csrRead s csr = some v) :
    exec (.csrr csr) s = okWith s 0x00100000 [v] := by
  simp only [exec, execCsrr, h, succeed_one_word]

/-- A read-only number is an implemented one. -/
theorem isSome_csrRead_of_readOnly (s : State) {csr : Byte} (h : readOnlyCsr csr.toNat) : (csrRead s csr).isSome = true := by
  simp only [readOnlyCsr] at h
  simp only [csrRead]
  split
  case h_14 => grind
  all_goals rfl

theorem ne_ctrlNumber_of_readOnly {csr : Byte} (h : readOnlyCsr csr.toNat) : csr ≠ ctrlNumber := by
  rintro rfl
  simp [readOnlyCsr, ctrlNumber] at h

theorem exec_csrw_of_readOnly {csr : Byte} (h : readOnlyCsr csr.toNat) (v : Word) (s : State) :
    exec (.csrw csr v) s = failWith s 0x0010020B (BitVec.ofNat 32 csr.toNat) := by
  have himpl : ¬ (csrRead s csr).isNone = true := by
    rw [Option.isNone_eq_false_iff.2 (isSome_csrRead_of_readOnly s h)]
    decide
  rw [exec, execCsrw, if_neg himpl, if_pos (ne_ctrlNumber_of_readOnly h)]
  exact raise_naming (by decide) s csr

/-- The lock refuses a write of CTRL whose bit 0 is not the ENDIAN in force. -/
theorem exec_csrw_ctrl (v : Word) (s : State) :
    exec (.csrw 0x04 v) s
      = if s.cfgOk = true ∧ ¬ (v.getLsbD 0 = true ↔ s.endian = .big) then failWith s 0x00100004 0x00000004
        else okWith (writeCtrl s v) 0 [] := by
  have hlocked : raise s ⟨.locked, 0, (0x04 : Byte).setWidth 32⟩ = failWith s 0x00100004 0x00000004 :=
    raise_naming (by decide) s 0x04
  have hrefused : (s.cfgOk && (v.getLsbD 0 != endianBit s.endian)) = true
      ↔ s.cfgOk = true ∧ ¬ (v.getLsbD 0 = true ↔ s.endian = .big) := by
    rw [Bool.and_eq_true, bne_iff_ne, ← endianBit_eq_true_iff, ← Bool.eq_iff_iff]
  exact if_congr hrefused hlocked (succeed_without_results _)

end Sys2Proof.Machine

open Sys2Proof Sys2Proof.Machine Sys2Proof.Cert

/-- Settles O12, by the port's next event. -/
theorem stepRunsDecodedInstruction : Obligations.StepRunsDecodedInstruction :=
  ⟨fun _ _ _ _ hport hi => step_of_decode hport hi, fun _ _ hport => step_of_reset hport, fun _ => step_of_no_event⟩

/-- Settles O27: under opcode 0x00 the second check is that the command word is 0, and NOP takes no operand. -/
theorem nopChangesNothing : Obligations.NopChangesNothing := by
  refine ⟨exec_nop, fun s c rest hport hopc => ?_⟩
  have hop := opcodeOf_nop hopc
  have hres := reservedZero_nop_iff hopc
  refine ⟨fun hcw hops => ?_, fun hcw => ?_, fun hcw hops => ?_⟩
  · have hlen : c.ops.length = operandCount s.params .nop c.cw := congrArg List.length hops
    rw [step_of_decode hport (decode_eq_assemble hop (hres.2 hcw) hlen)]
    exact exec_nop _
  · exact step_refused hport (decode_reservedField hop (Bool.eq_false_iff.2 (mt hres.1 hcw)))
  · exact step_refused hport (decode_badLength hop (hres.2 hcw) (mt List.eq_nil_of_length_eq_zero hops))

/-- Settles O28, register by register; legal parameters fit their fields in the PARAM words. -/
theorem csrrReadsImplementedRegisters : Obligations.CsrrReadsImplementedRegisters := by
  intro s hp
  have hread {csr : Byte} {v w : Word} (h : csrRead s csr = some v) (hvw : v = w) :
      exec (.csrr csr) s = okWith s 0x00100000 [w] := exec_csrr_of_read (hvw ▸ h)
  exact ⟨hread rfl rfl, hread rfl (eq_ofNat_of_toNat (param0Register_toNat hp)),
    hread rfl (eq_ofNat_of_toNat (param1Register_toNat hp)), hread rfl (eq_ofNat_of_toNat (param2Register_toNat hp)),
    hread rfl (ctrlRegister_eq s), hread rfl (statusRegister_eq hp), hread rfl rfl,
    hread rfl (BitVec.ofNat_toNat _ _).symm, hread rfl (BitVec.ofNat_toNat _ _).symm,
    hread rfl (BitVec.ofNat_toNat _ _).symm, hread rfl (BitVec.ofNat_toNat _ _).symm, hread rfl rfl, hread rfl rfl⟩

/-- Settles O30: of the implemented numbers only CTRL's is not read-only, and the lock forbids a change of ENDIAN alone. -/
theorem csrwWritesCtrlOnly : Obligations.CsrwWritesCtrlOnly := by
  intro s v
  refine ⟨fun hfree => ?_, fun hlock hchange => ?_, fun csr hro => exec_csrw_of_readOnly hro v s⟩
  · rw [exec_csrw_ctrl, if_neg]
    · rfl
    · rintro ⟨hlock, hchange⟩
      exact hfree.elim (by simp [hlock]) hchange
  · rw [exec_csrw_ctrl, if_pos ⟨hlock, hchange⟩]

end

section
/-! PROOFS. The error registers as an observer's record (60_exceptions.md R285): every command but a CSRR of STATUS ends the
same way whatever LAST_ERR and LAST_SUB hold. -/

namespace Sys2Proof.Machine

/-! ### Outcomes that agree but for the error registers -/

/-- The state with these error registers in place of its own. -/
def withError (s : State) (err sub : Byte) : State := { s with lastErr := err, lastSub := sub }

/-- The error registers are the part of the report that R285 speaks of. -/
theorem withError_eq_withReport (s : State) (err sub : Byte) : withError s err sub = withReport s s.responses err sub := rfl

/-- Two outcomes that answer next states which differ in the error registers at most. -/
inductive SameButError : Host.Outcome State Fault Refusal → Host.Outcome State Fault Refusal → Prop where
  | next (t : State) (err sub : Byte) : SameButError (.next t) (.next (withError t err sub))

/-- A raise writes the error registers without a look at what they held. -/
theorem SameButError.raised {s : State} {err sub : Byte} {f : Failure} :
    SameButError (raise s f) (raise (withError s err sub) f) := .next _ (statusByte f.code) f.sub

theorem SameButError.succeeded {s' : State} {err sub : Byte} {fl : BitVec 4} {rs : List Word} :
    SameButError (succeed s' fl rs) (succeed (withError s' err sub) fl rs) := .next _ err sub

/-- A check that both sides make keeps the agreement if both its branches do. -/
theorem SameButError.check {c : Prop} [Decidable c] {o o' p p' : Host.Outcome State Fault Refusal}
    (hpos : SameButError o p) (hneg : SameButError o' p') :
    SameButError (if c then o else o') (if c then p else p') := by
  split
  · exact hpos
  · exact hneg

/-- An answer that depends on no error register leaves states that agree but for them. -/
theorem SameAnswer.sameButError {s : State} {err sub : Byte} {o p : Host.Outcome State Fault Refusal}
    (h : SameAnswer s (withError s err sub) o p) : SameButError o p := by
  cases h with
  | raised => exact .raised
  | succeeded => exact .succeeded

theorem SameButError.exists_next {o p : Host.Outcome State Fault Refusal} (h : SameButError o p) :
    ∃ t u, o = .next t ∧ p = .next u ∧ t.responses = u.responses
      ∧ u = { t with lastErr := u.lastErr, lastSub := u.lastSub } := by
  cases h with
  | next t err sub => exact ⟨t, withError t err sub, rfl, rfl, rfl, rfl⟩

/-! ### What depends on the error registers -/

/-- Which CSR numbers are implemented does not depend on the error registers, that of STATUS included. -/
theorem isNone_csrRead_withError (s : State) (err sub csr : Byte) :
    (csrRead (withError s err sub) csr).isNone = (csrRead s csr).isNone := by
  by_cases hcsr : csr = 0x05
  · subst hcsr
    rfl
  · rw [withError_eq_withReport, csrRead_withReport s.responses fun h => absurd h hcsr]

/-- CSRW keeps the error registers or, with CLR_ERR, clears them; it tests the implemented numbers, CFG_OK and ENDIAN. -/
theorem execCsrw_withError (csr : Byte) (v : Word) (s : State) (err sub : Byte) :
    SameButError (execCsrw csr v s) (execCsrw csr v (withError s err sub)) := by
  simp only [execCsrw, isNone_csrRead_withError]
  exact .check .raised (.check .raised (.check .raised .succeeded))

/-- The commit checks read the descriptors alone. -/
theorem execCfgcommit_withError (s : State) (err sub : Byte) :
    SameButError (execCfgcommit s) (execCfgcommit (withError s err sub)) := by
  have hcheck : commitCheck (withError s err sub) = commitCheck s := rfl
  simp only [execCfgcommit, hcheck]
  refine .check .raised ?_
  cases commitCheck s with
  | some => exact .raised
  | none => exact .succeeded

/-- Whether a QPUT evicts is a matter of the cursors. -/
theorem exec_qput_withError (x : Sample) (ts : Word) (s : State) (err sub : Byte) :
    SameButError (exec (.qput x ts) s) (exec (.qput x ts) (withError s err sub)) := by
  by_cases hfull : (enqueue s x).wr = (enqueue s x).rd
  · rw [exec_qput_of_full hfull, exec_qput_of_full (s := withError s err sub) hfull]
    exact .succeeded
  · rw [exec_qput_of_room hfull, exec_qput_of_room (s := withError s err sub) hfull]
    exact .succeeded

/-- No command but a CSRR of STATUS depends on the error registers. -/
theorem exec_withError {i : Instr} (hi : i ≠ .csrr 0x05) (s : State) (err sub : Byte) :
    SameButError (exec i s) (exec i (withError s err sub)) := by
  cases i with
  | csrr | funpack | fpack | cunpack | cpacku | cpackr | dbrd | qsize | qempty | qfull =>
    exact (exec_sameAnswer s.responses rfl fun h => absurd h hi).sameButError
  | csrw csr v => exact execCsrw_withError csr v s err sub
  | cfgc | cfgf | cfgx | dbwr | dstart => exact .check .raised (.check .raised .succeeded)
  | cfgcommit => exact execCfgcommit_withError s err sub
  | dnext => exact .check .raised (.check .succeeded .succeeded)
  | qput x ts => exact exec_qput_withError x ts s err sub
  | qget => exact .check .succeeded .succeeded
  | nop | cfgclr | qreset | qdisc => exact .succeeded

end Sys2Proof.Machine

open Sys2Proof Sys2Proof.Machine

/-- Settles O24: the outcomes of every command from the two states agree but for the error registers. -/
theorem lastErrorIsNeverTested : Obligations.LastErrorIsNeverTested := fun _ s a b hi =>
  (exec_withError hi s a b).exists_next

end

section
/-! PROOFS. The statements of 70_reset_and_hazards.md: what a decode can rely on (R318), the host's sequence that
brings the reset values back (R312), the reset values (R311), and what needs a commit (R315). -/

namespace Sys2Proof.Machine

open Sys2Proof.Cert

/-! ### What stays while a decode is active (70_reset_and_hazards.md R318, 20_memory.md R74) -/

theorem cfgOk_of_decActive {s : State} (h : s.inv = true) (hact : s.decActive = true) : s.cfgOk = true := by
  obtain ⟨_, _, hd, _⟩ := (inv_iff s).1 h
  obtain ⟨_, _, _, hcfg⟩ := (decoderWf_iff s).1 hd
  exact hcfg hact

/-- DBWR, the one writer of DBUF, is refused during a decode. -/
theorem writes_dbuf_of_decActive {i : Instr} {s s' : State} (hw : Writes i s s') (hact : s.decActive = true) :
    s'.dbuf = s.dbuf := by
  cases i with
  | dbwr =>
    obtain ⟨hidle, _⟩ := hw
    exact absurd hact (by simp [hidle])
  | _ => exact not_imp_comm.1 (writes_ownWriters hw).dbuf (by simp [Instr.opcode, Opcode.code])

/-- A decode runs under a locked Device Model, which only CFGCLR unlocks, and CFGCLR ends the decode. -/
theorem writes_decodeContext {i : Instr} {s s' : State} (hw : Writes i s s') (hlock : s.cfgOk = true)
    (hact : s.decActive = true) (hact' : s'.decActive = true) : SameDeviceModel s s' ∧ s'.dbuf = s.dbuf := by
  have hne : i ≠ .cfgclr := by
    rintro rfl
    obtain rfl := hw
    simp at hact'
  exact ⟨writes_sameDeviceModel hw hlock hne, writes_dbuf_of_decActive hw hact⟩

theorem step_decodeContext {s t : State} (h : s.inv = true) (hact : s.decActive = true) (hstep : step s = .next t)
    (hact' : t.decActive = true) : SameDeviceModel s t ∧ t.dbuf = s.dbuf := by
  have hsame : SameDeviceModel s s := ⟨rfl, rfl, rfl, rfl, rfl⟩
  match hport : s.port with
  | [] =>
    cases (step_of_no_event hport).symm.trans hstep
    exact ⟨hsame, rfl⟩
  | .reset :: rest =>
    cases (step_of_reset hport).symm.trans hstep
    simp [resetEvent_eq] at hact'
  | .command c :: rest =>
    rcases step_command_next hport hstep with ⟨f, w, _, _, rfl⟩ | ⟨i, s', fl, rs, _, hw, rfl⟩
    · exact ⟨{ hsame with }, rfl⟩
    · obtain ⟨hmodel, hdbuf⟩ := writes_decodeContext hw (cfgOk_of_decActive h hact) hact hact'
      exact ⟨{ hmodel with }, hdbuf⟩

/-! ### The host's reset sequence (70_reset_and_hazards.md R312) -/

/-- The responses of CFGCLR, QRESET, QDISC and a CSRW of CTRL: QDISC alone has results, the discard state that it clears. -/
def hostSequenceResponses (s : State) : List Response :=
  [⟨0, []⟩, ⟨0, []⟩, ⟨0x00200000, [s.discCnt, s.discTs]⟩, ⟨0, []⟩]

theorem hostSequenceResponses_status (s : State) : (hostSequenceResponses s).map statusOf = [0, 0, 0, 0] := by
  simp [hostSequenceResponses, statusOf]

/-- What CFGCLR, QRESET, QDISC and a CSRW of CTRL with ENDIAN = 0 and CLR_ERR = 1 leave together. -/
def hostCleared (s : State) : State :=
  { clearModel s with
    responses := s.responses ++ hostSequenceResponses s
    rd := 0
    wr := 0
    discCnt := 0
    discTs := 0
    endian := .little
    lastErr := 0
    lastSub := 0 }

/-- After CFGCLR the lock no longer forbids a change of ENDIAN. -/
theorem exec_csrw_ctrl_of_unlocked {s : State} (hs : s.cfgOk = false) (v : Word) :
    exec (.csrw 0x04 v) s = okWith (writeCtrl s v) 0 [] := by
  rw [exec_csrw_ctrl, if_neg (by simp [hs])]

theorem runs_hostSequence (s : State) : runs [.cfgclr, .qreset, .qdisc, .csrw 0x04 0x00000002] s (hostCleared s) := by
  refine ⟨_, succeed_without_results _, _, succeed_without_results _, _, exec_qdisc _, _,
    exec_csrw_ctrl_of_unlocked rfl _, ?_⟩
  simp [runs, hostCleared, hostSequenceResponses, respond, writeCtrl, clearModel, endianOfBit]

/-- Of the pieces of state only the stores differ from those of a reset event. -/
theorem hostCleared_eq_afterReset (s : State) :
    hostCleared s = { State.afterReset s.params s.draw s.port (s.responses ++ hostSequenceResponses s) with
      cdt := (hostCleared s).cdt, fdt := (hostCleared s).fdt, xt := s.xt, dbuf := s.dbuf, slots := s.slots } := rfl

/-! ### The reset values (70_reset_and_hazards.md R311) -/

/-- The numbers of RD, WR, DISC_CNT and DISC_TS. -/
theorem eq_of_cursor_or_discard_number {n : Byte} (hlow : 0x0C ≤ n.toNat) (hhigh : n.toNat ≤ 0x0F) :
    n = 0x0C ∨ n = 0x0D ∨ n = 0x0E ∨ n = 0x0F := by
  bv_omega

section
variable {p : Params} (hp : p.legal = true) (draw : Nat) (port : List PortEvent) (rs : List Response)

/-- The CSRs that read 0 after a reset event: CTRL, CFG_ERR and the registers of the decoder and of the queue. -/
theorem csrRead_afterReset_zero {n : Byte}
    (hn : n = 0x04 ∨ n = 0x06 ∨ n = 0x08 ∨ n = 0x09 ∨ (0x0C ≤ n.toNat ∧ n.toNat ≤ 0x0F)) :
    csrRead (State.afterReset p draw port rs) n = some 0 := by
  rcases hn with rfl | rfl | rfl | rfl | ⟨hlow, hhigh⟩
  · exact congrArg some (ctrlRegister_eq _)
  · rfl
  · rfl
  · rfl
  · rcases eq_of_cursor_or_discard_number hlow hhigh with rfl | rfl | rfl | rfl <;> rfl

include hp

/-- The queue is empty and, as QCAP is at least 2, not full; nothing else shows in STATUS. -/
theorem statusRegister_afterReset : statusRegister (State.afterReset p draw port rs) = 0x00000004 := by
  have hcap := legal_qcap hp
  have hfull : ¬ (0 + 1) % p.qcap = 0 := by rw [Nat.mod_eq_of_lt (by omega)]; omega
  rw [statusRegister_eq (s := State.afterReset p draw port rs) hp]
  simp [asNat, hfull]

theorem liveSamples_afterReset : liveSamples (State.afterReset p draw port rs) = [] :=
  (liveSamples_eq_nil_iff (inv_afterReset hp draw port rs)).2 rfl

theorem csrRead_afterReset (n : Byte) :
    csrRead (State.afterReset p draw port rs) n =
      if n = 0x00 then some 0x46460007
      else if n = 0x01 then some (BitVec.ofNat 32 (p.nc * 2 ^ 16 + p.nf))
      else if n = 0x02 then some (BitVec.ofNat 32 (p.dbufSize * 2 ^ 16 + p.xtSize))
      else if n = 0x03 then some (BitVec.ofNat 32 (p.sampleW * 2 ^ 24 + p.cmax * 2 ^ 16 + p.qcap))
      else if n = 0x05 then some 0x00000004
      else if n = 0x04 ∨ n = 0x06 ∨ n = 0x08 ∨ n = 0x09 ∨ (0x0C ≤ n.toNat ∧ n.toNat ≤ 0x0F) then some 0
      else none := by
  split_ifs with h0 h1 h2 h3 h5 hzero
  · subst h0; rfl
  · subst h1; exact congrArg some (eq_ofNat_of_toNat (param0Register_toNat hp))
  · subst h2; exact congrArg some (eq_ofNat_of_toNat (param1Register_toNat hp))
  · subst h3; exact congrArg some (eq_ofNat_of_toNat (param2Register_toNat hp))
  · subst h5; exact congrArg some (statusRegister_afterReset hp draw port rs)
  · exact csrRead_afterReset_zero draw port rs hzero
  · refine csrRead_reserved _ ?_
    rw [reservedCsr]
    bv_omega

end

/-! ### What needs a commit (70_reset_and_hazards.md R315) -/

theorem raise_notConfigured (s : State) : raise s ⟨.notConfigured, 0, 0⟩ = failWith s 0x00100003 0 := by
  have hstatus : statusWord .notConfigured 0 0 1 = 0x00100003 := by decide
  rw [raise_eq_failWith, hstatus]

/-- The check of CFG_OK that seven commands begin with, whatever they go on to do. -/
theorem notConfigured_of_uncommitted {s : State} (hs : s.cfgOk = false) (o : Host.Outcome State Fault Refusal) :
    (if !s.cfgOk then raise s ⟨.notConfigured, 0, 0⟩ else o) = failWith s 0x00100003 0 := by
  rw [if_pos (by simp [hs]), raise_notConfigured]

end Sys2Proof.Machine

open Sys2Proof Sys2Proof.Machine

/-- Settles O22: what ends the lock ends the decode, and DBWR is refused while it lasts. -/
theorem decodeSeesConstantContext : Obligations.DecodeSeesConstantContext := by
  intro s t hinv hact hstep hact'
  obtain ⟨h, hdbuf⟩ := step_decodeContext hinv hact hstep hact'
  exact ⟨h.cdt, h.fdt, h.xt, h.endian, hdbuf⟩

/-- Settles O26: the four commands' writes together are those of a reset event but for the stores. -/
theorem hostSequenceReachesResetValues : Obligations.HostSequenceReachesResetValues := fun s =>
  ⟨hostCleared s, hostSequenceResponses s, runs_hostSequence s, hostCleared_eq_afterReset s,
    hostSequenceResponses_status s, containerAt_clear s, fieldAt_clear s⟩

/-- Settles O13, register by register; nothing is written, so no descriptor is valid and no sample is live. -/
theorem resetValuesAreTheTables : Obligations.ResetValuesAreTheTables := fun _ draw port rs hp =>
  ⟨csrRead_afterReset hp draw port rs, fun _ => rfl, fun _ => rfl, rfl, rfl, liveSamples_afterReset hp draw port rs⟩

/-- Settles O17; the parameters of State.reset are legal ones. -/
theorem resetMeetsStateInvariant : Obligations.ResetMeetsStateInvariant :=
  ⟨inv_afterReset (by decide) _ _ _, fun _ draw port rs hp => inv_afterReset hp draw port rs⟩

/-- Settles O21: each of the seven commands checks CFG_OK first. -/
theorem commandsBeforeCommitFail : Obligations.CommandsBeforeCommitFail := fun _ hs =>
  ⟨fun _ _ => notConfigured_of_uncommitted hs _, fun _ _ => notConfigured_of_uncommitted hs _,
    fun _ _ => notConfigured_of_uncommitted hs _, fun _ _ _ => notConfigured_of_uncommitted hs _,
    fun _ _ => notConfigured_of_uncommitted hs _, fun _ => notConfigured_of_uncommitted hs _,
    notConfigured_of_uncommitted hs _⟩

end
